-- ==== Sys2Proof/Word.lean ====
section
/-! DEFINITION. The word types of the block: bytes, 64-bit lanes, the 25-lane permutation state and the 200-byte
sponge buffer (spec 00_scope.md R5, 10_state.md R11, R14). -/

namespace Sys2Proof

/-- A byte, bit 0 least significant (00_scope.md R7). -/
abbrev Byte := BitVec 8

/-- One 64-bit lane of a permutation state (00_scope.md R5). -/
abbrev Lane := BitVec 64

/-- A 1600-bit permutation state: 25 lanes of 64 bits (00_scope.md R5). -/
abbrev Lanes := Vector Lane 25

/-- The sponge's partial-block buffer, 200 bytes (00_scope.md R5, 10_state.md R11). -/
abbrev Buffer := Vector Byte 200

/-- The all-zero permutation state. -/
def Lanes.zero : Lanes := Vector.replicate 25 0

/-- The all-zero buffer. -/
def Buffer.zero : Buffer := Vector.replicate 200 0

end Sys2Proof
end

