-- ==== Sys2Proof/Config.lean ====
section
/-! DEFINITION. What the spec leaves open as named arguments of the model (spec 00_scope.md R6, 92_eei_decisions.md):
the permutation `P`, the constant `DS_DUPLEX`, the answers of the entropy source, and the values registers hold after
a reset event. Every operation takes them as an argument; the block itself uses `Config.block`, whose parts have no
body. -/

namespace Sys2Proof

/-- Values for the registers to which a reset gives no value (70_reset_and_hazards.md R120(c)), each of its register's
width (10_state.md R11, R14). -/
structure ResetDraw where
  spongeA : Lanes
  buf : Buffer
  leftover : BitVec 8
  spongeRate : BitVec 8
  suffix : Byte
  duplexA : Lanes
  duplexRate : BitVec 8
  inputIndex : BitVec 8
  outputIndex : BitVec 8
  deriving DecidableEq, Repr, Inhabited

/-- The arguments of the model. -/
structure Config where
  /-- `P`, a total function on 25 lanes (42_collaborators.md R82). -/
  perm : Lanes → Lanes
  /-- `DS_DUPLEX` (41_duplex.md R60). -/
  dsDuplex : Byte
  /-- Whether ENT's `k`-th free answer is `ok` (42_collaborators.md R87). -/
  entOk : Nat → Bool
  /-- Byte `t` of ENT's `k`-th free answer (42_collaborators.md R87). -/
  entByte : Nat → Nat → Byte
  /-- The registers' values after the `k`-th reset event (70_reset_and_hazards.md R120(c)). -/
  resetDraw : Nat → ResetDraw

/-- The permutation collaborator: some bijection of the 1600-bit states (42_collaborators.md R80(b), R82; log 3). -/
opaque Config.permutation : Equiv.Perm Lanes

/-- The low seven bits of `DS_DUPLEX` (00_scope.md R6: an 8-bit constant with bit 7 clear; log 4). -/
opaque Config.dsDuplexLow : BitVec 7

/-- Whether ENT's `k`-th free answer succeeds (42_collaborators.md R87; log 5). -/
opaque Config.freeEntOk : Nat → Bool

/-- The bytes of ENT's free answers (42_collaborators.md R87; log 5). -/
opaque Config.freeEntByte : Nat → Nat → Byte

/-- The registers' values after a reset event (70_reset_and_hazards.md R120(c), 93_implementation_defined.md U5; log 2). -/
opaque Config.freeReset : Nat → ResetDraw

/-- The arguments the block runs with: nothing in Lean can evaluate any of them. -/
def Config.block : Config where
  perm := Config.permutation
  dsDuplex := Config.dsDuplexLow.setWidth 8
  entOk := Config.freeEntOk
  entByte := Config.freeEntByte
  resetDraw := Config.freeReset

end Sys2Proof
end

