-- ==== Sys2Proof/Syntax.lean ====
section
/-! DEFINITION. The commands of the host (spec 30_encoding.md R42, R43, R47, R48) and the command message that
carries one (R40). One constructor of `Instr` per row of spec/opcode_table.json. -/

namespace Sys2Proof

/-- A host command with its operands. A payload is part of the command (30_encoding.md R40, R45): its length is the
`inlen` operand of the header, so it is not repeated here. -/
inductive Instr where
  /-- `SPONGE_INIT rateBits, suffix` (40_sponge.md R52). -/
  | spongeInit (rateBits : BitVec 16) (suffix : Byte)
  /-- `SPONGE_UPDATE <data>` (40_sponge.md R53). -/
  | spongeUpdate (data : List Byte)
  /-- `SPONGE_FINISH outlen` (40_sponge.md R55). -/
  | spongeFinish (outlen : BitVec 32)
  /-- `DUPLEX_INIT rateBits` (41_duplex.md R62). -/
  | duplexInit (rateBits : BitVec 16)
  /-- `DUPLEX_DUPLEX <input>, outlen` (41_duplex.md R64). -/
  | duplexDuplex (input : List Byte) (outlen : BitVec 32)
  /-- `DUPLEX_FEED <data>` (41_duplex.md R66). -/
  | duplexFeed (data : List Byte)
  /-- `DUPLEX_FETCH outlen` (41_duplex.md R68). -/
  | duplexFetch (outlen : BitVec 32)
  /-- `DUPLEX_FORGET` (41_duplex.md R70). -/
  | duplexForget
  /-- `DUPLEX_RESEED` (41_duplex.md R72). -/
  | duplexReseed
  deriving DecidableEq, Repr

/-- The nine mnemonics of the opcode map, in table order (30_encoding.md R43). -/
inductive Op where
  | spongeInit | spongeUpdate | spongeFinish
  | duplexInit | duplexDuplex | duplexFeed | duplexFetch | duplexForget | duplexReseed
  deriving DecidableEq, Repr

/-- The mnemonic a command stands under. -/
def Instr.op : Instr → Op
  | .spongeInit _ _ => .spongeInit
  | .spongeUpdate _ => .spongeUpdate
  | .spongeFinish _ => .spongeFinish
  | .duplexInit _ => .duplexInit
  | .duplexDuplex _ _ => .duplexDuplex
  | .duplexFeed _ => .duplexFeed
  | .duplexFetch _ => .duplexFetch
  | .duplexForget => .duplexForget
  | .duplexReseed => .duplexReseed

/-- The payload bytes a command carries (30_encoding.md R42, column payload). -/
def Instr.payload : Instr → List Byte
  | .spongeInit _ _ => []
  | .spongeUpdate data => data
  | .spongeFinish _ => []
  | .duplexInit _ => []
  | .duplexDuplex input _ => input
  | .duplexFeed data => data
  | .duplexFetch _ => []
  | .duplexForget => []
  | .duplexReseed => []

/-- The number of output bytes of a command that completes with `OK` (30_encoding.md R42, column output). -/
def Instr.outlen : Instr → Nat
  | .spongeInit _ _ => 0
  | .spongeUpdate _ => 0
  | .spongeFinish outlen => outlen.toNat
  | .duplexInit _ => 0
  | .duplexDuplex _ outlen => outlen.toNat
  | .duplexFeed _ => 0
  | .duplexFetch outlen => outlen.toNat
  | .duplexForget => 0
  | .duplexReseed => 0

/-- A command message: one 64-bit header followed by a payload of zero or more bytes (30_encoding.md R40). -/
structure Message where
  header : BitVec 64
  payload : List Byte
  deriving DecidableEq, Repr

/-- The pseudo-commands of 30_encoding.md R48; the block knows nothing of them. -/
inductive Pseudo where
  | sha3x256 (m : List Byte)
  | sha3x512 (m : List Byte)
  | sha3x384 (m : List Byte)
  | shake128 (m : List Byte) (n : BitVec 32)
  | shake256 (m : List Byte) (n : BitVec 32)
  | wipeSponge
  | wipeDuplex
  deriving DecidableEq, Repr

/-- The fixed sequence of real commands a pseudo-command expands to (30_encoding.md R48). The output length 48 of
SHA3_384 and the rate 1088 of SHAKE256 are marked there as general knowledge (log 19). -/
def Pseudo.expand : Pseudo → List Instr
  | .sha3x256 m => [.spongeInit 1088 0x06, .spongeUpdate m, .spongeFinish 32]
  | .sha3x512 m => [.spongeInit 576 0x06, .spongeUpdate m, .spongeFinish 64]
  | .sha3x384 m => [.spongeInit 832 0x06, .spongeUpdate m, .spongeFinish 48]
  | .shake128 m n => [.spongeInit 1344 0x1F, .spongeUpdate m, .spongeFinish n]
  | .shake256 m n => [.spongeInit 1088 0x1F, .spongeUpdate m, .spongeFinish n]
  | .wipeSponge => [.spongeInit 64 0x00]
  | .wipeDuplex => [.duplexInit 64]

/-- One hexadecimal digit, lower case. -/
def hexDigit (n : Nat) : Char := ['0', '1', '2', '3', '4', '5', '6', '7', '8', '9', 'a', 'b', 'c', 'd', 'e', 'f'].getD n '?'

/-- A payload in assembler text: a hexadecimal string in angle brackets, two digits per byte, first byte first, high
nibble first (30_encoding.md R47, 20_memory.md R23). -/
def asmBytes (bs : List Byte) : List Char :=
  '<' :: bs.flatMap (fun b => [hexDigit (b.toNat / 16), hexDigit (b.toNat % 16)]) ++ ['>']

/-- An 8-bit number in assembler text, `0x` and two digits (30_encoding.md R47). -/
def asmByte (b : Byte) : List Char := ['0', 'x', hexDigit (b.toNat / 16), hexDigit (b.toNat % 16)]

/-- A number in assembler text, decimal (30_encoding.md R47). -/
def asmNat (n : Nat) : List Char := Nat.toDigits 10 n

/-- The assembler line of a command, as its characters: the spelling of 30_encoding.md R47 with one space after the
mnemonic, decimal numbers, a hexadecimal suffix and a hexadecimal payload (log 20). -/
def Instr.asm : Instr → List Char
  | .spongeInit rateBits suffix => "SPONGE_INIT ".toList ++ asmNat rateBits.toNat ++ [',', ' '] ++ asmByte suffix
  | .spongeUpdate data => "SPONGE_UPDATE ".toList ++ asmBytes data
  | .spongeFinish outlen => "SPONGE_FINISH ".toList ++ asmNat outlen.toNat
  | .duplexInit rateBits => "DUPLEX_INIT ".toList ++ asmNat rateBits.toNat
  | .duplexDuplex input outlen => "DUPLEX_DUPLEX ".toList ++ asmBytes input ++ [',', ' '] ++ asmNat outlen.toNat
  | .duplexFeed data => "DUPLEX_FEED ".toList ++ asmBytes data
  | .duplexFetch outlen => "DUPLEX_FETCH ".toList ++ asmNat outlen.toNat
  | .duplexForget => "DUPLEX_FORGET".toList
  | .duplexReseed => "DUPLEX_RESEED".toList

end Sys2Proof
end

