-- ==== Sys2Proof/Machine/State.lean ====
section
/-! DEFINITION. The state of the block (spec 10_state.md R11, R14, R17), the model's observation of it
(42_collaborators.md R83: the trace, beside the responses) and its environment (10_state.md R10: HOST and ENT), as
plain data; what a step can stop with; the state right after reset (70_reset_and_hazards.md R120). -/

namespace Sys2Proof.Machine

/-- `S.phase` (10_state.md R17). -/
inductive SpongePhase where
  | uninit | absorbing | finished
  deriving DecidableEq, Repr

/-- `D.phase` (10_state.md R17). -/
inductive DuplexPhase where
  | uninit | ready
  deriving DecidableEq, Repr

/-- The sponge context `S` (10_state.md R11). Counts are natural numbers held in 8-bit registers (log 11). -/
structure SpongeCtx where
  A : Lanes
  buf : Buffer
  leftover : Nat
  rate : Nat
  suffix : Byte
  phase : SpongePhase
  deriving DecidableEq, Repr

/-- The duplex context `D` (10_state.md R14). Counts are natural numbers held in 8-bit registers (log 11). -/
structure DuplexCtx where
  A : Lanes
  rate : Nat
  inputIndex : Nat
  outputIndex : Nat
  phase : DuplexPhase
  deriving DecidableEq, Repr

/-- Which context's lanes a permutation request carries (42_collaborators.md R83). -/
inductive Engine where
  | sponge | duplex
  deriving DecidableEq, Repr

/-- A request to a collaborator, as the trace records it (42_collaborators.md R83). -/
inductive Event where
  /-- `PERM(S)` or `PERM(D)`. -/
  | perm (e : Engine)
  /-- `ENT(n)`: `n` bytes were asked for. -/
  | ent (n : Nat)
  deriving DecidableEq, Repr

/-- An answer of the entropy collaborator fixed in advance (42_collaborators.md R86, R87). -/
inductive EntAnswer where
  | fail
  | ok (bytes : List Byte)
  deriving DecidableEq, Repr

/-- A response message: the 32-bit status word, then the output bytes (30_encoding.md R40, R46). -/
structure Response where
  word : BitVec 32
  out : List Byte
  deriving DecidableEq, Repr

/-- What the host can do to the block: deliver a command message (30_encoding.md R40) or assert reset
(70_reset_and_hazards.md R120). -/
inductive HostInput where
  | command (m : Message)
  /-- Reset, with no command in progress. -/
  | reset
  /-- Reset during the message `m`: while it is still being delivered (its payload is short of the announced length),
  or while its command is in progress, once `requests` requests have been made to PERM and ENT (R120(a), (d); log 2). -/
  | resetDuring (m : Message) (requests : Nat)
  deriving DecidableEq, Repr

/-- The machine: the two contexts, the model's observation, and the environment's pending inputs. -/
structure State where
  /-- The sponge context `S` (10_state.md R11). -/
  sponge : SpongeCtx
  /-- The duplex context `D` (10_state.md R14). -/
  duplex : DuplexCtx
  /-- The collaborator trace, oldest event first (42_collaborators.md R83). -/
  trace : List Event
  /-- The responses produced, oldest first (30_encoding.md R40; log 7). -/
  responses : List Response
  /-- Host inputs not yet taken, next first (log 6). -/
  inbox : List HostInput
  /-- ENT's next answers where they are fixed in advance, next first (42_collaborators.md R87; log 5). -/
  entScript : List EntAnswer
  /-- How many free answers ENT has given: selects the next one (log 5). -/
  entDraws : Nat
  /-- How many reset events have happened: selects the values the next one leaves (log 2). -/
  resetDraws : Nat
  deriving DecidableEq, Repr

/-- Why the machine stops with a fault. No run from reset raises either (10_state.md R13, R16 are invariants). -/
inductive Fault where
  /-- Raised by SPONGE_UPDATE and SPONGE_FINISH in phase ABSORBING when leftover, rate or suffix lies outside the
  legal values of 10_state.md R11, for which the spec gives no effect. Safe (log 9). -/
  | spongeRegistersIllegal
  /-- Raised by the five non-init duplex commands in phase READY when rate, inputIndex or outputIndex lies outside the
  legal values of 10_state.md R14, for which the spec gives no effect. Safe (log 9). -/
  | duplexRegistersIllegal
  deriving DecidableEq, Repr

/-- Why the machine gives no meaning. -/
inductive Refusal where
  /-- Raised by an arm of exec whose instruction has no meaning yet. Safe. -/
  | notModelled (mnemonic : String)
  /-- Raised by step on a message whose payload is not exactly as long as its legal header announces, which the spec
  says the model refuses (30_encoding.md R45); where reset cuts the message, only on a payload longer than announced, by
  DESIGN CHOICE. Safe (log 8). -/
  | notACommandMessage
  deriving DecidableEq, Repr

/-- The machine right after reset: both phases UNINIT and the trace empty (70_reset_and_hazards.md R120). The spec
gives no other register a value; the zeros here are the model's (log 1). -/
def State.reset : State where
  sponge := { A := Lanes.zero, buf := Buffer.zero, leftover := 0, rate := 0, suffix := 0, phase := .uninit }
  duplex := { A := Lanes.zero, rate := 0, inputIndex := 0, outputIndex := 0, phase := .uninit }
  trace := []
  responses := []
  inbox := []
  entScript := []
  entDraws := 0
  resetDraws := 0

end Sys2Proof.Machine
end

