-- ==== Sys2Proof/Machine/Flags.lean ====
section
/-! DEFINITION. The block has no condition codes and no status register (spec 10_state.md R19). What takes their place
is the status of a response (60_exceptions.md R100) and its 32-bit word (30_encoding.md R46). -/

namespace Sys2Proof.Machine

/-- The outcome of a command (60_exceptions.md R100). -/
inductive Status where
  | ok | errConfig | errEntropy | errMisuse | errIllegal
  deriving DecidableEq, Repr

/-- The 8-bit status code (60_exceptions.md R100). -/
def Status.code : Status → BitVec 8
  | .ok => 0x00
  | .errConfig => 0x01
  | .errEntropy => 0x02
  | .errMisuse => 0x03
  | .errIllegal => 0x04

/-- The status word: bits 31:8 zero, bits 7:0 the code (30_encoding.md R46). -/
def Status.word (st : Status) : BitVec 32 := st.code.setWidth 32

end Sys2Proof.Machine
end

