-- ==== Sys2Proof/Machine/Operands.lean ====
section
/-! DEFINITION. The operand checks of the commands (spec 60_exceptions.md R101) and the legal values of the registers
(10_state.md R11, R14). Operands are unsigned and zero-extended to natural numbers (30_encoding.md R42). -/

namespace Sys2Proof.Machine

/-- `SPONGE_INIT` rejects its operands (60_exceptions.md R101, 40_sponge.md R52). -/
def spongeInitRejects (rateBits : BitVec 16) (suffix : Byte) : Bool :=
  decide (rateBits.toNat = 0) || decide (rateBits.toNat > 1600) || decide (rateBits.toNat % 64 ≠ 0) || decide (suffix &&& 0x80 ≠ 0)

/-- `DUPLEX_INIT` rejects its operand (60_exceptions.md R101, 41_duplex.md R62). -/
def duplexInitRejects (rateBits : BitVec 16) : Bool :=
  decide (rateBits.toNat < 64) || decide (rateBits.toNat > 1536) || decide (rateBits.toNat % 64 ≠ 0)

/-- `DUPLEX_DUPLEX` rejects its lengths at rate `r` (60_exceptions.md R101, 41_duplex.md R64). -/
def duplexDuplexRejects (r inlen outlen : Nat) : Bool := decide (inlen > r - 1) || decide (outlen > r)

/-- The legal values of `S.rate`: 8, 16, ..., 200 (10_state.md R11, R13(b)). -/
def spongeRateLegal (r : Nat) : Bool := decide (8 ≤ r) && decide (r ≤ 200) && decide (r % 8 = 0)

/-- The legal values of `D.rate`: 8, 16, ..., 192 (10_state.md R14, R16(a)). -/
def duplexRateLegal (r : Nat) : Bool := decide (8 ≤ r) && decide (r ≤ 192) && decide (r % 8 = 0)

/-- The registers of `S` hold legal values for phase ABSORBING (10_state.md R11, R13(a) to (c)). -/
def SpongeCtx.legal (c : SpongeCtx) : Bool :=
  spongeRateLegal c.rate && decide (c.leftover < c.rate) && decide (c.suffix &&& 0x80 = 0)

/-- The registers of `D` hold legal values for phase READY (10_state.md R14, R16(a) to (c)). -/
def DuplexCtx.legal (c : DuplexCtx) : Bool :=
  duplexRateLegal c.rate && decide (c.inputIndex ≤ c.rate - 1) && decide (c.outputIndex ≤ c.rate)

end Sys2Proof.Machine
end

