-- ==== Sys2Proof/Machine/Ops.lean ====
section
/-! DEFINITION. The named operations over the state: the byte view of the lanes (spec 20_memory.md R21, R22), the
sponge buffer, the updates of State, the completion of a command with its status (30_encoding.md R46,
60_exceptions.md R100, R107) and the phase checks (40_sponge.md R51, 41_duplex.md R61). -/

namespace Sys2Proof.Machine

/-- What a command answers. -/
abbrev Outcome := Host.Outcome State Fault Refusal

/-! Lanes and state bytes. An offset of 200 or more names no byte (20_memory.md R24): no rule computes one, and the
legality checks of the commands rule it out. -/

/-- Lane `i`. -/
def laneAt (A : Lanes) (i : Nat) : Lane := A[i]?.getD 0

/-- Lane `i` becomes `v`. -/
def setLane (A : Lanes) (i : Nat) (v : Lane) : Lanes := A.setIfInBounds i v

/-- `SB(c, j)`: state byte `j`, little-endian in its lane (20_memory.md R21). -/
def stateByte (A : Lanes) (j : Nat) : Byte := (laneAt A (j / 8) >>> (8 * (j % 8))).setWidth 8

/-- `SBxor(c, j, v)` (20_memory.md R22). -/
def xorByte (A : Lanes) (j : Nat) (v : Byte) : Lanes :=
  setLane A (j / 8) (laneAt A (j / 8) ^^^ (v.setWidth 64 <<< (8 * (j % 8))))

/-- `SBset(c, j, v)` (20_memory.md R22). -/
def setByte (A : Lanes) (j : Nat) (v : Byte) : Lanes :=
  setLane A (j / 8) ((laneAt A (j / 8) &&& ~~~(0xFF#64 <<< (8 * (j % 8)))) ||| (v.setWidth 64 <<< (8 * (j % 8))))

/-- `SBxor` of each byte of `bs` at consecutive offsets from `off`. -/
def xorRun (A : Lanes) (off : Nat) : List Byte → Lanes
  | [] => A
  | b :: bs => xorRun (xorByte A off b) (off + 1) bs

/-- `SB(c, off) ++ ... ++ SB(c, off + k - 1)`. -/
def readRun (A : Lanes) (off k : Nat) : List Byte := (List.range k).map (fun t => stateByte A (off + t))

/-- `SBset(c, j, 0)` for `j` in `0 .. k-1`. -/
def zeroRun (A : Lanes) : Nat → Lanes
  | 0 => A
  | k + 1 => setByte (zeroRun A k) k 0

/-! The sponge buffer (10_state.md R11). -/

/-- `S.buf[j]`. -/
def bufByte (b : Buffer) (j : Nat) : Byte := b[j]?.getD 0

/-- `S.buf[j] <- v`. -/
def setBuf (b : Buffer) (j : Nat) (v : Byte) : Buffer := b.setIfInBounds j v

/-- `S.buf[off + t] <- bs[t]` for each `t`. -/
def writeBuf (b : Buffer) (off : Nat) : List Byte → Buffer
  | [] => b
  | v :: vs => writeBuf (setBuf b off v) (off + 1) vs

/-- `S.buf[0 .. k-1]`. -/
def readBuf (b : Buffer) (k : Nat) : List Byte := (List.range k).map (bufByte b)

/-! Updates of the state, one field each. -/

/-- The sponge context becomes `c`. -/
def State.setSponge (s : State) (c : SpongeCtx) : State := { s with sponge := c }

/-- The duplex context becomes `c`. -/
def State.setDuplex (s : State) (c : DuplexCtx) : State := { s with duplex := c }

/-- `S.A <- A`. -/
def State.setSpongeA (s : State) (A : Lanes) : State := { s with sponge := { s.sponge with A := A } }

/-- `S.buf <- b`. -/
def State.setSpongeBuf (s : State) (b : Buffer) : State := { s with sponge := { s.sponge with buf := b } }

/-- `S.leftover <- n`. -/
def State.setLeftover (s : State) (n : Nat) : State := { s with sponge := { s.sponge with leftover := n } }

/-- `S.phase <- p`. -/
def State.setSpongePhase (s : State) (p : SpongePhase) : State := { s with sponge := { s.sponge with phase := p } }

/-- `D.A <- A`. -/
def State.setDuplexA (s : State) (A : Lanes) : State := { s with duplex := { s.duplex with A := A } }

/-- `D.inputIndex <- n`. -/
def State.setInputIndex (s : State) (n : Nat) : State := { s with duplex := { s.duplex with inputIndex := n } }

/-- `D.outputIndex <- n`. -/
def State.setOutputIndex (s : State) (n : Nat) : State := { s with duplex := { s.duplex with outputIndex := n } }

/-- One event is appended to the trace (42_collaborators.md R83). -/
def State.logEvent (s : State) (e : Event) : State := { s with trace := s.trace ++ [e] }

/-- One response is appended to those produced (30_encoding.md R40). -/
def State.respond (s : State) (r : Response) : State := { s with responses := s.responses ++ [r] }

/-- The host inputs not yet taken become `q`. -/
def State.setInbox (s : State) (q : List HostInput) : State := { s with inbox := q }

/-- The entropy answers fixed in advance become `q`. -/
def State.setEntScript (s : State) (q : List EntAnswer) : State := { s with entScript := q }

/-- One more free entropy answer has been given. -/
def State.nextEntDraw (s : State) : State := { s with entDraws := s.entDraws + 1 }

/-- The entropy source after `k` more requests have been answered (42_collaborators.md R87; log 5). -/
def State.afterRequests (s : State) (k : Nat) : State :=
  { s with entScript := s.entScript.drop k, entDraws := s.entDraws + (k - s.entScript.length) }

/-- A request to ENT. -/
def Event.isEnt (e : Event) : Bool :=
  match e with
  | .perm _ => false
  | .ent _ => true

/-- How many of the requests are to ENT. -/
def entRequests (es : List Event) : Nat := es.countP Event.isEnt

/-! The end of a command. -/

/-- `complete(status, out)`: the command ends, its response carries `status` and `out` (30_encoding.md R46). -/
def complete (st : Status) (out : List Byte) (s : State) : Outcome := .next (s.respond ⟨st.word, out⟩)

/-- `fail(status)`, the block's only exceptional outcome (60_exceptions.md R100, R107): the response carries the status
and no output; nothing is saved, masked or transferred. There is no return from it: the block is ready for the next
command as after a success (60_exceptions.md R108). -/
def fail (st : Status) (s : State) : Outcome := complete st [] s

/-- The common check of `SPONGE_UPDATE` and `SPONGE_FINISH` (40_sponge.md R51), then the command's body. -/
def onAbsorbing (s : State) (body : State → Outcome) : Outcome :=
  if s.sponge.phase ≠ .absorbing then fail .errMisuse s
  else if s.sponge.legal then body s
  else .fault .spongeRegistersIllegal

/-- The common check of the five duplex commands other than `DUPLEX_INIT` (41_duplex.md R61), then the command's
body. -/
def onReady (s : State) (body : State → Outcome) : Outcome :=
  if s.duplex.phase ≠ .ready then fail .errMisuse s
  else if s.duplex.legal then body s
  else .fault .duplexRegistersIllegal

end Sys2Proof.Machine
end

