-- ==== Sys2Proof/Machine/Collaborators.lean ====
section
/-! DEFINITION. The two operations the controller issues to its collaborators: `Permute` and `EntFill` (spec
42_collaborators.md R80, R82, R83, R86, R87), and the toy permutations of R84. -/

namespace Sys2Proof.Machine

/-- `Permute(S)`: all 25 lanes of `S` are replaced by their image under `P`, and `PERM(S)` is traced
(42_collaborators.md R80, R83). -/
def permuteSponge (c : Config) (s : State) : State :=
  (s.setSpongeA (c.perm s.sponge.A)).logEvent (.perm .sponge)

/-- `Permute(D)`: as `permuteSponge`, of the duplex lanes. -/
def permuteDuplex (c : Config) (s : State) : State :=
  (s.setDuplexA (c.perm s.duplex.A)).logEvent (.perm .duplex)

/-- A fixed answer as the answer to a request for `n` bytes: exactly `n` bytes or failure (42_collaborators.md R86(a);
log 5). -/
def EntAnswer.forRequest (a : EntAnswer) (n : Nat) : Option (List Byte) :=
  match a with
  | .fail => none
  | .ok bytes => if bytes.length = n then some bytes else none

/-- ENT's `k`-th free answer to a request for `n` bytes: failure, or `n` bytes of any value (42_collaborators.md
R87). -/
def freeAnswer (c : Config) (k n : Nat) : Option (List Byte) :=
  if c.entOk k then some ((List.range n).map (c.entByte k)) else none

/-- `EntFill(n)`: one request for `n` bytes, one answer, one `ENT(n)` event (42_collaborators.md R83, R86). The answer
is the next one fixed in advance, or a free one once those are used up. -/
def entFill (c : Config) (n : Nat) (s : State) : Option (List Byte) × State :=
  match s.entScript with
  | a :: rest => (a.forRequest n, (s.setEntScript rest).logEvent (.ent n))
  | [] => (freeAnswer c s.entDraws n, s.nextEntDraw.logEvent (.ent n))

/-- The 200 state bytes of a state (20_memory.md R21). -/
def bytesOfLanes (A : Lanes) : List Byte := readRun A 0 200

/-- The state whose state byte `j` is `bs[j]` (20_memory.md R21, the converse). -/
def lanesOfBytes (bs : List Byte) : Lanes := xorRun Lanes.zero 0 (bs.take 200)

/-- The toy permutation `P_id` (42_collaborators.md R84(a)). -/
def permId (A : Lanes) : Lanes := A

/-- The toy permutation `P_rot1`: the 200 bytes rotate left by one place and each grows by 1 modulo 256
(42_collaborators.md R84(b)). -/
def permRot1 (A : Lanes) : Lanes :=
  lanesOfBytes ((List.range 200).map (fun j => stateByte A ((j + 1) % 200) + 1))

end Sys2Proof.Machine
end

