-- ==== Sys2Proof/Machine/Duplex.lean ====
section
/-! DEFINITION. The Duplex Engine's commands (spec 41_duplex.md): `DUPLEX_INIT`, `DUPLEX_DUPLEX`, `DUPLEX_FEED`,
`DUPLEX_FETCH`, `DUPLEX_FORGET`, `DUPLEX_RESEED` and the internal steps `PadPermute` and `FeedBytes`. Each body
follows the rule's pseudocode for any arguments `c` of the model; the meaning of the instruction is the body at
`Config.block`. A while loop is recursion on a bound of its iterations that the loop cannot exceed on a legal rate
(log 12). -/

namespace Sys2Proof.Machine

/-- The two XORs of a pad: `DS_DUPLEX` at offset `at_`, the terminator at the last byte of the rate block
(41_duplex.md R60, 20_memory.md R25). -/
def padXor (c : Config) (r at_ : Nat) (A : Lanes) : Lanes := xorByte (xorByte A at_ c.dsDuplex) (r - 1) 0x80

/-- `PadPermute()` (41_duplex.md R60). -/
def padPermute (c : Config) (s : State) : State :=
  ((permuteDuplex c (s.setDuplexA (padXor c s.duplex.rate s.duplex.inputIndex s.duplex.A))).setInputIndex 0).setOutputIndex 0

/-- `DUPLEX_INIT rateBits` (41_duplex.md R62). -/
def duplexInit (rateBits : BitVec 16) (s : State) : Outcome :=
  if duplexInitRejects rateBits then fail .errConfig s
  else
    complete .ok []
      (s.setDuplex
        { A := Lanes.zero, rate := rateBits.toNat / 8, inputIndex := 0, outputIndex := rateBits.toNat / 8, phase := .ready })

/-- The turn of `DUPLEX_DUPLEX` (41_duplex.md R64): the input at offset 0, the padding after it, one permutation. -/
def oneShotTurn (c : Config) (input : List Byte) (outlen : Nat) (s : State) : State :=
  ((permuteDuplex c (s.setDuplexA (padXor c s.duplex.rate input.length (xorRun s.duplex.A 0 input)))).setInputIndex
    0).setOutputIndex outlen

/-- `DUPLEX_DUPLEX <input>, outlen` (41_duplex.md R64). -/
def duplexDuplex (c : Config) (input : List Byte) (outlen : Nat) (s : State) : Outcome :=
  onReady s fun s =>
    if s.duplex.inputIndex ≠ 0 then fail .errMisuse s
    else if duplexDuplexRejects s.duplex.rate input.length outlen then fail .errConfig s
    else complete .ok (readRun (oneShotTurn c input outlen s).duplex.A 0 outlen) (oneShotTurn c input outlen s)

/-! `DUPLEX_FEED` (41_duplex.md R66). -/

/-- A full block, met with a byte still to write, is padded and permuted. -/
def padIfFull (c : Config) (s : State) : State :=
  if s.duplex.rate - 1 - s.duplex.inputIndex = 0 then padPermute c s else s

/-- The bytes are XORed in at `D.inputIndex`, which moves past them. -/
def writeBytes (bs : List Byte) (s : State) : State :=
  (s.setDuplexA (xorRun s.duplex.A s.duplex.inputIndex bs)).setInputIndex (s.duplex.inputIndex + bs.length)

/-- The loop of `FeedBytes`: in each turn as much of the payload as there is room for. -/
def feedLoop (c : Config) : Nat → List Byte → State → State
  | 0, _, s => s
  | bound + 1, data, s =>
    if data.length = 0 then s
    else
      let room := (padIfFull c s).duplex.rate - 1 - (padIfFull c s).duplex.inputIndex
      feedLoop c bound (data.drop (min room data.length)) (writeBytes (data.take (min room data.length)) (padIfFull c s))

/-- `FeedBytes(data, n)`: after all data is written no output is readable; nothing happens on empty input. -/
def feedBytes (c : Config) (data : List Byte) (s : State) : State :=
  if data.length = 0 then s
  else (feedLoop c data.length data s).setOutputIndex s.duplex.rate

/-- `DUPLEX_FEED <data>` (41_duplex.md R66). -/
def duplexFeed (c : Config) (data : List Byte) (s : State) : Outcome :=
  onReady s fun s => complete .ok [] (feedBytes c data s)

/-! `DUPLEX_FETCH` (41_duplex.md R68). -/

/-- A used-up block, met with a byte still wanted, is padded and permuted. -/
def padIfSpent (c : Config) (s : State) : State :=
  if s.duplex.rate - s.duplex.outputIndex = 0 then padPermute c s else s

/-- The loop of `DUPLEX_FETCH`: `rem` bytes of output, in each turn as many as are readable. -/
def fetchLoop (c : Config) : Nat → Nat → State → List Byte × State
  | 0, _, s => ([], s)
  | bound + 1, rem, s =>
    if rem = 0 then ([], s)
    else
      let s := padIfSpent c s
      let k := min (s.duplex.rate - s.duplex.outputIndex) rem
      let out := readRun s.duplex.A s.duplex.outputIndex k
      let (more, s) := fetchLoop c bound (rem - k) (s.setOutputIndex (s.duplex.outputIndex + k))
      (out ++ more, s)

/-- `DUPLEX_FETCH outlen` (41_duplex.md R68). -/
def duplexFetch (c : Config) (outlen : Nat) (s : State) : Outcome :=
  onReady s fun s =>
    let (out, s) := fetchLoop c outlen outlen s
    complete .ok out s

/-! `DUPLEX_FORGET` (41_duplex.md R70). -/

/-- The zero-wipe: bytes `0 .. rate-2` are overwritten with zero and `D.inputIndex` is put at the last byte. -/
def wipeBlock (s : State) : State :=
  (s.setDuplexA (zeroRun s.duplex.A (s.duplex.rate - 1))).setInputIndex (s.duplex.rate - 1)

/-- `DUPLEX_FORGET` (41_duplex.md R70). -/
def duplexForget (c : Config) (s : State) : Outcome :=
  onReady s fun s =>
    complete .ok [] ((padPermute c (wipeBlock (padPermute c s))).setOutputIndex s.duplex.rate)

/-! `DUPLEX_RESEED` (41_duplex.md R72 to R74). -/

/-- The loop of `DUPLEX_RESEED`: the iterations still to make. Answers whether every request to ENT was met. -/
def reseedLoop (c : Config) : Nat → State → Bool × State
  | 0, s => (true, s)
  | iters + 1, s =>
    match entFill c ((padPermute c s).duplex.rate - 1) (padPermute c s) with
    | (none, s) => (false, s)
    | (some bytes, s) => reseedLoop c iters (feedBytes c bytes s)

/-- `DUPLEX_RESEED` (41_duplex.md R72 to R74). -/
def duplexReseed (c : Config) (s : State) : Outcome :=
  onReady s fun s =>
    match reseedLoop c (200 / s.duplex.rate) s with
    | (true, s) => complete .ok [] s
    | (false, s) => fail .errEntropy s

/-- The meaning of `DUPLEX_INIT`. -/
def execDuplexInit (rateBits : BitVec 16) (s : State) : Outcome := duplexInit rateBits s

/-- The meaning of `DUPLEX_DUPLEX`. -/
def execDuplexDuplex (input : List Byte) (outlen : BitVec 32) (s : State) : Outcome :=
  duplexDuplex Config.block input outlen.toNat s

/-- The meaning of `DUPLEX_FEED`. -/
def execDuplexFeed (data : List Byte) (s : State) : Outcome := duplexFeed Config.block data s

/-- The meaning of `DUPLEX_FETCH`. -/
def execDuplexFetch (outlen : BitVec 32) (s : State) : Outcome := duplexFetch Config.block outlen.toNat s

/-- The meaning of `DUPLEX_FORGET`. -/
def execDuplexForget (s : State) : Outcome := duplexForget Config.block s

/-- The meaning of `DUPLEX_RESEED`. -/
def execDuplexReseed (s : State) : Outcome := duplexReseed Config.block s

end Sys2Proof.Machine
end

