-- ==== Sys2Proof/Machine/Sponge.lean ====
section
/-! DEFINITION. The Sponge Engine's commands (spec 40_sponge.md): `SPONGE_INIT`, `SPONGE_UPDATE`, `SPONGE_FINISH` and
the internal step `AbsorbBlock`. Each body follows the rule's pseudocode for any arguments `c` of the model; the
meaning of the instruction is the body at `Config.block`. A while loop is recursion on a bound of its iterations that
the loop cannot exceed on a legal rate (log 12). -/

namespace Sys2Proof.Machine

/-- `AbsorbBlock(B)` (40_sponge.md R54): `B` is XORed into state bytes 0 and up, then the state is permuted. -/
def absorbBlock (c : Config) (block : List Byte) (s : State) : State :=
  permuteSponge c (s.setSpongeA (xorRun s.sponge.A 0 block))

/-- `SPONGE_INIT rateBits, suffix` (40_sponge.md R52). -/
def spongeInit (rateBits : BitVec 16) (suffix : Byte) (s : State) : Outcome :=
  if spongeInitRejects rateBits suffix then fail .errConfig s
  else
    complete .ok []
      (s.setSponge
        { A := Lanes.zero, buf := Buffer.zero, leftover := 0, rate := rateBits.toNat / 8, suffix := suffix, phase := .absorbing })

/-! `SPONGE_UPDATE` (40_sponge.md R53). -/

/-- `take`: how much of the payload fits beside the leftover bytes. -/
def topUpCount (data : List Byte) (s : State) : Nat := min (s.sponge.rate - s.sponge.leftover) data.length

/-- Step 1: the buffer is topped up with that much of the payload. -/
def topUp (data : List Byte) (s : State) : State :=
  (s.setSpongeBuf (writeBuf s.sponge.buf s.sponge.leftover (data.take (topUpCount data s)))).setLeftover
    (s.sponge.leftover + topUpCount data s)

/-- Step 2 on the buffer: the full block in it is absorbed, and it is empty again. -/
def absorbBuffer (c : Config) (s : State) : State :=
  (absorbBlock c (readBuf s.sponge.buf s.sponge.rate) s).setLeftover 0

/-- Step 2 on the payload: while a whole rate block remains, absorb it. Answers the bytes that remain. -/
def absorbWhole (c : Config) : Nat → List Byte → State → List Byte × State
  | 0, rest, s => (rest, s)
  | bound + 1, rest, s =>
    if s.sponge.rate ≤ rest.length then
      absorbWhole c bound (rest.drop s.sponge.rate) (absorbBlock c (rest.take s.sponge.rate) s)
    else (rest, s)

/-- Step 3: a final partial block becomes the new leftover. -/
def stash (rest : List Byte) (s : State) : State :=
  if rest.length > 0 then (s.setSpongeBuf (writeBuf s.sponge.buf 0 rest)).setLeftover rest.length else s

/-- Steps 2 and 3 on a payload that meets an empty buffer. -/
def absorbPayload (c : Config) (data : List Byte) (s : State) : State :=
  stash (absorbWhole c data.length data s).1 (absorbWhole c data.length data s).2

/-- The state `SPONGE_UPDATE` leaves, its response apart, on a non-empty payload. -/
def spongeUpdateState (c : Config) (data : List Byte) (s : State) : State :=
  if s.sponge.leftover > 0 then
    if (topUp data s).sponge.leftover < (topUp data s).sponge.rate then topUp data s
    else absorbPayload c (data.drop (topUpCount data s)) (absorbBuffer c (topUp data s))
  else absorbPayload c data s

/-- `SPONGE_UPDATE <data>` (40_sponge.md R53). -/
def spongeUpdate (c : Config) (data : List Byte) (s : State) : Outcome :=
  onAbsorbing s fun s =>
    if data.length = 0 then complete .ok [] s else complete .ok [] (spongeUpdateState c data s)

/-! `SPONGE_FINISH` (40_sponge.md R55). -/

/-- Zero fill: `S.buf[j] <- 0` for `k` offsets from `off`. -/
def zeroFillBuf (b : Buffer) (off k : Nat) : Buffer := writeBuf b off (List.replicate k 0)

/-- The padding of the last block: suffix, zero fill, terminator. -/
def padBuffer (x : SpongeCtx) : Buffer :=
  let b := setBuf x.buf x.leftover x.suffix
  let b := zeroFillBuf b (x.leftover + 1) (x.rate - (x.leftover + 1))
  setBuf b (x.rate - 1) (bufByte b (x.rate - 1) ||| 0x80)

/-- The padded block is built in the buffer and absorbed. -/
def absorbPadded (c : Config) (s : State) : State :=
  absorbBlock c (readBuf (padBuffer s.sponge) s.sponge.rate) (s.setSpongeBuf (padBuffer s.sponge))

/-- The squeeze loop: `rem` bytes of output, with `Permute` only between output blocks. -/
def squeeze (c : Config) : Nat → Nat → State → List Byte × State
  | 0, _, s => ([], s)
  | bound + 1, rem, s =>
    if rem = 0 then ([], s)
    else
      let k := min s.sponge.rate rem
      let out := readRun s.sponge.A 0 k
      if rem - k > 0 then
        let (more, s) := squeeze c bound (rem - k) (permuteSponge c s)
        (out ++ more, s)
      else (out, s)

/-- `SPONGE_FINISH outlen` (40_sponge.md R55, R56). -/
def spongeFinish (c : Config) (outlen : Nat) (s : State) : Outcome :=
  onAbsorbing s fun s =>
    let (out, s) := squeeze c outlen outlen (absorbPadded c s)
    complete .ok out (s.setSpongePhase .finished)

/-- The meaning of `SPONGE_INIT`. -/
def execSpongeInit (rateBits : BitVec 16) (suffix : Byte) (s : State) : Outcome := spongeInit rateBits suffix s

/-- The meaning of `SPONGE_UPDATE`. -/
def execSpongeUpdate (data : List Byte) (s : State) : Outcome := spongeUpdate Config.block data s

/-- The meaning of `SPONGE_FINISH`. -/
def execSpongeFinish (outlen : BitVec 32) (s : State) : Outcome := spongeFinish Config.block outlen.toNat s

end Sys2Proof.Machine
end

