-- ==== Sys2Proof/Machine/Dispatch.lean ====
section
/-! DEFINITION. One arm per command: the meaning it calls. -/

namespace Sys2Proof.Machine

def exec (i : Instr) (s : State) : Host.Outcome State Fault Refusal :=
  match i with
  | .spongeInit rateBits suffix => Sys2Proof.Machine.execSpongeInit rateBits suffix s
  | .spongeUpdate data => Sys2Proof.Machine.execSpongeUpdate data s
  | .spongeFinish outlen => Sys2Proof.Machine.execSpongeFinish outlen s
  | .duplexInit rateBits => Sys2Proof.Machine.execDuplexInit rateBits s
  | .duplexDuplex input outlen => Sys2Proof.Machine.execDuplexDuplex input outlen s
  | .duplexFeed data => Sys2Proof.Machine.execDuplexFeed data s
  | .duplexFetch outlen => Sys2Proof.Machine.execDuplexFetch outlen s
  | .duplexForget => Sys2Proof.Machine.execDuplexForget s
  | .duplexReseed => Sys2Proof.Machine.execDuplexReseed s

end Sys2Proof.Machine
end

