-- ==== Sys2Proof/WellFormed.lean ====
section
/-! DEFINITION. Which commands a header can announce: the payload length fits its field (spec 30_encoding.md R42,
R45; 70_reset_and_hazards.md R134). Every other operand has its field's width by its type. -/

namespace Sys2Proof

/-- A command is well-formed when its payload length fits the field that announces it: `len32` for `SPONGE_UPDATE`
and `DUPLEX_FEED`, `arg16` for `DUPLEX_DUPLEX` (30_encoding.md R42). -/
def Instr.wf : Instr → Bool
  | .spongeInit _ _ => true
  | .spongeUpdate data => decide (data.length < 2 ^ 32)
  | .spongeFinish _ => true
  | .duplexInit _ => true
  | .duplexDuplex input _ => decide (input.length < 2 ^ 16)
  | .duplexFeed data => decide (data.length < 2 ^ 32)
  | .duplexFetch _ => true
  | .duplexForget => true
  | .duplexReseed => true

end Sys2Proof
end

