-- ==== Sys2Proof/Decode.lean ====
section
/-! DEFINITION. Decoding a command message (spec 30_encoding.md R41 to R45, R49) and encoding a command. The decoder
is total on every header and payload. -/

namespace Sys2Proof

/-- Why a message decodes to no command. -/
inductive DecodeError where
  /-- The header matches no row of the opcode map (30_encoding.md R44): the block answers `ERR_ILLEGAL`. -/
  | illegal
  /-- The payload is not exactly as long as the header announces: not a command message (30_encoding.md R45). -/
  | payloadLength
  deriving DecidableEq, Repr

/-- Header bits 63:56 (30_encoding.md R41). -/
def headerOpcode (h : BitVec 64) : BitVec 8 := h.extractLsb' 56 8
/-- Header bits 55:48 (30_encoding.md R41). -/
def headerImm8 (h : BitVec 64) : BitVec 8 := h.extractLsb' 48 8
/-- Header bits 47:32 (30_encoding.md R41). -/
def headerArg16 (h : BitVec 64) : BitVec 16 := h.extractLsb' 32 16
/-- Header bits 31:0 (30_encoding.md R41). -/
def headerLen32 (h : BitVec 64) : BitVec 32 := h.extractLsb' 0 32

/-- One row of the opcode map (30_encoding.md R43). -/
structure OpcodeRow where
  op : Op
  mtch : BitVec 64
  mask : BitVec 64
  deriving DecidableEq, Repr

/-- A header selects a row when `(h & mask) = match` (30_encoding.md R43). -/
def OpcodeRow.selects (row : OpcodeRow) (h : BitVec 64) : Bool := h &&& row.mask == row.mtch

/-- The opcode map, in table order (30_encoding.md R43). -/
def opcodeMap : List OpcodeRow :=
  [ ⟨.spongeInit,   0x1000000000000000, 0xFF000000FFFFFFFF⟩,
    ⟨.spongeUpdate, 0x1100000000000000, 0xFFFFFFFF00000000⟩,
    ⟨.spongeFinish, 0x1200000000000000, 0xFFFFFFFF00000000⟩,
    ⟨.duplexInit,   0x2000000000000000, 0xFFFF0000FFFFFFFF⟩,
    ⟨.duplexDuplex, 0x2100000000000000, 0xFFFF000000000000⟩,
    ⟨.duplexFeed,   0x2200000000000000, 0xFFFFFFFF00000000⟩,
    ⟨.duplexFetch,  0x2300000000000000, 0xFFFFFFFF00000000⟩,
    ⟨.duplexForget, 0x2400000000000000, 0xFFFFFFFFFFFFFFFF⟩,
    ⟨.duplexReseed, 0x2500000000000000, 0xFFFFFFFFFFFFFFFF⟩ ]

/-- The mnemonic of a header, or none where it is illegal (30_encoding.md R49). -/
def decodeHeader (h : BitVec 64) : Option Op := (opcodeMap.find? (fun row => row.selects h)).map (·.op)

/-- The payload length a legal header announces (30_encoding.md R45). -/
def payloadLength (op : Op) (h : BitVec 64) : Nat :=
  match op with
  | .spongeUpdate | .duplexFeed => (headerLen32 h).toNat
  | .duplexDuplex => (headerArg16 h).toNat
  | .spongeInit | .spongeFinish | .duplexInit | .duplexFetch | .duplexForget | .duplexReseed => 0

/-- The command of a mnemonic with its operands taken from the header and the payload (30_encoding.md R42). -/
def assemble (op : Op) (h : BitVec 64) (payload : List Byte) : Instr :=
  match op with
  | .spongeInit => .spongeInit (headerArg16 h) (headerImm8 h)
  | .spongeUpdate => .spongeUpdate payload
  | .spongeFinish => .spongeFinish (headerLen32 h)
  | .duplexInit => .duplexInit (headerArg16 h)
  | .duplexDuplex => .duplexDuplex payload (headerLen32 h)
  | .duplexFeed => .duplexFeed payload
  | .duplexFetch => .duplexFetch (headerLen32 h)
  | .duplexForget => .duplexForget
  | .duplexReseed => .duplexReseed

/-- The decoder (30_encoding.md R45, R49). The header is decoded first and reads no payload byte; the payload of an
illegal header is discarded whatever its length (R44). -/
def decode (m : Message) : Except DecodeError Instr :=
  match decodeHeader m.header with
  | none => .error .illegal
  | some op => if m.payload.length = payloadLength op m.header then .ok (assemble op m.header m.payload) else .error .payloadLength

/-- A header from its four fields (30_encoding.md R41). -/
def mkHeader (opcode imm8 : BitVec 8) (arg16 : BitVec 16) (len32 : BitVec 32) : BitVec 64 := opcode ++ imm8 ++ arg16 ++ len32

/-- The header of a command (30_encoding.md R42, R43). -/
def encodeHeader : Instr → BitVec 64
  | .spongeInit rateBits suffix => mkHeader 0x10 suffix rateBits 0
  | .spongeUpdate data => mkHeader 0x11 0 0 (BitVec.ofNat 32 data.length)
  | .spongeFinish outlen => mkHeader 0x12 0 0 outlen
  | .duplexInit rateBits => mkHeader 0x20 0 rateBits 0
  | .duplexDuplex input outlen => mkHeader 0x21 0 (BitVec.ofNat 16 input.length) outlen
  | .duplexFeed data => mkHeader 0x22 0 0 (BitVec.ofNat 32 data.length)
  | .duplexFetch outlen => mkHeader 0x23 0 0 outlen
  | .duplexForget => mkHeader 0x24 0 0 0
  | .duplexReseed => mkHeader 0x25 0 0 0

/-- The encoder: the command message of a command (30_encoding.md R41 to R45). -/
def encode (i : Instr) : Message := ⟨encodeHeader i, i.payload⟩

/-- The command message whose header is the low `nbits` bits of `w` and whose payload is as many zero bytes as that
header announces (none where the header is illegal). -/
def tableMessage (nbits w : Nat) : Message :=
  let h := BitVec.ofNat 64 (w % 2 ^ nbits)
  match decodeHeader h with
  | none => ⟨h, []⟩
  | some op => ⟨h, List.replicate (payloadLength op h) 0⟩

/-- The command the decoder reads from `tableMessage nbits w`, none where the header is illegal. The announced length
holds by construction, so it is not compared again (Laws/Decode.lean: `decodeTableWord_eq`). -/
def decodeTableWord (nbits w : Nat) : Option Instr :=
  let m := tableMessage nbits w
  (decodeHeader m.header).map (fun op => assemble op m.header m.payload)

end Sys2Proof
end

