-- ==== Sys2Proof/Machine/Fetch.lean ====
section
/-! DEFINITION. Taking the host's next input: a command message (spec 30_encoding.md R40, R45), an illegal header
(R44, 60_exceptions.md R104) or the reset input, between commands or during one (70_reset_and_hazards.md R120); and placing a message there. -/

namespace Sys2Proof.Machine

/-- What the next host input is, with the state after it is taken. -/
inductive Fetched where
  /-- No input waits. -/
  | idle
  /-- Reset is asserted. -/
  | reset (s : State)
  /-- A command message. -/
  | command (i : Instr) (s : State)
  /-- A command message whose command reset cuts short after so many requests to the collaborators. -/
  | abandoned (i : Instr) (requests : Nat) (s : State)
  /-- A header that matches no row of the opcode map, its payload discarded (30_encoding.md R44). -/
  | illegal (s : State)
  /-- A payload that is not of the announced length (30_encoding.md R45). -/
  | notACommandMessage
  deriving DecidableEq, Repr

/-- The payload is still short of the length its legal header announces (30_encoding.md R45). -/
def partlyDelivered (m : Message) : Bool :=
  match decodeHeader m.header with
  | none => false
  | some op => decide (m.payload.length < payloadLength op m.header)

/-- Takes the next host input and decodes it; decoding reads no other state (30_encoding.md R49). -/
def fetch (s : State) : Fetched :=
  match s.inbox with
  | [] => .idle
  | .reset :: rest => .reset (s.setInbox rest)
  | .command m :: rest =>
    match decode m with
    | .ok i => .command i (s.setInbox rest)
    | .error .illegal => .illegal (s.setInbox rest)
    | .error .payloadLength => .notACommandMessage
  | .resetDuring m requests :: rest =>
    match decode m with
    | .ok i => .abandoned i requests (s.setInbox rest)
    | .error .illegal => .reset (s.setInbox rest)
    | .error .payloadLength => if partlyDelivered m then .reset (s.setInbox rest) else .notACommandMessage

/-- The completion of an illegal header (60_exceptions.md R104): nothing but the response. -/
def answerIllegal (s : State) : Outcome := fail .errIllegal s

/-- The reset event (70_reset_and_hazards.md R120): both phases UNINIT, every other register a free value, the trace
and the pending response gone. The host's later inputs and ENT's answers to come are the environment's and stay
(log 2). -/
def resetEvent (c : Config) (s : State) : State :=
  let d := c.resetDraw s.resetDraws
  { s with
    sponge := { A := d.spongeA, buf := d.buf, leftover := d.leftover.toNat, rate := d.spongeRate.toNat, suffix := d.suffix,
                phase := .uninit }
    duplex := { A := d.duplexA, rate := d.duplexRate.toNat, inputIndex := d.inputIndex.toNat,
                outputIndex := d.outputIndex.toNat, phase := .uninit }
    trace := []
    responses := []
    resetDraws := s.resetDraws + 1 }

/-- The state with a message delivered so that it is the very next input taken. -/
def State.deliver (s : State) (m : Message) : State := s.setInbox (.command m :: s.inbox)

end Sys2Proof.Machine
end

