-- ==== Sys2Proof/Machine/Abandon.lean ====
section
/-! DEFINITION. Reset asserted while a command is in progress (spec 70_reset_and_hazards.md R120(a)). -/

namespace Sys2Proof.Machine

/-- The first `requests` requests of the run of a command that leads from `s` to `t`, oldest first. -/
def requestsMade (requests : Nat) (s t : State) : List Event := (t.trace.drop s.trace.length).take requests

/-- The command is abandoned once it has made `requests` requests to its collaborators (all of them where it makes no
more): no response, no further request, and the answer to the last one is dropped. Of what it did, the reset leaves
nothing in the block; ENT's answers to the requests made are used up (70_reset_and_hazards.md R120(a); log 2). -/
def abandon (i : Instr) (requests : Nat) (s : State) : Outcome :=
  match exec i s with
  | .next t => .next (resetEvent Config.block (s.afterRequests (entRequests (requestsMade requests s t))))
  | .fault f => .fault f
  | .refused r => .refused r

end Sys2Proof.Machine
end

