-- ==== Sys2Proof/Machine/Step.lean ====
section
/-! DEFINITION. One step of the machine: the next host input is taken and carried out to completion (spec
20_memory.md R29, R31), or until reset cuts it short (70_reset_and_hazards.md R120). With none waiting, the block is
idle and keeps all state (60_exceptions.md R112). -/

namespace Sys2Proof.Machine

/-- One step. -/
def step (s : State) : Host.Outcome State Fault Refusal :=
  match fetch s with
  | .idle => .next s
  | .reset s' => .next (resetEvent Config.block s')
  | .command i s' => exec i s'
  | .abandoned i requests s' => abandon i requests s'
  | .illegal s' => answerIllegal s'
  | .notACommandMessage => .refused .notACommandMessage

/-- The state with the command whose header is `w` (payload of zero bytes) delivered as the very next host input
(log 17). -/
def State.withFetchWord (s : State) (nbits w : Nat) : State := s.deliver (tableMessage nbits w)

end Sys2Proof.Machine
end

