-- ==== Sys2Proof/Safety.lean ====
section
/-! DEFINITION. The terms the claims are stated in: the invariants of the contexts (spec 10_state.md R13, R16), the
causes of a failure (60_exceptions.md R101, R103), the collaborator requests a command makes (40_sponge.md R59,
41_duplex.md R77), the sponge function (40_sponge.md R57) and the byte-by-byte reading of feed and fetch
(41_duplex.md R67, R69). None of it is used by the machine. -/

namespace Sys2Proof.Machine

/-! Invariants. -/

/-- Invariants of `S`: its counts fit their 8-bit registers, and once `S.phase` has left UNINIT they are legal
(10_state.md R11, R13(a) to (c), R56). -/
abbrev SpongeCtx.Inv (x : SpongeCtx) : Prop :=
  x.leftover < 256 ∧ x.rate < 256 ∧ (x.phase ≠ .uninit → x.legal = true)

/-- Invariants of `D`: its counts fit their 8-bit registers, and in phase READY they are legal and pending input rules
out unread output (10_state.md R14, R16(a) to (d)). -/
abbrev DuplexCtx.Inv (x : DuplexCtx) : Prop :=
  x.rate < 256 ∧ x.inputIndex < 256 ∧ x.outputIndex < 256 ∧
    (x.phase = .ready → x.legal = true ∧ (x.inputIndex > 0 → x.outputIndex = x.rate))

/-- A response as 30_encoding.md R46 allows it: one of the five codes, and output only with `OK`. -/
abbrev Response.Wf (r : Response) : Prop := r.word.toNat ≤ 4 ∧ (r.word ≠ 0 → r.out = [])

/-- An event as 42_collaborators.md R83, R86 allow it: an entropy request is for 7 to 191 bytes. -/
abbrev Event.Wf (e : Event) : Prop :=
  match e with
  | .perm _ => True
  | .ent n => 7 ≤ n ∧ n ≤ 191

/-- The invariant of the machine. -/
abbrev State.Inv (s : State) : Prop :=
  s.sponge.Inv ∧ s.duplex.Inv ∧ (∀ r ∈ s.responses, r.Wf) ∧ (∀ e ∈ s.trace, e.Wf)

/-! Failures. -/

/-- The causes of `ERR_MISUSE` (60_exceptions.md R103). -/
def Misuse (i : Instr) (s : State) : Prop :=
  match i with
  | .spongeInit _ _ => False
  | .spongeUpdate _ => s.sponge.phase ≠ .absorbing
  | .spongeFinish _ => s.sponge.phase ≠ .absorbing
  | .duplexInit _ => False
  | .duplexDuplex _ _ => s.duplex.phase ≠ .ready ∨ s.duplex.inputIndex ≠ 0
  | .duplexFeed _ => s.duplex.phase ≠ .ready
  | .duplexFetch _ => s.duplex.phase ≠ .ready
  | .duplexForget => s.duplex.phase ≠ .ready
  | .duplexReseed => s.duplex.phase ≠ .ready

/-- The operand conditions of `ERR_CONFIG` (60_exceptions.md R101). -/
def ConfigBad (i : Instr) (s : State) : Prop :=
  match i with
  | .spongeInit rateBits suffix =>
    rateBits.toNat = 0 ∨ rateBits.toNat > 1600 ∨ rateBits.toNat % 64 ≠ 0 ∨ suffix.toNat ≥ 128
  | .duplexInit rateBits => rateBits.toNat < 64 ∨ rateBits.toNat > 1536 ∨ rateBits.toNat % 64 ≠ 0
  | .duplexDuplex input outlen => input.length > s.duplex.rate - 1 ∨ outlen.toNat > s.duplex.rate
  | .spongeUpdate _ | .spongeFinish _ | .duplexFeed _ | .duplexFetch _ | .duplexForget | .duplexReseed => False

/-- Commands of the Sponge Engine. -/
def isSpongeCommand (i : Instr) : Bool :=
  match i with
  | .spongeInit _ _ | .spongeUpdate _ | .spongeFinish _ => true
  | .duplexInit _ | .duplexDuplex _ _ | .duplexFeed _ | .duplexFetch _ | .duplexForget | .duplexReseed => false

/-- The two init commands. -/
def isInitCommand (i : Instr) : Bool :=
  match i with
  | .spongeInit _ _ | .duplexInit _ => true
  | .spongeUpdate _ | .spongeFinish _ | .duplexDuplex _ _ | .duplexFeed _ | .duplexFetch _ | .duplexForget
  | .duplexReseed => false

/-! Runs. -/

/-- Commands carried out one after the other (20_memory.md R31), stopping at the first stop. -/
def execAll : List Instr → State → Outcome
  | [], s => .next s
  | i :: is, s =>
    match exec i s with
    | .next t => execAll is t
    | .fault f => .fault f
    | .refused r => .refused r

/-! The sponge function (40_sponge.md R57). -/

/-- The `k`-th `r`-byte block of `M`. -/
def blockAt (r : Nat) (M : List Byte) (k : Nat) : List Byte := (M.drop (k * r)).take r

/-- The state after absorbing the whole `r`-byte blocks of `M` in order (40_sponge.md R54). -/
def absorbAll (P : Lanes → Lanes) (r : Nat) (A : Lanes) (M : List Byte) : Lanes :=
  (List.range (M.length / r)).foldl (fun A k => P (xorRun A 0 (blockAt r M k))) A

/-- `Mpad` (40_sponge.md R57). -/
def padMessage (r : Nat) (suffix : Byte) (M : List Byte) : List Byte :=
  if M.length % r = r - 1 then M ++ [suffix ||| 0x80]
  else M ++ [suffix] ++ List.replicate (r - M.length % r - 2) 0 ++ [0x80]

/-- The number of output blocks for `n` bytes: `ceil(n / r)`. -/
def outBlocks (r n : Nat) : Nat := (n + (r - 1)) / r

/-- The first `n` bytes of `sq(0) ++ sq(1) ++ ...`, where `sq(i)` is the rate block of the `i`-th image of `T`
(40_sponge.md R57). -/
def squeezed (P : Lanes → Lanes) (r : Nat) (T : Lanes) (n : Nat) : List Byte :=
  ((List.range (outBlocks r n)).flatMap (fun i => readRun (P^[i] T) 0 r)).take n

/-- `Z(M, n)` (40_sponge.md R57). -/
def spongeZ (P : Lanes → Lanes) (r : Nat) (suffix : Byte) (M : List Byte) (n : Nat) : List Byte :=
  squeezed P r (absorbAll P r Lanes.zero (padMessage r suffix M)) n

/-- The message bytes heard since the last successful `SPONGE_INIT`, after the command `i` (10_state.md R13(e)). -/
def heardAfter (i : Instr) (M : List Byte) : List Byte :=
  match i with
  | .spongeInit rateBits suffix => if spongeInitRejects rateBits suffix then M else []
  | .spongeUpdate data => M ++ data
  | .spongeFinish _ | .duplexInit _ | .duplexDuplex _ _ | .duplexFeed _ | .duplexFetch _ | .duplexForget
  | .duplexReseed => M

/-- The message bytes heard, after the first of the host's inputs. -/
def heardFrom (inbox : List HostInput) (M : List Byte) : List Byte :=
  match inbox with
  | .command m :: _ =>
    match decode m with
    | .ok i => heardAfter i M
    | .error _ => M
  | _ => M

/-- An absorbing sponge context holds the message `M` (10_state.md R13(d), (e)). -/
def HoldsMessage (M : List Byte) (x : SpongeCtx) : Prop :=
  x.phase = .absorbing →
    x.leftover = M.length % x.rate ∧
    readBuf x.buf x.leftover = M.drop (M.length / x.rate * x.rate) ∧
    x.A = absorbAll Config.block.perm x.rate Lanes.zero M

/-! The duplex, byte by byte. -/

/-- `X` is `A` with `ds` XORed into byte `at_` and the terminator into byte `r - 1` (41_duplex.md R60, 20_memory.md
R25(d)). -/
def IsPadded (ds : Byte) (r at_ : Nat) (A X : Lanes) : Prop :=
  ∀ j < 200, stateByte X j = stateByte A j ^^^ (if j = at_ then ds else 0) ^^^ (if j = r - 1 then 0x80 else 0)

/-- The context after `PadPermute` (41_duplex.md R60). -/
def padCtx (c : Config) (x : DuplexCtx) : DuplexCtx :=
  { x with A := c.perm (padXor c x.rate x.inputIndex x.A), inputIndex := 0, outputIndex := 0 }

/-- One byte fed: a full block is padded and permuted first (41_duplex.md R66, R67). -/
def feedByte (c : Config) (x : DuplexCtx) (b : Byte) : DuplexCtx :=
  let x := if x.inputIndex = x.rate - 1 then padCtx c x else x
  { x with A := xorByte x.A x.inputIndex b, inputIndex := x.inputIndex + 1 }

/-- One byte fetched: a used-up block is padded and permuted first (41_duplex.md R68, R69). -/
def fetchByte (c : Config) (x : DuplexCtx) : Byte × DuplexCtx :=
  let x := if x.outputIndex = x.rate then padCtx c x else x
  (stateByte x.A x.outputIndex, { x with outputIndex := x.outputIndex + 1 })

/-- `n` bytes fetched one by one. -/
def fetchBytes (c : Config) : Nat → DuplexCtx → List Byte × DuplexCtx
  | 0, x => ([], x)
  | n + 1, x =>
    let (b, x) := fetchByte c x
    let (bs, x) := fetchBytes c n x
    (b :: bs, x)

/-- The lanes after one reseed iteration that pads at offset `at_` and XORs in the seed `e` (41_duplex.md R72). -/
def reseedTurn (c : Config) (r : Nat) (at_ : Nat) (A : Lanes) (e : List Byte) : Lanes :=
  xorRun (c.perm (padXor c r at_ A)) 0 e

/-- The lanes after the iterations of `DUPLEX_RESEED` that use the seeds `es`: the first pads at `at_`, every later one
at `r - 1` (41_duplex.md R72). -/
def reseedTurns (c : Config) (r : Nat) : Nat → Lanes → List (List Byte) → Lanes
  | _, A, [] => A
  | at_, A, e :: es => reseedTurns c r (r - 1) (reseedTurn c r at_ A e) es

/-- ENT's answer to the `k`-th coming request (from 0) where each asks for `n` bytes: the one fixed in advance, or a free
one once those are used up (42_collaborators.md R86, R87). -/
def entAnswer (c : Config) (s : State) (n k : Nat) : Option (List Byte) :=
  match s.entScript[k]? with
  | some a => a.forRequest n
  | none => freeAnswer c (s.entDraws + (k - s.entScript.length)) n

/-- `k` reseed iterations in the trace: `PERM(D)`, `ENT(r-1)` alternating (41_duplex.md R72). -/
def reseedEvents (r k : Nat) : List Event := (List.replicate k [Event.perm .duplex, Event.ent (r - 1)]).flatten

/-- How many permutations a command makes that does not fail and is no reseed (40_sponge.md R59, 41_duplex.md
R77). -/
def permCount (i : Instr) (s : State) : Nat :=
  match i with
  | .spongeInit _ _ => 0
  | .spongeUpdate data => (s.sponge.leftover + data.length) / s.sponge.rate
  | .spongeFinish outlen => if outlen.toNat ≤ s.sponge.rate then 1 else outBlocks s.sponge.rate outlen.toNat
  | .duplexInit _ => 0
  | .duplexDuplex _ _ => 1
  | .duplexFeed data => if data.length = 0 then 0 else (s.duplex.inputIndex + data.length - 1) / (s.duplex.rate - 1)
  | .duplexFetch outlen => if outlen.toNat = 0 then 0 else (s.duplex.outputIndex + outlen.toNat - 1) / s.duplex.rate
  | .duplexForget => 2
  | .duplexReseed => 0

/-! Relations between two states. -/

/-- Two states that differ only in what the spec says no response depends on: the registers of an engine in UNINIT
(70_reset_and_hazards.md R120(c)), everything but the tag of a finished sponge (40_sponge.md R56), and stale buffer
bytes (10_state.md R20(a)). -/
def Agree (s t : State) : Prop :=
  s.sponge.phase = t.sponge.phase ∧
  (s.sponge.phase = .absorbing →
    s.sponge.A = t.sponge.A ∧ s.sponge.leftover = t.sponge.leftover ∧ s.sponge.rate = t.sponge.rate ∧
    s.sponge.suffix = t.sponge.suffix ∧ ∀ j < s.sponge.leftover, bufByte s.sponge.buf j = bufByte t.sponge.buf j) ∧
  s.duplex.phase = t.duplex.phase ∧
  (s.duplex.phase = .ready → s.duplex = t.duplex) ∧
  s.trace = t.trace ∧ s.responses = t.responses ∧ s.inbox = t.inbox ∧
  s.entScript = t.entScript ∧ s.entDraws = t.entDraws ∧ s.resetDraws = t.resetDraws

/-- Two commands that differ only in the values of their payload bytes. -/
def SameShape (i j : Instr) : Prop :=
  match i, j with
  | .spongeUpdate d, .spongeUpdate e => d.length = e.length
  | .duplexFeed d, .duplexFeed e => d.length = e.length
  | .duplexDuplex d m, .duplexDuplex e n => d.length = e.length ∧ m = n
  | .spongeInit a b, .spongeInit a' b' => a = a' ∧ b = b'
  | .spongeFinish m, .spongeFinish n => m = n
  | .duplexInit a, .duplexInit a' => a = a'
  | .duplexFetch m, .duplexFetch n => m = n
  | .duplexForget, .duplexForget => True
  | .duplexReseed, .duplexReseed => True
  | _, _ => False

/-- Two entropy answers that differ only in the values of their bytes. -/
def EntAnswer.SameShape (a b : EntAnswer) : Prop :=
  match a, b with
  | .fail, .fail => True
  | .ok x, .ok y => x.length = y.length
  | _, _ => False

/-- Two states with the same control state (10_state.md R18): phases, rates, suffix, indices, and the same successes
and failures of ENT to come; lanes, buffer bytes and entropy bytes may differ (70_reset_and_hazards.md R136). -/
def SameControl (s t : State) : Prop :=
  s.sponge.phase = t.sponge.phase ∧ s.sponge.leftover = t.sponge.leftover ∧ s.sponge.rate = t.sponge.rate ∧
  s.sponge.suffix = t.sponge.suffix ∧
  s.duplex.phase = t.duplex.phase ∧ s.duplex.rate = t.duplex.rate ∧ s.duplex.inputIndex = t.duplex.inputIndex ∧
  s.duplex.outputIndex = t.duplex.outputIndex ∧
  List.Forall₂ EntAnswer.SameShape s.entScript t.entScript ∧ s.entDraws = t.entDraws

end Sys2Proof.Machine
end

