-- ==== Sys2Proof/Certificates/Slice0/Obligations.lean ====
section
/-! DEFINITION. The statements for the provers. A status word stands as its number (spec 30_encoding.md R46): 0 `OK`,
1 `ERR_CONFIG`, 2 `ERR_ENTROPY`, 3 `ERR_MISUSE`, 4 `ERR_ILLEGAL`. `Config.block.perm` is `P`, `Config.block.dsDuplex`
is `DS_DUPLEX`; what is stated of them holds for every value the spec allows them. -/

open Sys2Proof Sys2Proof.Machine

/-! Encoding and decoding. -/

/-- One word of each command, from 95_test_vectors.md V-E1. -/
def Obligations.SampleWordsDecode : Prop :=
  decode ⟨0x1006044000000000, []⟩ = .ok (.spongeInit 1088 0x06) ∧
  decode ⟨0x1100000000000003, [0x61, 0x62, 0x63]⟩ = .ok (.spongeUpdate [0x61, 0x62, 0x63]) ∧
  decode ⟨0x1200000000000020, []⟩ = .ok (.spongeFinish 32) ∧
  decode ⟨0x2000060000000000, []⟩ = .ok (.duplexInit 1536) ∧
  decode ⟨0x2100000700000008, [1, 2, 3, 4, 5, 6, 7]⟩ = .ok (.duplexDuplex [1, 2, 3, 4, 5, 6, 7] 8) ∧
  decode ⟨0x2200000000000003, [0xa1, 0xa2, 0xa3]⟩ = .ok (.duplexFeed [0xa1, 0xa2, 0xa3]) ∧
  decode ⟨0x2300000000000011, []⟩ = .ok (.duplexFetch 17) ∧
  decode ⟨0x2400000000000000, []⟩ = .ok .duplexForget ∧
  decode ⟨0x2500000000000000, []⟩ = .ok .duplexReseed

/-- Decoding an encoded well-formed command gives it back, every operand at every value (30_encoding.md sections 1 to
5). -/
def Obligations.EncodedCommandDecodes : Prop :=
  ∀ i : Instr, i.wf = true → decode (encode i) = .ok i

/-- A message that decodes is the encoding of the well-formed command it decodes to: each message has one meaning
(30_encoding.md sections 2, 3 and 5). -/
def Obligations.DecodedMessageReencodes : Prop :=
  ∀ (m : Message) (i : Instr), decode m = .ok i → i.wf = true ∧ encode i = m

/-- The decoding algorithm (30_encoding.md R49): a header that selects a row decodes as that row's mnemonic, with its
operands the header's bits; a header that selects no row is illegal; at most one row is selected. -/
def Obligations.DecoderFollowsOpcodeMap : Prop :=
  (∀ (m : Message) (row : OpcodeRow), row ∈ opcodeMap → m.header &&& row.mask = row.mtch →
    decodeHeader m.header = some row.op ∧
    (∀ row' ∈ opcodeMap, m.header &&& row'.mask = row'.mtch → row' = row) ∧
    ∀ i, decode m = .ok i →
      match i with
      | .spongeInit rateBits suffix =>
        row.op = .spongeInit ∧ rateBits.toNat = m.header.toNat / 2 ^ 32 % 2 ^ 16 ∧ suffix.toNat = m.header.toNat / 2 ^ 48 % 2 ^ 8
      | .spongeUpdate data => row.op = .spongeUpdate ∧ data = m.payload
      | .spongeFinish outlen => row.op = .spongeFinish ∧ outlen.toNat = m.header.toNat % 2 ^ 32
      | .duplexInit rateBits => row.op = .duplexInit ∧ rateBits.toNat = m.header.toNat / 2 ^ 32 % 2 ^ 16
      | .duplexDuplex input outlen =>
        row.op = .duplexDuplex ∧ input = m.payload ∧ outlen.toNat = m.header.toNat % 2 ^ 32
      | .duplexFeed data => row.op = .duplexFeed ∧ data = m.payload
      | .duplexFetch outlen => row.op = .duplexFetch ∧ outlen.toNat = m.header.toNat % 2 ^ 32
      | .duplexForget => row.op = .duplexForget
      | .duplexReseed => row.op = .duplexReseed) ∧
  (∀ m : Message, (∀ row ∈ opcodeMap, m.header &&& row.mask ≠ row.mtch) →
    decodeHeader m.header = none ∧ decode m = .error .illegal)

/-- The cause and the effect of `ERR_ILLEGAL` (60_exceptions.md R104): a message whose header matches no row is
answered with it and changes nothing else, whatever its payload; no other message is answered with it. -/
def Obligations.IllegalHeaderAnswered : Prop :=
  ∀ (s : State) (m : Message) (rest : List HostInput), s.inbox = .command m :: rest →
    ((∀ row ∈ opcodeMap, m.header &&& row.mask ≠ row.mtch) →
      step s = .next { s with inbox := rest, responses := s.responses ++ [⟨4, []⟩] }) ∧
    (∀ t out, step s = .next t → t.responses = s.responses ++ [⟨4, out⟩] →
      ∀ row ∈ opcodeMap, m.header &&& row.mask ≠ row.mtch)

/-- A legal header whose payload is not of the announced length (bits 31:0 for SPONGE_UPDATE and DUPLEX_FEED, bits
47:32 for DUPLEX_DUPLEX, zero for the rest) is refused, and only such a message is (30_encoding.md section 5). -/
def Obligations.WrongPayloadLengthRefused : Prop :=
  ∀ (s : State) (m : Message) (rest : List HostInput), s.inbox = .command m :: rest →
    (step s = .refused .notACommandMessage ↔
      ∃ op, decodeHeader m.header = some op ∧
        m.payload.length ≠
          (match op with
          | .spongeUpdate | .duplexFeed => m.header.toNat % 2 ^ 32
          | .duplexDuplex => m.header.toNat / 2 ^ 32 % 2 ^ 16
          | .spongeInit | .spongeFinish | .duplexInit | .duplexFetch | .duplexForget | .duplexReseed => 0))

/-! The step. -/

/-- A step runs the decoded command: the message leaves the host's queue and exec does the rest. -/
def Obligations.StepRunsDecodedCommand : Prop :=
  ∀ (s : State) (m : Message) (rest : List HostInput) (i : Instr),
    s.inbox = .command m :: rest → decode m = .ok i → step s = exec i { s with inbox := rest }

/-- With no host input the block is idle and keeps all state (60_exceptions.md R112). -/
def Obligations.IdleKeepsState : Prop :=
  ∀ s : State, s.inbox = [] → step s = .next s

/-- Each step takes exactly the first host input: command messages in the order delivered (20_memory.md R31,
30_encoding.md R40). That the inputs stand in a queue is the model's choice (log 6), and so is that a reset keeps those
not yet taken (log 2). -/
def Obligations.StepTakesOneInput : Prop :=
  ∀ s t : State, step s = .next t → t.inbox = s.inbox.tail

/-- The reset input (70_reset_and_hazards.md R120): both phases UNINIT, the trace empty, no response pending; the other
registers take some value of their width. That the responses already produced leave the record, and that the
environment's fields stay, is the model's choice (log 2, log 7). -/
def Obligations.ResetInputUninitialises : Prop :=
  ∀ (s : State) (rest : List HostInput), s.inbox = .reset :: rest →
    ∃ t, step s = .next t ∧ t.sponge.phase = .uninit ∧ t.duplex.phase = .uninit ∧ t.trace = [] ∧ t.responses = [] ∧
      t.sponge.leftover < 256 ∧ t.sponge.rate < 256 ∧ t.duplex.rate < 256 ∧ t.duplex.inputIndex < 256 ∧
      t.duplex.outputIndex < 256 ∧ t.inbox = rest ∧ t.entScript = s.entScript ∧ t.entDraws = s.entDraws

/-- Reset during a command (70_reset_and_hazards.md R120(a)): the command is abandoned. Whatever it was, after whatever
number of requests, the step completes with both phases UNINIT, no response to it and no request recorded; at most that
many of ENT's answers are used up, and none where the command is no reseed. Three clauses are the model's choice: that
the record of the responses already produced is emptied too (log 7), that a dropped answer is used up, and that the
host's later inputs stay (log 2). -/
def Obligations.ResetAbandonsCommand : Prop :=
  ∀ (s : State) (m : Message) (requests : Nat) (rest : List HostInput) (i : Instr), s.Inv →
    s.inbox = .resetDuring m requests :: rest → decode m = .ok i →
    ∃ (t : State) (n : Nat), step s = .next t ∧ t.sponge.phase = .uninit ∧ t.duplex.phase = .uninit ∧ t.trace = [] ∧
      t.responses = [] ∧ t.Inv ∧ t.inbox = rest ∧ n ≤ requests ∧ (i ≠ .duplexReseed → n = 0) ∧
      t.entScript = (s.afterRequests n).entScript ∧ t.entDraws = (s.afterRequests n).entDraws

/-- Reset during a reseed (70_reset_and_hazards.md R120(a), 41_duplex.md R72): of its requests, which alternate between
PERM and ENT, no more are made than the reset lets through, and the answers to those are used up, the last one although
it is dropped (log 2). Where `seeds` are the answers given before the first failure, the reseed alone would have asked
ENT `200 div r` times, or up to that failure. On an uninitialised context nothing was asked. -/
def Obligations.ResetCutsReseed : Prop :=
  ∀ (s : State) (m : Message) (requests : Nat) (rest : List HostInput), s.Inv →
    s.inbox = .resetDuring m requests :: rest → decode m = .ok .duplexReseed →
    (s.duplex.phase ≠ .ready →
      ∃ t, step s = .next t ∧ t.trace = [] ∧ t.entScript = s.entScript ∧ t.entDraws = s.entDraws) ∧
    (∀ seeds : List (List Byte), s.duplex.phase = .ready →
      (∀ k < seeds.length, entAnswer Config.block s (s.duplex.rate - 1) k = some (seeds.getD k [])) →
      (seeds.length = 200 / s.duplex.rate →
        ∃ t, step s = .next t ∧ t.trace = [] ∧
          t.entScript = (s.afterRequests (min (requests / 2) seeds.length)).entScript ∧
          t.entDraws = (s.afterRequests (min (requests / 2) seeds.length)).entDraws) ∧
      (seeds.length < 200 / s.duplex.rate → entAnswer Config.block s (s.duplex.rate - 1) seeds.length = none →
        ∃ t, step s = .next t ∧ t.trace = [] ∧
          t.entScript = (s.afterRequests (min (requests / 2) (seeds.length + 1))).entScript ∧
          t.entDraws = (s.afterRequests (min (requests / 2) (seeds.length + 1))).entDraws))

/-- Reset during a message that carries no whole command. Where the header is illegal or the payload is still short of
the announced length, it is as a reset without that message: the model's reading of 70_reset_and_hazards.md R120(d) (log
2, DEDUCED). Where the payload is longer than announced, the step is refused: the model's choice (log 8), since
30_encoding.md R45 says so of such a message but not of one that reset cuts. -/
def Obligations.ResetDropsPartialMessage : Prop :=
  ∀ (s : State) (m : Message) (requests : Nat) (rest : List HostInput),
    s.inbox = .resetDuring m requests :: rest →
    (decodeHeader m.header = none → step s = step { s with inbox := .reset :: rest }) ∧
    ∀ op, decodeHeader m.header = some op →
      (m.payload.length < payloadLength op m.header → step s = step { s with inbox := .reset :: rest }) ∧
      (m.payload.length > payloadLength op m.header → step s = .refused .notACommandMessage)

/-- The machine right after reset (10_state.md R17, 70_reset_and_hazards.md R120): the tags, the trace and the absence
of a pending response; the values of the other registers are the model's (log 1) and nothing is stated of them. -/
def Obligations.ResetStateTags : Prop :=
  State.reset.sponge.phase = .uninit ∧ State.reset.duplex.phase = .uninit ∧ State.reset.trace = [] ∧
    State.reset.responses = []

/-! Invariants. -/

/-- The invariant holds at reset. -/
def Obligations.ResetMeetsInvariant : Prop := State.reset.Inv

/-- Every step keeps the invariant: R13(a) to (c) of the sponge, R16(a) to (d) of the duplex, the widths of the
registers, the form of every response and of every entropy request (10_state.md R13, R16; 30_encoding.md R46). -/
def Obligations.StepKeepsInvariant : Prop :=
  ∀ s t : State, s.Inv → step s = .next t → t.Inv

/-- No failure is fatal (60_exceptions.md R108): in every state that meets the invariant every command, well-formed or
not, completes with exactly one response (30_encoding.md R40) and leaves the invariant in place. It rests on the
assumption that PERM and ENT always answer (42_collaborators.md R85, log 10). -/
def Obligations.EveryCommandCompletes : Prop :=
  ∀ (i : Instr) (s : State), s.Inv → ∃ t r, exec i s = .next t ∧ t.responses = s.responses ++ [r] ∧ t.Inv

/-! Responses and failures. -/

/-- The response format (30_encoding.md R46): one response; its word is a code 0 to 4; with `OK` exactly `outlen`
output bytes, otherwise none. The illegal header's response has no output either. -/
def Obligations.ResponseFormat : Prop :=
  (∀ (i : Instr) (s t : State), exec i s = .next t →
    ∃ r, t.responses = s.responses ++ [r] ∧ r.word.toNat ≤ 4 ∧ (r.word = 0 → r.out.length = i.outlen) ∧
      (r.word ≠ 0 → r.out = [])) ∧
  (∀ s t : State, answerIllegal s = .next t → t.responses = s.responses ++ [⟨4, []⟩])

/-- Which command may answer with which code (60_exceptions.md R100, column raised by), and that a failure has no
output; the decoder alone answers `ERR_ILLEGAL`. -/
def Obligations.StatusCodesByCommand : Prop :=
  (∀ (i : Instr) (s t : State) (r : Response), exec i s = .next t → t.responses = s.responses ++ [r] →
    (r.word = 1 → (∃ a b, i = .spongeInit a b) ∨ (∃ a, i = .duplexInit a) ∨ (∃ d n, i = .duplexDuplex d n)) ∧
    (r.word = 2 → i = .duplexReseed) ∧
    (r.word = 3 → isInitCommand i = false) ∧
    (r.word = 0 ∨ r.word = 1 ∨ r.word = 2 ∨ r.word = 3) ∧
    (r.word ≠ 0 → r.out = [])) ∧
  (∀ s : State, answerIllegal s = .next { s with responses := s.responses ++ [⟨4, []⟩] })

/-- Every cause of `ERR_MISUSE` (60_exceptions.md R103), and that nothing but the response changes; zero-length
commands are checked like the others. -/
def Obligations.MisuseCauses : Prop :=
  ∀ (i : Instr) (s : State), s.Inv →
    (Misuse i s → exec i s = .next { s with responses := s.responses ++ [⟨3, []⟩] }) ∧
    (∀ t out, exec i s = .next t → t.responses = s.responses ++ [⟨3, out⟩] → Misuse i s)

/-- Every cause of `ERR_CONFIG` (60_exceptions.md R101), after the misuse checks have passed (R106), and that nothing
but the response changes. -/
def Obligations.ConfigErrorCauses : Prop :=
  ∀ (i : Instr) (s : State), s.Inv →
    (¬Misuse i s → ConfigBad i s → exec i s = .next { s with responses := s.responses ++ [⟨1, []⟩] }) ∧
    (∀ t out, exec i s = .next t → t.responses = s.responses ++ [⟨1, out⟩] → ¬Misuse i s ∧ ConfigBad i s)

/-! The byte view. -/

/-- The byte view of the lanes and its converse (20_memory.md R21): byte `j` is bits `8 (j mod 8)` and up of lane
`j div 8`, and a lane is the little-endian sum of its eight bytes. -/
def Obligations.LanesAreLittleEndianBytes : Prop :=
  (∀ (A : Lanes) (j : Nat), (stateByte A j).toNat = (laneAt A (j / 8)).toNat / 2 ^ (8 * (j % 8)) % 256) ∧
  (∀ (A : Lanes) (i : Nat), i < 25 →
    (laneAt A i).toNat = ((List.range 8).map (fun k => (stateByte A (8 * i + k)).toNat * 2 ^ (8 * k))).sum)

/-- `AbsorbBlock` lane by lane (40_sponge.md R54): each of the first `rate / 8` lanes is XORed with eight block bytes
assembled little-endian, the other lanes are not, and the state is permuted; one `PERM(S)`, nothing else changes. -/
def Obligations.AbsorbBlockXorsWholeLanes : Prop :=
  ∀ (s : State) (B : List Byte), s.Inv → s.sponge.phase ≠ .uninit → B.length = s.sponge.rate →
    ∃ X : Lanes,
      (∀ i < 25, laneAt X i =
        if i < s.sponge.rate / 8 then
          laneAt s.sponge.A i ^^^
            (List.range 8).foldl (fun acc k => acc ||| ((B.getD (8 * i + k) 0).setWidth 64 <<< (8 * k))) 0
        else laneAt s.sponge.A i) ∧
      absorbBlock Config.block B s =
        { s with sponge := { s.sponge with A := Config.block.perm X }, trace := s.trace ++ [.perm .sponge] }

/-! The collaborators. -/

/-- The contract of `Permute` (42_collaborators.md R80): the 25 lanes of the named context are replaced by the image
under one bijection, the same for both contexts, nothing else of the block changes, and one event is traced. -/
def Obligations.PermuteContract : Prop :=
  Function.Bijective Config.block.perm ∧
  ∀ s : State,
    permuteSponge Config.block s =
      { s with sponge := { s.sponge with A := Config.block.perm s.sponge.A }, trace := s.trace ++ [.perm .sponge] } ∧
    permuteDuplex Config.block s =
      { s with duplex := { s.duplex with A := Config.block.perm s.duplex.A }, trace := s.trace ++ [.perm .duplex] }

/-- `EntFill(n)` (42_collaborators.md R86): exactly `n` bytes or failure, one `ENT(n)` event, and no register of either
context touched. -/
def Obligations.EntFillAnswersExactly : Prop :=
  ∀ (s : State) (n : Nat),
    (∀ bytes, (entFill Config.block n s).1 = some bytes → bytes.length = n) ∧
    (entFill Config.block n s).2.trace = s.trace ++ [.ent n] ∧
    (entFill Config.block n s).2.sponge = s.sponge ∧ (entFill Config.block n s).2.duplex = s.duplex ∧
    (entFill Config.block n s).2.responses = s.responses

/-- The toy permutations (42_collaborators.md R84): `P_id` keeps every byte; `P_rot1` gives byte `j` the right
neighbour's value plus one; both are bijections. -/
def Obligations.ToyPermutations : Prop :=
  (∀ A : Lanes, permId A = A) ∧
  (∀ (A : Lanes) (j : Nat), j < 200 → stateByte (permRot1 A) j = stateByte A ((j + 1) % 200) + 1) ∧
  Function.Bijective permRot1

/-- The collaborator requests of every command (40_sponge.md R59, 41_duplex.md R77): a failed command other than
reseed makes none; a reseed makes `PERM(D)`, `ENT(r-1)` alternating, `200 div r` times on success and at least once and
at most that often on `ERR_ENTROPY`; any other makes the permutations of its row, on its own context. -/
def Obligations.CollaboratorRequests : Prop :=
  ∀ (i : Instr) (s t : State) (r : Response), s.Inv → exec i s = .next t → t.responses = s.responses ++ [r] →
    (r.word = 1 ∨ r.word = 3 → t.trace = s.trace) ∧
    (r.word = 2 → ∃ k, 1 ≤ k ∧ k ≤ 200 / s.duplex.rate ∧ t.trace = s.trace ++ reseedEvents s.duplex.rate k) ∧
    (r.word = 0 →
      t.trace = s.trace ++
        if i = .duplexReseed then reseedEvents s.duplex.rate (200 / s.duplex.rate)
        else List.replicate (permCount i s) (.perm (if isSpongeCommand i then .sponge else .duplex)))

/-! The Sponge Engine. -/

/-- `SPONGE_INIT` (40_sponge.md R52): its encoding, its failure, and the state it leaves. -/
def Obligations.SpongeInitResult : Prop :=
  ∀ (s : State) (rateBits : BitVec 16) (suffix : Byte),
    encode (.spongeInit rateBits suffix) = ⟨(0x10 : BitVec 8) ++ suffix ++ rateBits ++ (0 : BitVec 32), []⟩ ∧
    (ConfigBad (.spongeInit rateBits suffix) s →
      exec (.spongeInit rateBits suffix) s = .next { s with responses := s.responses ++ [⟨1, []⟩] }) ∧
    (¬ConfigBad (.spongeInit rateBits suffix) s →
      ∃ x : SpongeCtx,
        exec (.spongeInit rateBits suffix) s = .next { s with sponge := x, responses := s.responses ++ [⟨0, []⟩] } ∧
        (∀ i < 25, laneAt x.A i = 0) ∧ (∀ j < 200, bufByte x.buf j = 0) ∧ x.leftover = 0 ∧
        x.rate = rateBits.toNat / 8 ∧ x.suffix = suffix ∧ x.phase = .absorbing)

/-- `SPONGE_UPDATE` (40_sponge.md R53): its encoding; and on an absorbing context, with `M` the leftover bytes followed by the payload,
the whole rate blocks of `M` are absorbed, the rest is the new leftover, the buffer's other bytes are the top-up or
stale, and nothing else changes. In every other phase it fails with `ERR_MISUSE`. -/
def Obligations.SpongeUpdateResult : Prop :=
  (∀ data : List Byte,
    encode (.spongeUpdate data) = ⟨(0x11000000 : BitVec 32) ++ BitVec.ofNat 32 data.length, data⟩) ∧
  (∀ (s : State) (data : List Byte), s.Inv → s.sponge.phase = .absorbing →
    ∃ (A : Lanes) (buf : Buffer),
      exec (.spongeUpdate data) s =
        .next { s with
          sponge := { s.sponge with A := A, buf := buf, leftover := (s.sponge.leftover + data.length) % s.sponge.rate }
          trace := s.trace ++ List.replicate ((s.sponge.leftover + data.length) / s.sponge.rate) (.perm .sponge)
          responses := s.responses ++ [⟨0, []⟩] } ∧
      A = absorbAll Config.block.perm s.sponge.rate s.sponge.A (readBuf s.sponge.buf s.sponge.leftover ++ data) ∧
      ∀ j < 200, bufByte buf j =
        if j < (s.sponge.leftover + data.length) % s.sponge.rate then
          (readBuf s.sponge.buf s.sponge.leftover ++ data).getD
            ((s.sponge.leftover + data.length) / s.sponge.rate * s.sponge.rate + j) 0
        else if 0 < s.sponge.leftover ∧ s.sponge.leftover ≤ j ∧ j < s.sponge.rate ∧ j < s.sponge.leftover + data.length then
          data.getD (j - s.sponge.leftover) 0
        else bufByte s.sponge.buf j) ∧
  (∀ (s : State) (data : List Byte), s.sponge.phase ≠ .absorbing →
    exec (.spongeUpdate data) s = .next { s with responses := s.responses ++ [⟨3, []⟩] })

/-- `SPONGE_FINISH` (40_sponge.md R55, R56): its encoding; and on an absorbing context, the padded last block is built in the buffer and
absorbed, the output is the first `outlen` bytes of the squeezed blocks, the state is permuted only between them, and
the context is FINISHED with leftover, rate and suffix unchanged. In every other phase it fails with `ERR_MISUSE`. -/
def Obligations.SpongeFinishResult : Prop :=
  (∀ outlen : BitVec 32, encode (.spongeFinish outlen) = ⟨(0x12000000 : BitVec 32) ++ outlen, []⟩) ∧
  (∀ (s : State) (outlen : BitVec 32), s.Inv → s.sponge.phase = .absorbing →
    ∃ (B : List Byte) (T : Lanes) (buf : Buffer),
      B = padMessage s.sponge.rate s.sponge.suffix (readBuf s.sponge.buf s.sponge.leftover) ∧
      B.length = s.sponge.rate ∧
      T = Config.block.perm (xorRun s.sponge.A 0 B) ∧
      (∀ j < 200, bufByte buf j = if j < s.sponge.rate then B.getD j 0 else bufByte s.sponge.buf j) ∧
      exec (.spongeFinish outlen) s =
        .next { s with
          sponge :=
            { s.sponge with
              A := Config.block.perm^[outBlocks s.sponge.rate outlen.toNat - 1] T, buf := buf, phase := .finished }
          trace := s.trace ++ List.replicate (max 1 (outBlocks s.sponge.rate outlen.toNat)) (.perm .sponge)
          responses := s.responses ++ [⟨0, squeezed Config.block.perm s.sponge.rate T outlen.toNat⟩] }) ∧
  (∀ (s : State) (outlen : BitVec 32), s.sponge.phase ≠ .absorbing →
    exec (.spongeFinish outlen) s = .next { s with responses := s.responses ++ [⟨3, []⟩] })

/-- Streaming equivalence (40_sponge.md R57): after a successful `SPONGE_INIT`, however the message is split into
`SPONGE_UPDATE` payloads, the context before `SPONGE_FINISH` and its output depend on the concatenation alone, the
output is `Z(M, outlen)`, and the trace is the same. -/
def Obligations.StreamingEquivalence : Prop :=
  ∀ (s : State) (rateBits : BitVec 16) (suffix : Byte) (chunks : List (List Byte)) (outlen : BitVec 32),
    ¬ConfigBad (.spongeInit rateBits suffix) s →
    (padMessage (rateBits.toNat / 8) suffix chunks.flatten).length =
      (chunks.flatten.length / (rateBits.toNat / 8) + 1) * (rateBits.toNat / 8) ∧
    ∃ t u : State,
      execAll (.spongeInit rateBits suffix :: chunks.map .spongeUpdate) s = .next t ∧
      t.sponge.leftover = chunks.flatten.length % (rateBits.toNat / 8) ∧
      readBuf t.sponge.buf t.sponge.leftover =
        chunks.flatten.drop (chunks.flatten.length / (rateBits.toNat / 8) * (rateBits.toNat / 8)) ∧
      t.sponge.A = absorbAll Config.block.perm (rateBits.toNat / 8) Lanes.zero chunks.flatten ∧
      t.trace = s.trace ++ List.replicate (chunks.flatten.length / (rateBits.toNat / 8)) (.perm .sponge) ∧
      exec (.spongeFinish outlen) t = .next u ∧
      u.responses = t.responses ++
        [⟨0, spongeZ Config.block.perm (rateBits.toNat / 8) suffix chunks.flatten outlen.toNat⟩]

/-- The message invariant of the sponge (10_state.md R13(d), (e)), kept by every step: if an absorbing context holds the
message `M` heard since the last successful `SPONGE_INIT`, then after the step it holds `M` with the payload of a
`SPONGE_UPDATE` appended, the empty message after a successful `SPONGE_INIT`, and `M` otherwise. -/
def Obligations.StepKeepsHeldMessage : Prop :=
  ∀ (s t : State) (M : List Byte), s.Inv → HoldsMessage M s.sponge → step s = .next t →
    HoldsMessage (heardFrom s.inbox M) t.sponge

/-- The XOF prefix property (40_sponge.md R58): from one context, the shorter output is a prefix of the longer. -/
def Obligations.XofPrefix : Prop :=
  ∀ (s : State) (m n : BitVec 32), s.Inv → s.sponge.phase = .absorbing → m.toNat < n.toNat →
    ∃ (t u : State) (x y : List Byte),
      exec (.spongeFinish m) s = .next t ∧ t.responses = s.responses ++ [⟨0, x⟩] ∧
      exec (.spongeFinish n) s = .next u ∧ u.responses = s.responses ++ [⟨0, y⟩] ∧
      x.length = m.toNat ∧ y.length = n.toNat ∧ x = y.take m.toNat

/-! The Duplex Engine. -/

/-- `PadPermute` (41_duplex.md R60): the domain-separation byte, whose bit 7 is clear, at the input index, the
terminator at the last byte of the rate block, one permutation, both indices 0. -/
def Obligations.PadPermuteResult : Prop :=
  Config.block.dsDuplex &&& 0x80 = 0 ∧
  ∀ s : State, s.Inv → s.duplex.phase = .ready →
    ∃ X : Lanes,
      IsPadded Config.block.dsDuplex s.duplex.rate s.duplex.inputIndex s.duplex.A X ∧
      padPermute Config.block s =
        { s with
          duplex := { s.duplex with A := Config.block.perm X, inputIndex := 0, outputIndex := 0 }
          trace := s.trace ++ [.perm .duplex] }

/-- `DUPLEX_INIT` (41_duplex.md R62): its encoding, its failure, and the state it leaves. -/
def Obligations.DuplexInitResult : Prop :=
  ∀ (s : State) (rateBits : BitVec 16),
    encode (.duplexInit rateBits) = ⟨(0x2000 : BitVec 16) ++ rateBits ++ (0 : BitVec 32), []⟩ ∧
    (ConfigBad (.duplexInit rateBits) s →
      exec (.duplexInit rateBits) s = .next { s with responses := s.responses ++ [⟨1, []⟩] }) ∧
    (¬ConfigBad (.duplexInit rateBits) s →
      ∃ x : DuplexCtx,
        exec (.duplexInit rateBits) s = .next { s with duplex := x, responses := s.responses ++ [⟨0, []⟩] } ∧
        (∀ i < 25, laneAt x.A i = 0) ∧ x.rate = rateBits.toNat / 8 ∧ x.inputIndex = 0 ∧ x.outputIndex = x.rate ∧
        x.phase = .ready)

/-- `DUPLEX_DUPLEX`: its encoding; on legal lengths with no fed bytes pending (41_duplex.md R64): input at offset 0, the padding
after it, one permutation, the first `outlen` bytes of the new state; and its three failures, which change nothing. -/
def Obligations.DuplexDuplexResult : Prop :=
  (∀ (input : List Byte) (outlen : BitVec 32),
    encode (.duplexDuplex input outlen) =
      ⟨(0x2100 : BitVec 16) ++ BitVec.ofNat 16 input.length ++ outlen, input⟩) ∧
  ∀ (s : State) (input : List Byte) (outlen : BitVec 32), s.Inv →
    (s.duplex.phase ≠ .ready ∨ s.duplex.inputIndex ≠ 0 →
      exec (.duplexDuplex input outlen) s = .next { s with responses := s.responses ++ [⟨3, []⟩] }) ∧
    (s.duplex.phase = .ready → s.duplex.inputIndex = 0 →
      input.length > s.duplex.rate - 1 ∨ outlen.toNat > s.duplex.rate →
      exec (.duplexDuplex input outlen) s = .next { s with responses := s.responses ++ [⟨1, []⟩] }) ∧
    (s.duplex.phase = .ready → s.duplex.inputIndex = 0 → input.length ≤ s.duplex.rate - 1 →
      outlen.toNat ≤ s.duplex.rate →
      ∃ X : Lanes,
        (∀ j < 200, stateByte X j =
          stateByte s.duplex.A j ^^^ (if j < input.length then input.getD j 0 else 0) ^^^
            (if j = input.length then Config.block.dsDuplex else 0) ^^^
            (if j = s.duplex.rate - 1 then 0x80 else 0)) ∧
        exec (.duplexDuplex input outlen) s =
          .next { s with
            duplex := { s.duplex with A := Config.block.perm X, inputIndex := 0, outputIndex := outlen.toNat }
            trace := s.trace ++ [.perm .duplex]
            responses := s.responses ++ [⟨0, (List.range outlen.toNat).map (stateByte (Config.block.perm X))⟩] })

/-- One-shot and chunked forms agree (41_duplex.md R65) where input and output are not empty; a feed of nothing and a
fetch of nothing change nothing, so they do not permute, while a one-shot turn always does. -/
def Obligations.OneShotAgreesWithChunked : Prop :=
  (∀ (s : State) (x : List Byte) (outlen : BitVec 32), s.Inv → s.duplex.phase = .ready → s.duplex.inputIndex = 0 →
    1 ≤ x.length → x.length ≤ s.duplex.rate - 1 → 1 ≤ outlen.toNat → outlen.toNat ≤ s.duplex.rate →
    ∃ (t u v : State) (out : List Byte),
      exec (.duplexDuplex x outlen) s = .next t ∧
      exec (.duplexFeed x) s = .next u ∧ exec (.duplexFetch outlen) u = .next v ∧
      t.responses = s.responses ++ [⟨0, out⟩] ∧ v.responses = s.responses ++ [⟨0, []⟩, ⟨0, out⟩] ∧
      t.duplex.A = v.duplex.A ∧ t.duplex.inputIndex = 0 ∧ v.duplex.inputIndex = 0 ∧
      t.duplex.outputIndex = outlen.toNat ∧ v.duplex.outputIndex = outlen.toNat ∧
      t.trace = s.trace ++ [.perm .duplex] ∧ v.trace = s.trace ++ [.perm .duplex]) ∧
  (∀ s : State, s.Inv → s.duplex.phase = .ready →
    exec (.duplexFeed []) s = .next { s with responses := s.responses ++ [⟨0, []⟩] } ∧
    exec (.duplexFetch 0) s = .next { s with responses := s.responses ++ [⟨0, []⟩] } ∧
    (s.duplex.inputIndex = 0 → ∀ x : List Byte, x.length ≤ s.duplex.rate - 1 →
      ∃ t : State, exec (.duplexDuplex x 0) s = .next t ∧ t.trace = s.trace ++ [.perm .duplex]))

/-- `DUPLEX_FEED`, its encoding and its closed form (41_duplex.md section 4): the context is that of feeding the bytes one by one, where a
byte that meets a full block has it padded and permuted first; the indices and the number of permutations have closed
forms; empty input changes nothing; nothing else changes. In phase UNINIT it fails with `ERR_MISUSE`. -/
def Obligations.DuplexFeedResult : Prop :=
  (∀ data : List Byte,
    encode (.duplexFeed data) = ⟨(0x22000000 : BitVec 32) ++ BitVec.ofNat 32 data.length, data⟩) ∧
  (∀ (s : State) (data : List Byte), s.Inv → s.duplex.phase = .ready → 1 ≤ data.length →
    ∃ x : DuplexCtx,
      x = { data.foldl (feedByte Config.block) s.duplex with outputIndex := s.duplex.rate } ∧
      x.inputIndex = (s.duplex.inputIndex + data.length - 1) % (s.duplex.rate - 1) + 1 ∧
      x.rate = s.duplex.rate ∧ x.phase = .ready ∧
      exec (.duplexFeed data) s =
        .next { s with
          duplex := x
          trace := s.trace ++
            List.replicate ((s.duplex.inputIndex + data.length - 1) / (s.duplex.rate - 1)) (.perm .duplex)
          responses := s.responses ++ [⟨0, []⟩] }) ∧
  (∀ s : State, s.Inv → s.duplex.phase = .ready →
    exec (.duplexFeed []) s = .next { s with responses := s.responses ++ [⟨0, []⟩] }) ∧
  (∀ (s : State) (data : List Byte), s.duplex.phase ≠ .ready →
    exec (.duplexFeed data) s = .next { s with responses := s.responses ++ [⟨3, []⟩] })

/-- Feeding is composable (41_duplex.md section 4): two feeds leave the context and the trace of one feed of the
concatenation, empty payloads included. -/
def Obligations.FeedComposes : Prop :=
  ∀ (s : State) (a b : List Byte), s.Inv → s.duplex.phase = .ready →
    ∃ t u v : State,
      exec (.duplexFeed a) s = .next t ∧ exec (.duplexFeed b) t = .next u ∧ exec (.duplexFeed (a ++ b)) s = .next v ∧
      u.duplex = v.duplex ∧ u.trace = v.trace

/-- `DUPLEX_FETCH`, its encoding and its closed form (41_duplex.md section 5): output and context are those of fetching the bytes one by
one, where a byte wanted of a used-up block has it padded and permuted first; the indices and the number of
permutations have closed forms; a fetch of nothing changes nothing; nothing else changes. In phase UNINIT it fails
with `ERR_MISUSE`. -/
def Obligations.DuplexFetchResult : Prop :=
  (∀ outlen : BitVec 32, encode (.duplexFetch outlen) = ⟨(0x23000000 : BitVec 32) ++ outlen, []⟩) ∧
  (∀ (s : State) (outlen : BitVec 32), s.Inv → s.duplex.phase = .ready → 1 ≤ outlen.toNat →
    ∃ (out : List Byte) (x : DuplexCtx),
      (out, x) = fetchBytes Config.block outlen.toNat s.duplex ∧
      out.length = outlen.toNat ∧
      x.outputIndex = (s.duplex.outputIndex + outlen.toNat - 1) % s.duplex.rate + 1 ∧
      x.inputIndex = (if (s.duplex.outputIndex + outlen.toNat - 1) / s.duplex.rate = 0 then s.duplex.inputIndex else 0) ∧
      x.rate = s.duplex.rate ∧ x.phase = .ready ∧
      exec (.duplexFetch outlen) s =
        .next { s with
          duplex := x
          trace := s.trace ++
            List.replicate ((s.duplex.outputIndex + outlen.toNat - 1) / s.duplex.rate) (.perm .duplex)
          responses := s.responses ++ [⟨0, out⟩] }) ∧
  (∀ s : State, s.Inv → s.duplex.phase = .ready →
    exec (.duplexFetch 0) s = .next { s with responses := s.responses ++ [⟨0, []⟩] }) ∧
  (∀ (s : State) (outlen : BitVec 32), s.duplex.phase ≠ .ready →
    exec (.duplexFetch outlen) s = .next { s with responses := s.responses ++ [⟨3, []⟩] })

/-- Fetching is composable (41_duplex.md section 5). -/
def Obligations.FetchComposes : Prop :=
  ∀ (s : State) (a b n : BitVec 32), s.Inv → s.duplex.phase = .ready → a.toNat + b.toNat = n.toNat →
    ∃ (t u v : State) (x y : List Byte),
      exec (.duplexFetch a) s = .next t ∧ exec (.duplexFetch b) t = .next u ∧ exec (.duplexFetch n) s = .next v ∧
      u.responses = s.responses ++ [⟨0, x⟩, ⟨0, y⟩] ∧ v.responses = s.responses ++ [⟨0, x ++ y⟩] ∧
      u.duplex = v.duplex ∧ u.trace = v.trace

/-- `DUPLEX_FORGET` (41_duplex.md R70): its encoding; pad and permute, overwrite bytes `0 .. r-2` with zero, XOR `DS ^ 0x80` into byte
`r-1`, permute; capacity bytes are those of the first permutation; two `PERM(D)`. In phase UNINIT it fails with
`ERR_MISUSE`. -/
def Obligations.DuplexForgetResult : Prop :=
  encode .duplexForget = ⟨0x2400000000000000, []⟩ ∧
  (∀ s : State, s.Inv → s.duplex.phase = .ready →
    ∃ X W : Lanes,
      IsPadded Config.block.dsDuplex s.duplex.rate s.duplex.inputIndex s.duplex.A X ∧
      (∀ j < 200, stateByte W j =
        if j < s.duplex.rate - 1 then 0
        else if j = s.duplex.rate - 1 then stateByte (Config.block.perm X) j ^^^ Config.block.dsDuplex ^^^ 0x80
        else stateByte (Config.block.perm X) j) ∧
      exec .duplexForget s =
        .next { s with
          duplex := { s.duplex with A := Config.block.perm W, inputIndex := 0, outputIndex := s.duplex.rate }
          trace := s.trace ++ [.perm .duplex, .perm .duplex]
          responses := s.responses ++ [⟨0, []⟩] }) ∧
  (∀ s : State, s.duplex.phase ≠ .ready →
    exec .duplexForget s = .next { s with responses := s.responses ++ [⟨3, []⟩] })

/-- What `DUPLEX_FORGET` wipes cannot be seen afterwards (41_duplex.md R71): the context after it is a function of the
bytes of the first permutation's output at offsets `r-1` and up, whatever the indices and the lanes were before. -/
def Obligations.ForgetErasesRateBlock : Prop :=
  ∀ (s t : State) (X Y : Lanes), s.Inv → t.Inv → s.duplex.phase = .ready → t.duplex.phase = .ready →
    s.duplex.rate = t.duplex.rate →
    IsPadded Config.block.dsDuplex s.duplex.rate s.duplex.inputIndex s.duplex.A X →
    IsPadded Config.block.dsDuplex t.duplex.rate t.duplex.inputIndex t.duplex.A Y →
    (∀ j < 200, s.duplex.rate - 1 ≤ j → stateByte (Config.block.perm X) j = stateByte (Config.block.perm Y) j) →
    ∃ s' t' : State, exec .duplexForget s = .next s' ∧ exec .duplexForget t = .next t' ∧ s'.duplex = t'.duplex

/-- `DUPLEX_RESEED`: its encoding; when ENT meets every request (41_duplex.md R72): `200 div r` turns of pad, permute and seed; the
indices rest at `r-1` and `r`; the trace alternates `PERM(D)`, `ENT(r-1)`. In phase UNINIT it fails with `ERR_MISUSE`
and asks ENT nothing. -/
def Obligations.DuplexReseedSucceeds : Prop :=
  encode .duplexReseed = ⟨0x2500000000000000, []⟩ ∧
  (∀ (s : State) (seeds : List (List Byte)), s.Inv → s.duplex.phase = .ready →
    seeds.length = 200 / s.duplex.rate →
    (∀ k < seeds.length, entAnswer Config.block s (s.duplex.rate - 1) k = some (seeds.getD k [])) →
    exec .duplexReseed s =
      .next { s.afterRequests (200 / s.duplex.rate) with
        duplex :=
          { s.duplex with
            A := reseedTurns Config.block s.duplex.rate s.duplex.inputIndex s.duplex.A seeds
            inputIndex := s.duplex.rate - 1
            outputIndex := s.duplex.rate }
        trace := s.trace ++ reseedEvents s.duplex.rate (200 / s.duplex.rate)
        responses := s.responses ++ [⟨0, []⟩] }) ∧
  (∀ s : State, s.duplex.phase ≠ .ready →
    exec .duplexReseed s = .next { s with responses := s.responses ++ [⟨3, []⟩] })

/-- `DUPLEX_RESEED` when the `k`-th request to ENT fails, `k` being one more than the number of `seeds` it gave
(41_duplex.md R74): `ERR_ENTROPY`; the lanes are those right after the `k`-th pad and permute, with `k-1` seeds mixed in
and no byte of the failed request; both indices 0; `k` `PERM(D)` and `k` `ENT(r-1)` events; rate and phase unchanged;
the context keeps its invariant, so every later command is defined on it; a fetch that follows reads the permuted block
without a further permutation. -/
def Obligations.DuplexReseedFails : Prop :=
  ∀ (s : State) (seeds : List (List Byte)), s.Inv → s.duplex.phase = .ready →
    seeds.length < 200 / s.duplex.rate →
    (∀ k < seeds.length, entAnswer Config.block s (s.duplex.rate - 1) k = some (seeds.getD k [])) →
    entAnswer Config.block s (s.duplex.rate - 1) seeds.length = none →
    ∃ (x : DuplexCtx) (t : State),
      x = { s.duplex with
            A := Config.block.perm
              (padXor Config.block s.duplex.rate (if seeds = [] then s.duplex.inputIndex else s.duplex.rate - 1)
                (reseedTurns Config.block s.duplex.rate s.duplex.inputIndex s.duplex.A seeds))
            inputIndex := 0
            outputIndex := 0 } ∧
      t = { s.afterRequests (seeds.length + 1) with
            duplex := x
            trace := s.trace ++ reseedEvents s.duplex.rate (seeds.length + 1)
            responses := s.responses ++ [⟨2, []⟩] } ∧
      exec .duplexReseed s = .next t ∧ t.Inv ∧
      ∀ n : BitVec 32, n.toNat ≤ s.duplex.rate →
        exec (.duplexFetch n) t =
          .next { t with
            duplex := { x with outputIndex := n.toNat }
            responses := t.responses ++ [⟨0, (List.range n.toNat).map (stateByte x.A)⟩] }

/-! Whole-machine rules. -/

/-- The frame of the engines (10_state.md R15): a sponge command leaves `D` and the entropy source alone, a duplex
command leaves `S` alone; neither touches the host's queue; the trace and the responses only grow, by requests on the
command's own context. -/
def Obligations.CommandsKeepToTheirContext : Prop :=
  ∀ (i : Instr) (s t : State), exec i s = .next t →
    (isSpongeCommand i = true →
      t.duplex = s.duplex ∧ t.entScript = s.entScript ∧ t.entDraws = s.entDraws ∧
      ∃ ev, t.trace = s.trace ++ ev ∧ ∀ e ∈ ev, e = .perm .sponge) ∧
    (isSpongeCommand i = false →
      t.sponge = s.sponge ∧ ∃ ev, t.trace = s.trace ++ ev ∧ ∀ e ∈ ev, e ≠ .perm .sponge) ∧
    t.inbox = s.inbox ∧ t.resetDraws = s.resetDraws ∧ ∃ r, t.responses = s.responses ++ [r]

/-- The two contexts do not influence each other (20_memory.md R34): the result of a sponge command depends on `S`
alone, that of a duplex command on `D` and the entropy answers to come alone. -/
def Obligations.EnginesIndependent : Prop :=
  ∀ (i : Instr) (s t s' : State),
    (if isSpongeCommand i then s.sponge = t.sponge
     else s.duplex = t.duplex ∧ s.entScript = t.entScript ∧ s.entDraws = t.entDraws) →
    exec i s = .next s' →
    ∃ (t' : State) (r : Response) (ev : List Event),
      exec i t = .next t' ∧
      s'.responses = s.responses ++ [r] ∧ t'.responses = t.responses ++ [r] ∧
      s'.trace = s.trace ++ ev ∧ t'.trace = t.trace ++ ev ∧
      (if isSpongeCommand i then s'.sponge = t'.sponge
       else s'.duplex = t'.duplex ∧ s'.entScript = t'.entScript ∧ s'.entDraws = t'.entDraws)

/-- The phase tags (10_state.md R17): reset makes both UNINIT, a successful init ABSORBING or READY, a successful finish
FINISHED; no other command, failed or illegal ones included, changes a tag. -/
def Obligations.PhaseTransitions : Prop :=
  (State.reset.sponge.phase = .uninit ∧ State.reset.duplex.phase = .uninit) ∧
  (∀ (s : State) (rest : List HostInput), s.inbox = .reset :: rest →
    ∃ t, step s = .next t ∧ t.sponge.phase = .uninit ∧ t.duplex.phase = .uninit) ∧
  (∀ (s t : State) (m : Message) (requests : Nat) (rest : List HostInput),
    s.inbox = .resetDuring m requests :: rest → step s = .next t →
    t.sponge.phase = .uninit ∧ t.duplex.phase = .uninit) ∧
  (∀ s t : State, answerIllegal s = .next t → t.sponge.phase = s.sponge.phase ∧ t.duplex.phase = s.duplex.phase) ∧
  ∀ (i : Instr) (s t : State) (r : Response), exec i s = .next t → t.responses = s.responses ++ [r] →
    (r.word ≠ 0 → t.sponge.phase = s.sponge.phase ∧ t.duplex.phase = s.duplex.phase) ∧
    (r.word = 0 →
      match i with
      | .spongeInit _ _ => t.sponge.phase = .absorbing ∧ t.duplex.phase = s.duplex.phase
      | .spongeFinish _ =>
        s.sponge.phase = .absorbing ∧ t.sponge.phase = .finished ∧ t.duplex.phase = s.duplex.phase
      | .duplexInit _ => t.duplex.phase = .ready ∧ t.sponge.phase = s.sponge.phase
      | .spongeUpdate _ | .duplexDuplex _ _ | .duplexFeed _ | .duplexFetch _ | .duplexForget | .duplexReseed =>
        t.sponge.phase = s.sponge.phase ∧ t.duplex.phase = s.duplex.phase)

/-- The configuration registers are written by the init commands and by nothing else (10_state.md section 4). -/
def Obligations.RatesAndSuffixWrittenByInitOnly : Prop :=
  ∀ (i : Instr) (s t : State), isInitCommand i = false → exec i s = .next t →
    t.sponge.rate = s.sponge.rate ∧ t.sponge.suffix = s.sponge.suffix ∧ t.duplex.rate = s.duplex.rate

/-- The capacity bytes change only by an init or a permutation (20_memory.md R26): a command that is no init and makes
no permutation leaves bytes `r .. 199` of both contexts. -/
def Obligations.CapacityUntouchedWithoutPermute : Prop :=
  ∀ (i : Instr) (s t : State), s.Inv → isInitCommand i = false → exec i s = .next t → t.trace = s.trace →
    (s.sponge.phase ≠ .uninit → ∀ j < 200, s.sponge.rate ≤ j → stateByte t.sponge.A j = stateByte s.sponge.A j) ∧
    (s.duplex.phase = .ready → ∀ j < 200, s.duplex.rate ≤ j → stateByte t.duplex.A j = stateByte s.duplex.A j)

/-- What no response depends on (70_reset_and_hazards.md R120(c), 40_sponge.md R56, 10_state.md R20(a)): two states
that differ only in the registers of an uninitialised engine, in a finished sponge context, or in stale buffer bytes,
stay so at every step, with the same responses and the same trace. So nothing rests on the reset values of log 1. -/
def Obligations.UnspecifiedRegistersUnobservable : Prop :=
  ∀ s t s' : State, Agree s t → step s = .next s' → ∃ t', step t = .next t' ∧ Agree s' t'

/-- No rule branches on a data byte, a lane value or an entropy byte (70_reset_and_hazards.md R136): from two states
with the same control state, two commands of the same shape give the same status, the same output length, the same
collaborator requests and the same control state. -/
def Obligations.ControlFlowIgnoresData : Prop :=
  ∀ (i j : Instr) (s t s' : State), SameShape i j → SameControl s t → exec i s = .next s' →
    ∃ (t' : State) (q r : Response) (ev : List Event),
      exec j t = .next t' ∧ SameControl s' t' ∧
      s'.responses = s.responses ++ [q] ∧ t'.responses = t.responses ++ [r] ∧
      q.word = r.word ∧ q.out.length = r.out.length ∧
      s'.trace = s.trace ++ ev ∧ t'.trace = t.trace ++ ev

/-- The wipe pseudo-commands (30_encoding.md R48, 70_reset_and_hazards.md R130, 95_test_vectors.md program 5): from any
state, afterwards every lane and buffer byte is zero, both contexts are initialised, and no collaborator was called. -/
def Obligations.WipeClearsBothContexts : Prop :=
  ∀ s : State, ∃ t : State,
    execAll (Pseudo.wipeSponge.expand ++ Pseudo.wipeDuplex.expand) s = .next t ∧
    (∀ i < 25, laneAt t.sponge.A i = 0 ∧ laneAt t.duplex.A i = 0) ∧ (∀ j < 200, bufByte t.sponge.buf j = 0) ∧
    t.sponge.leftover = 0 ∧ t.sponge.rate = 8 ∧ t.sponge.suffix = 0 ∧ t.sponge.phase = .absorbing ∧
    t.duplex.rate = 8 ∧ t.duplex.inputIndex = 0 ∧ t.duplex.outputIndex = 8 ∧ t.duplex.phase = .ready ∧
    t.trace = s.trace

/-- The hash pseudo-commands compute the sponge function with their parameters (30_encoding.md R48). -/
def Obligations.HashPseudoCommands : Prop :=
  ∀ (s : State) (m : List Byte) (n : BitVec 32),
    (∃ t, execAll (Pseudo.sha3x256 m).expand s = .next t ∧
      t.responses = s.responses ++ [⟨0, []⟩, ⟨0, []⟩, ⟨0, spongeZ Config.block.perm 136 0x06 m 32⟩]) ∧
    (∃ t, execAll (Pseudo.sha3x512 m).expand s = .next t ∧
      t.responses = s.responses ++ [⟨0, []⟩, ⟨0, []⟩, ⟨0, spongeZ Config.block.perm 72 0x06 m 64⟩]) ∧
    (∃ t, execAll (Pseudo.sha3x384 m).expand s = .next t ∧
      t.responses = s.responses ++ [⟨0, []⟩, ⟨0, []⟩, ⟨0, spongeZ Config.block.perm 104 0x06 m 48⟩]) ∧
    (∃ t, execAll (Pseudo.shake128 m n).expand s = .next t ∧
      t.responses = s.responses ++ [⟨0, []⟩, ⟨0, []⟩, ⟨0, spongeZ Config.block.perm 168 0x1F m n.toNat⟩]) ∧
    (∃ t, execAll (Pseudo.shake256 m n).expand s = .next t ∧
      t.responses = s.responses ++ [⟨0, []⟩, ⟨0, []⟩, ⟨0, spongeZ Config.block.perm 136 0x1F m n.toNat⟩])
end

