-- ==== Sys2Proof/Laws/Bytes.lean ====
section
/-! SUPPORT. The byte view of the lanes: what reading a state byte gives after each write (spec 20_memory.md R21,
R22), and the same for the sponge buffer. -/

namespace Sys2Proof.Machine

theorem laneAt_setLane (A : Lanes) (i k : Nat) (v : Lane) :
    laneAt (setLane A i v) k = if i = k ∧ i < 25 then v else laneAt A k := by
  simp only [laneAt, setLane, Vector.getElem?_setIfInBounds]
  by_cases h : i = k
  · subst h
    by_cases h2 : i < 25 <;> simp [h2]
  · simp [h]

theorem laneAt_ext {A B : Lanes} (h : ∀ i < 25, laneAt A i = laneAt B i) : A = B := by
  apply Vector.ext
  intro i hi
  simpa [laneAt, Vector.getElem?_eq_getElem hi] using h i hi

theorem getLsbD_stateByte (A : Lanes) (j i : Nat) :
    (stateByte A j).getLsbD i = (decide (i < 8) && (laneAt A (j / 8)).getLsbD (8 * (j % 8) + i)) := by
  simp [stateByte]

/-- Two states with the same 200 bytes are equal (20_memory.md R21, the converse). -/
theorem lanes_ext {A B : Lanes} (h : ∀ j < 200, stateByte A j = stateByte B j) : A = B := by
  refine laneAt_ext fun i hi => BitVec.eq_of_getLsbD_eq fun k hk => ?_
  have hj := congrArg (fun v => v.getLsbD (k % 8)) (h (8 * i + k / 8) (by omega))
  have h1 : (8 * i + k / 8) / 8 = i := by omega
  have h2 : 8 * ((8 * i + k / 8) % 8) + k % 8 = k := by omega
  simpa only [getLsbD_stateByte, h1, h2, Nat.mod_lt _ (show 8 > 0 by decide), decide_true, Bool.true_and] using hj

/-- A byte shifted into place `j` of its lane, read at place `k`. -/
theorem getLsbD_placed (v : Byte) (a b i : Nat) (ha : a < 8) (hb : b < 8) (hi : i < 8) :
    (v.setWidth 64 <<< (8 * a)).getLsbD (8 * b + i) = (decide (a = b) && v.getLsbD i) := by
  simp only [BitVec.getLsbD_shiftLeft, BitVec.getLsbD_setWidth]
  rcases Nat.lt_trichotomy a b with h | h | h
  · have h1 : v.getLsbD (8 * b + i - 8 * a) = false := BitVec.getLsbD_of_ge _ _ (by omega)
    simp [h1, Nat.ne_of_lt h]
  · subst h
    have h1 : 8 * a + i - 8 * a = i := by omega
    have h2 : 8 * a + i < 64 := by omega
    have h3 : i < 64 := by omega
    simp [h2, h3]
  · have h1 : 8 * b + i < 8 * a := by omega
    simp [h1, Nat.ne_of_gt h]

/-- `SBxor` changes the named byte and no other (20_memory.md R22). -/
theorem stateByte_xorByte (A : Lanes) (j k : Nat) (v : Byte) (hj : j < 200) :
    stateByte (xorByte A j v) k = if k = j then stateByte A k ^^^ v else stateByte A k := by
  apply BitVec.eq_of_getLsbD_eq
  intro i hi
  have hkey : ((if k = j then stateByte A k ^^^ v else stateByte A k)).getLsbD i =
      ((stateByte A k).getLsbD i ^^ (decide (k = j) && v.getLsbD i)) := by
    by_cases h : k = j <;> simp [h]
  rw [hkey, getLsbD_stateByte, getLsbD_stateByte, xorByte, laneAt_setLane]
  by_cases hl : j / 8 = k / 8
  · rw [if_pos ⟨hl, by omega⟩, BitVec.getLsbD_xor,
      getLsbD_placed v (j % 8) (k % 8) i (Nat.mod_lt _ (by decide)) (Nat.mod_lt _ (by decide)) hi, hl]
    have he : decide (j % 8 = k % 8) = decide (k = j) := decide_eq_decide.mpr (by omega)
    simp [hi, he]
  · have hne : k ≠ j := fun h => hl (by rw [h])
    rw [if_neg (fun h => hl h.1)]
    simp [hne]

theorem getLsbD_hole (a b i : Nat) (ha : a < 8) (hb : b < 8) (hi : i < 8) :
    (~~~(0xFF#64 <<< (8 * a))).getLsbD (8 * b + i) = !decide (a = b) := by
  have h := getLsbD_placed 0xFF#8 a b i ha hb hi
  have h255 : (0xFF#8).setWidth 64 = 0xFF#64 := by decide
  have hone : (0xFF#8).getLsbD i = true := by
    have : ∀ i : Fin 8, (0xFF#8).getLsbD i.val = true := by decide
    exact this ⟨i, hi⟩
  rw [h255, hone, Bool.and_true] at h
  rw [BitVec.getLsbD_not, h]
  have : 8 * b + i < 64 := by omega
  simp [this]

/-- `SBset` changes the named byte and no other (20_memory.md R22). -/
theorem stateByte_setByte (A : Lanes) (j k : Nat) (v : Byte) (hj : j < 200) :
    stateByte (setByte A j v) k = if k = j then v else stateByte A k := by
  apply BitVec.eq_of_getLsbD_eq
  intro i hi
  have hkey : ((if k = j then v else stateByte A k)).getLsbD i =
      (if k = j then v.getLsbD i else (stateByte A k).getLsbD i) := by
    by_cases h : k = j <;> simp [h]
  rw [hkey, getLsbD_stateByte, getLsbD_stateByte, setByte, laneAt_setLane]
  by_cases hl : j / 8 = k / 8
  · rw [if_pos ⟨hl, by omega⟩, BitVec.getLsbD_or, BitVec.getLsbD_and,
      getLsbD_placed v (j % 8) (k % 8) i (Nat.mod_lt _ (by decide)) (Nat.mod_lt _ (by decide)) hi,
      getLsbD_hole (j % 8) (k % 8) i (Nat.mod_lt _ (by decide)) (Nat.mod_lt _ (by decide)) hi, hl]
    by_cases he : k = j
    · subst he
      simp [hi]
    · have : j % 8 ≠ k % 8 := by omega
      simp [hi, he, this]
  · have hne : k ≠ j := fun h => hl (by rw [h])
    rw [if_neg (fun h => hl h.1)]
    simp [hi, hne]

@[simp] theorem laneAt_zero (i : Nat) : laneAt Lanes.zero i = 0 := by
  by_cases h : i < 25 <;> simp [laneAt, Lanes.zero, h]

@[simp] theorem stateByte_zero (j : Nat) : stateByte Lanes.zero j = 0 := by simp [stateByte]

/-- A run of `SBxor` XORs byte `t` of the run into the byte at `off + t` and changes no other. -/
theorem stateByte_xorRun (A : Lanes) (off k : Nat) (bs : List Byte) (h : off + bs.length ≤ 200) :
    stateByte (xorRun A off bs) k =
      stateByte A k ^^^ (if off ≤ k ∧ k < off + bs.length then bs.getD (k - off) 0 else 0) := by
  induction bs generalizing A off with
  | nil => simp [xorRun]
  | cons b bs ih =>
    simp only [List.length_cons] at h
    rw [xorRun, ih _ _ (by omega), stateByte_xorByte _ _ _ _ (by omega)]
    by_cases hk : k = off
    · subst hk
      have : ¬(k + 1 ≤ k) := by omega
      simp [this]
    · by_cases hr : off + 1 ≤ k ∧ k < off + 1 + bs.length
      · have h2 : off ≤ k ∧ k < off + (bs.length + 1) := by omega
        obtain ⟨d, hd⟩ : ∃ d, k - off = d + 1 := ⟨k - off - 1, by omega⟩
        have h3 : k - (off + 1) = d := by omega
        simp [hk, hr, h2, hd, h3]
      · have h2 : ¬(off ≤ k ∧ k < off + (bs.length + 1)) := by omega
        rw [if_neg hr, if_neg hk, List.length_cons, if_neg h2]

/-- Zeroing the first `n` bytes. -/
theorem stateByte_zeroRun (A : Lanes) (n k : Nat) (h : n ≤ 200) :
    stateByte (zeroRun A n) k = if k < n then 0 else stateByte A k := by
  induction n with
  | zero => simp [zeroRun]
  | succ n ih =>
    rw [zeroRun, stateByte_setByte _ _ _ _ (by omega), ih (by omega)]
    by_cases hk : k = n
    · simp [hk]
    · by_cases h2 : k < n
      · have : k < n + 1 := by omega
        simp [hk, h2, this]
      · have : ¬k < n + 1 := by omega
        simp [hk, h2, this]

@[simp] theorem length_readRun (A : Lanes) (off k : Nat) : (readRun A off k).length = k := by simp [readRun]

theorem readRun_add (A : Lanes) (off a b : Nat) : readRun A off (a + b) = readRun A off a ++ readRun A (off + a) b := by
  simp [readRun, List.range_add, Nat.add_assoc]

theorem xorRun_append (A : Lanes) (off : Nat) (a b : List Byte) :
    xorRun A off (a ++ b) = xorRun (xorRun A off a) (off + a.length) b := by
  induction a generalizing A off with
  | nil => rfl
  | cons x a ih => simp [xorRun, ih, Nat.add_assoc, Nat.add_comm 1]

/-! The sponge buffer. -/

theorem bufByte_setBuf (b : Buffer) (j k : Nat) (v : Byte) (hj : j < 200) :
    bufByte (setBuf b j v) k = if k = j then v else bufByte b k := by
  simp only [bufByte, setBuf, Vector.getElem?_setIfInBounds]
  by_cases h : j = k
  · subst h
    simp [hj]
  · have : k ≠ j := fun e => h e.symm
    simp [h, this]

theorem bufByte_writeBuf (b : Buffer) (off k : Nat) (vs : List Byte) (h : off + vs.length ≤ 200) :
    bufByte (writeBuf b off vs) k = if off ≤ k ∧ k < off + vs.length then vs.getD (k - off) 0 else bufByte b k := by
  induction vs generalizing b off with
  | nil => simp [writeBuf]
  | cons v vs ih =>
    simp only [List.length_cons] at h
    rw [writeBuf, ih _ _ (by omega), bufByte_setBuf _ _ _ _ (by omega)]
    by_cases hk : k = off
    · subst hk
      have : ¬(k + 1 ≤ k) := by omega
      simp [this]
    · by_cases hr : off + 1 ≤ k ∧ k < off + 1 + vs.length
      · have h2 : off ≤ k ∧ k < off + (vs.length + 1) := by omega
        obtain ⟨d, hd⟩ : ∃ d, k - off = d + 1 := ⟨k - off - 1, by omega⟩
        have h3 : k - (off + 1) = d := by omega
        simp [hr, h2, hd, h3]
      · have h2 : ¬(off ≤ k ∧ k < off + (vs.length + 1)) := by omega
        rw [if_neg hr, List.length_cons, if_neg h2, if_neg hk]

@[simp] theorem bufByte_zero (j : Nat) : bufByte Buffer.zero j = 0 := by
  by_cases h : j < 200 <;> simp [bufByte, Buffer.zero, h]

theorem buffer_ext {a b : Buffer} (h : ∀ j < 200, bufByte a j = bufByte b j) : a = b := by
  apply Vector.ext
  intro i hi
  simpa [bufByte, Vector.getElem?_eq_getElem hi] using h i hi

@[simp] theorem length_readBuf (b : Buffer) (k : Nat) : (readBuf b k).length = k := by simp [readBuf]

theorem getD_readBuf (b : Buffer) (k j : Nat) : (readBuf b k).getD j 0 = if j < k then bufByte b j else 0 := by
  by_cases h : j < k <;> simp [readBuf, List.getD_eq_getElem?_getD, h]

/-- The first bytes of the buffer are those of a list when each is. -/
theorem readBuf_eq {b : Buffer} {l : List Byte} {k : Nat} (hl : l.length = k) (h : ∀ j < k, bufByte b j = l.getD j 0) :
    readBuf b k = l := by
  subst hl
  apply List.ext_getElem (by simp)
  intro j h1 h2
  simpa [readBuf, h2] using h j h2

end Sys2Proof.Machine
end

