-- ==== Sys2Proof/Laws/State.lean ====
section
/-! SUPPORT. What each update of State leaves in each field: one lemma per field per update. -/

namespace Sys2Proof.Machine

@[simp] theorem State.setSponge_sponge (s : State) (c : SpongeCtx) : (s.setSponge c).sponge = c := rfl
@[simp] theorem State.setSponge_duplex (s : State) (c : SpongeCtx) : (s.setSponge c).duplex = s.duplex := rfl
@[simp] theorem State.setSponge_trace (s : State) (c : SpongeCtx) : (s.setSponge c).trace = s.trace := rfl
@[simp] theorem State.setSponge_responses (s : State) (c : SpongeCtx) : (s.setSponge c).responses = s.responses := rfl
@[simp] theorem State.setSponge_inbox (s : State) (c : SpongeCtx) : (s.setSponge c).inbox = s.inbox := rfl
@[simp] theorem State.setSponge_entScript (s : State) (c : SpongeCtx) : (s.setSponge c).entScript = s.entScript := rfl
@[simp] theorem State.setSponge_entDraws (s : State) (c : SpongeCtx) : (s.setSponge c).entDraws = s.entDraws := rfl
@[simp] theorem State.setSponge_resetDraws (s : State) (c : SpongeCtx) : (s.setSponge c).resetDraws = s.resetDraws := rfl

@[simp] theorem State.setDuplex_sponge (s : State) (c : DuplexCtx) : (s.setDuplex c).sponge = s.sponge := rfl
@[simp] theorem State.setDuplex_duplex (s : State) (c : DuplexCtx) : (s.setDuplex c).duplex = c := rfl
@[simp] theorem State.setDuplex_trace (s : State) (c : DuplexCtx) : (s.setDuplex c).trace = s.trace := rfl
@[simp] theorem State.setDuplex_responses (s : State) (c : DuplexCtx) : (s.setDuplex c).responses = s.responses := rfl
@[simp] theorem State.setDuplex_inbox (s : State) (c : DuplexCtx) : (s.setDuplex c).inbox = s.inbox := rfl
@[simp] theorem State.setDuplex_entScript (s : State) (c : DuplexCtx) : (s.setDuplex c).entScript = s.entScript := rfl
@[simp] theorem State.setDuplex_entDraws (s : State) (c : DuplexCtx) : (s.setDuplex c).entDraws = s.entDraws := rfl
@[simp] theorem State.setDuplex_resetDraws (s : State) (c : DuplexCtx) : (s.setDuplex c).resetDraws = s.resetDraws := rfl

@[simp] theorem State.setSpongeA_sponge (s : State) (A : Lanes) : (s.setSpongeA A).sponge = { s.sponge with A := A } := rfl
@[simp] theorem State.setSpongeA_duplex (s : State) (A : Lanes) : (s.setSpongeA A).duplex = s.duplex := rfl
@[simp] theorem State.setSpongeA_trace (s : State) (A : Lanes) : (s.setSpongeA A).trace = s.trace := rfl
@[simp] theorem State.setSpongeA_responses (s : State) (A : Lanes) : (s.setSpongeA A).responses = s.responses := rfl
@[simp] theorem State.setSpongeA_inbox (s : State) (A : Lanes) : (s.setSpongeA A).inbox = s.inbox := rfl
@[simp] theorem State.setSpongeA_entScript (s : State) (A : Lanes) : (s.setSpongeA A).entScript = s.entScript := rfl
@[simp] theorem State.setSpongeA_entDraws (s : State) (A : Lanes) : (s.setSpongeA A).entDraws = s.entDraws := rfl
@[simp] theorem State.setSpongeA_resetDraws (s : State) (A : Lanes) : (s.setSpongeA A).resetDraws = s.resetDraws := rfl

@[simp] theorem State.setSpongeBuf_sponge (s : State) (b : Buffer) : (s.setSpongeBuf b).sponge = { s.sponge with buf := b } := rfl
@[simp] theorem State.setSpongeBuf_duplex (s : State) (b : Buffer) : (s.setSpongeBuf b).duplex = s.duplex := rfl
@[simp] theorem State.setSpongeBuf_trace (s : State) (b : Buffer) : (s.setSpongeBuf b).trace = s.trace := rfl
@[simp] theorem State.setSpongeBuf_responses (s : State) (b : Buffer) : (s.setSpongeBuf b).responses = s.responses := rfl
@[simp] theorem State.setSpongeBuf_inbox (s : State) (b : Buffer) : (s.setSpongeBuf b).inbox = s.inbox := rfl
@[simp] theorem State.setSpongeBuf_entScript (s : State) (b : Buffer) : (s.setSpongeBuf b).entScript = s.entScript := rfl
@[simp] theorem State.setSpongeBuf_entDraws (s : State) (b : Buffer) : (s.setSpongeBuf b).entDraws = s.entDraws := rfl
@[simp] theorem State.setSpongeBuf_resetDraws (s : State) (b : Buffer) : (s.setSpongeBuf b).resetDraws = s.resetDraws := rfl

@[simp] theorem State.setLeftover_sponge (s : State) (n : Nat) : (s.setLeftover n).sponge = { s.sponge with leftover := n } := rfl
@[simp] theorem State.setLeftover_duplex (s : State) (n : Nat) : (s.setLeftover n).duplex = s.duplex := rfl
@[simp] theorem State.setLeftover_trace (s : State) (n : Nat) : (s.setLeftover n).trace = s.trace := rfl
@[simp] theorem State.setLeftover_responses (s : State) (n : Nat) : (s.setLeftover n).responses = s.responses := rfl
@[simp] theorem State.setLeftover_inbox (s : State) (n : Nat) : (s.setLeftover n).inbox = s.inbox := rfl
@[simp] theorem State.setLeftover_entScript (s : State) (n : Nat) : (s.setLeftover n).entScript = s.entScript := rfl
@[simp] theorem State.setLeftover_entDraws (s : State) (n : Nat) : (s.setLeftover n).entDraws = s.entDraws := rfl
@[simp] theorem State.setLeftover_resetDraws (s : State) (n : Nat) : (s.setLeftover n).resetDraws = s.resetDraws := rfl

@[simp] theorem State.setSpongePhase_sponge (s : State) (p : SpongePhase) : (s.setSpongePhase p).sponge = { s.sponge with phase := p } := rfl
@[simp] theorem State.setSpongePhase_duplex (s : State) (p : SpongePhase) : (s.setSpongePhase p).duplex = s.duplex := rfl
@[simp] theorem State.setSpongePhase_trace (s : State) (p : SpongePhase) : (s.setSpongePhase p).trace = s.trace := rfl
@[simp] theorem State.setSpongePhase_responses (s : State) (p : SpongePhase) : (s.setSpongePhase p).responses = s.responses := rfl
@[simp] theorem State.setSpongePhase_inbox (s : State) (p : SpongePhase) : (s.setSpongePhase p).inbox = s.inbox := rfl
@[simp] theorem State.setSpongePhase_entScript (s : State) (p : SpongePhase) : (s.setSpongePhase p).entScript = s.entScript := rfl
@[simp] theorem State.setSpongePhase_entDraws (s : State) (p : SpongePhase) : (s.setSpongePhase p).entDraws = s.entDraws := rfl
@[simp] theorem State.setSpongePhase_resetDraws (s : State) (p : SpongePhase) : (s.setSpongePhase p).resetDraws = s.resetDraws := rfl

@[simp] theorem State.setDuplexA_sponge (s : State) (A : Lanes) : (s.setDuplexA A).sponge = s.sponge := rfl
@[simp] theorem State.setDuplexA_duplex (s : State) (A : Lanes) : (s.setDuplexA A).duplex = { s.duplex with A := A } := rfl
@[simp] theorem State.setDuplexA_trace (s : State) (A : Lanes) : (s.setDuplexA A).trace = s.trace := rfl
@[simp] theorem State.setDuplexA_responses (s : State) (A : Lanes) : (s.setDuplexA A).responses = s.responses := rfl
@[simp] theorem State.setDuplexA_inbox (s : State) (A : Lanes) : (s.setDuplexA A).inbox = s.inbox := rfl
@[simp] theorem State.setDuplexA_entScript (s : State) (A : Lanes) : (s.setDuplexA A).entScript = s.entScript := rfl
@[simp] theorem State.setDuplexA_entDraws (s : State) (A : Lanes) : (s.setDuplexA A).entDraws = s.entDraws := rfl
@[simp] theorem State.setDuplexA_resetDraws (s : State) (A : Lanes) : (s.setDuplexA A).resetDraws = s.resetDraws := rfl

@[simp] theorem State.setInputIndex_sponge (s : State) (n : Nat) : (s.setInputIndex n).sponge = s.sponge := rfl
@[simp] theorem State.setInputIndex_duplex (s : State) (n : Nat) : (s.setInputIndex n).duplex = { s.duplex with inputIndex := n } := rfl
@[simp] theorem State.setInputIndex_trace (s : State) (n : Nat) : (s.setInputIndex n).trace = s.trace := rfl
@[simp] theorem State.setInputIndex_responses (s : State) (n : Nat) : (s.setInputIndex n).responses = s.responses := rfl
@[simp] theorem State.setInputIndex_inbox (s : State) (n : Nat) : (s.setInputIndex n).inbox = s.inbox := rfl
@[simp] theorem State.setInputIndex_entScript (s : State) (n : Nat) : (s.setInputIndex n).entScript = s.entScript := rfl
@[simp] theorem State.setInputIndex_entDraws (s : State) (n : Nat) : (s.setInputIndex n).entDraws = s.entDraws := rfl
@[simp] theorem State.setInputIndex_resetDraws (s : State) (n : Nat) : (s.setInputIndex n).resetDraws = s.resetDraws := rfl

@[simp] theorem State.setOutputIndex_sponge (s : State) (n : Nat) : (s.setOutputIndex n).sponge = s.sponge := rfl
@[simp] theorem State.setOutputIndex_duplex (s : State) (n : Nat) : (s.setOutputIndex n).duplex = { s.duplex with outputIndex := n } := rfl
@[simp] theorem State.setOutputIndex_trace (s : State) (n : Nat) : (s.setOutputIndex n).trace = s.trace := rfl
@[simp] theorem State.setOutputIndex_responses (s : State) (n : Nat) : (s.setOutputIndex n).responses = s.responses := rfl
@[simp] theorem State.setOutputIndex_inbox (s : State) (n : Nat) : (s.setOutputIndex n).inbox = s.inbox := rfl
@[simp] theorem State.setOutputIndex_entScript (s : State) (n : Nat) : (s.setOutputIndex n).entScript = s.entScript := rfl
@[simp] theorem State.setOutputIndex_entDraws (s : State) (n : Nat) : (s.setOutputIndex n).entDraws = s.entDraws := rfl
@[simp] theorem State.setOutputIndex_resetDraws (s : State) (n : Nat) : (s.setOutputIndex n).resetDraws = s.resetDraws := rfl

@[simp] theorem State.logEvent_sponge (s : State) (e : Event) : (s.logEvent e).sponge = s.sponge := rfl
@[simp] theorem State.logEvent_duplex (s : State) (e : Event) : (s.logEvent e).duplex = s.duplex := rfl
@[simp] theorem State.logEvent_trace (s : State) (e : Event) : (s.logEvent e).trace = s.trace ++ [e] := rfl
@[simp] theorem State.logEvent_responses (s : State) (e : Event) : (s.logEvent e).responses = s.responses := rfl
@[simp] theorem State.logEvent_inbox (s : State) (e : Event) : (s.logEvent e).inbox = s.inbox := rfl
@[simp] theorem State.logEvent_entScript (s : State) (e : Event) : (s.logEvent e).entScript = s.entScript := rfl
@[simp] theorem State.logEvent_entDraws (s : State) (e : Event) : (s.logEvent e).entDraws = s.entDraws := rfl
@[simp] theorem State.logEvent_resetDraws (s : State) (e : Event) : (s.logEvent e).resetDraws = s.resetDraws := rfl

@[simp] theorem State.respond_sponge (s : State) (r : Response) : (s.respond r).sponge = s.sponge := rfl
@[simp] theorem State.respond_duplex (s : State) (r : Response) : (s.respond r).duplex = s.duplex := rfl
@[simp] theorem State.respond_trace (s : State) (r : Response) : (s.respond r).trace = s.trace := rfl
@[simp] theorem State.respond_responses (s : State) (r : Response) : (s.respond r).responses = s.responses ++ [r] := rfl
@[simp] theorem State.respond_inbox (s : State) (r : Response) : (s.respond r).inbox = s.inbox := rfl
@[simp] theorem State.respond_entScript (s : State) (r : Response) : (s.respond r).entScript = s.entScript := rfl
@[simp] theorem State.respond_entDraws (s : State) (r : Response) : (s.respond r).entDraws = s.entDraws := rfl
@[simp] theorem State.respond_resetDraws (s : State) (r : Response) : (s.respond r).resetDraws = s.resetDraws := rfl

@[simp] theorem State.setInbox_sponge (s : State) (q : List HostInput) : (s.setInbox q).sponge = s.sponge := rfl
@[simp] theorem State.setInbox_duplex (s : State) (q : List HostInput) : (s.setInbox q).duplex = s.duplex := rfl
@[simp] theorem State.setInbox_trace (s : State) (q : List HostInput) : (s.setInbox q).trace = s.trace := rfl
@[simp] theorem State.setInbox_responses (s : State) (q : List HostInput) : (s.setInbox q).responses = s.responses := rfl
@[simp] theorem State.setInbox_inbox (s : State) (q : List HostInput) : (s.setInbox q).inbox = q := rfl
@[simp] theorem State.setInbox_entScript (s : State) (q : List HostInput) : (s.setInbox q).entScript = s.entScript := rfl
@[simp] theorem State.setInbox_entDraws (s : State) (q : List HostInput) : (s.setInbox q).entDraws = s.entDraws := rfl
@[simp] theorem State.setInbox_resetDraws (s : State) (q : List HostInput) : (s.setInbox q).resetDraws = s.resetDraws := rfl

@[simp] theorem State.setEntScript_sponge (s : State) (q : List EntAnswer) : (s.setEntScript q).sponge = s.sponge := rfl
@[simp] theorem State.setEntScript_duplex (s : State) (q : List EntAnswer) : (s.setEntScript q).duplex = s.duplex := rfl
@[simp] theorem State.setEntScript_trace (s : State) (q : List EntAnswer) : (s.setEntScript q).trace = s.trace := rfl
@[simp] theorem State.setEntScript_responses (s : State) (q : List EntAnswer) : (s.setEntScript q).responses = s.responses := rfl
@[simp] theorem State.setEntScript_inbox (s : State) (q : List EntAnswer) : (s.setEntScript q).inbox = s.inbox := rfl
@[simp] theorem State.setEntScript_entScript (s : State) (q : List EntAnswer) : (s.setEntScript q).entScript = q := rfl
@[simp] theorem State.setEntScript_entDraws (s : State) (q : List EntAnswer) : (s.setEntScript q).entDraws = s.entDraws := rfl
@[simp] theorem State.setEntScript_resetDraws (s : State) (q : List EntAnswer) : (s.setEntScript q).resetDraws = s.resetDraws := rfl

@[simp] theorem State.nextEntDraw_sponge (s : State) : (s.nextEntDraw).sponge = s.sponge := rfl
@[simp] theorem State.nextEntDraw_duplex (s : State) : (s.nextEntDraw).duplex = s.duplex := rfl
@[simp] theorem State.nextEntDraw_trace (s : State) : (s.nextEntDraw).trace = s.trace := rfl
@[simp] theorem State.nextEntDraw_responses (s : State) : (s.nextEntDraw).responses = s.responses := rfl
@[simp] theorem State.nextEntDraw_inbox (s : State) : (s.nextEntDraw).inbox = s.inbox := rfl
@[simp] theorem State.nextEntDraw_entScript (s : State) : (s.nextEntDraw).entScript = s.entScript := rfl
@[simp] theorem State.nextEntDraw_entDraws (s : State) : (s.nextEntDraw).entDraws = s.entDraws + 1 := rfl
@[simp] theorem State.nextEntDraw_resetDraws (s : State) : (s.nextEntDraw).resetDraws = s.resetDraws := rfl

@[simp] theorem State.afterRequests_sponge (s : State) (k : Nat) : (s.afterRequests k).sponge = s.sponge := rfl
@[simp] theorem State.afterRequests_duplex (s : State) (k : Nat) : (s.afterRequests k).duplex = s.duplex := rfl
@[simp] theorem State.afterRequests_trace (s : State) (k : Nat) : (s.afterRequests k).trace = s.trace := rfl
@[simp] theorem State.afterRequests_responses (s : State) (k : Nat) : (s.afterRequests k).responses = s.responses := rfl
@[simp] theorem State.afterRequests_inbox (s : State) (k : Nat) : (s.afterRequests k).inbox = s.inbox := rfl
@[simp] theorem State.afterRequests_resetDraws (s : State) (k : Nat) : (s.afterRequests k).resetDraws = s.resetDraws := rfl
@[simp] theorem State.afterRequests_entScript (s : State) (k : Nat) : (s.afterRequests k).entScript = s.entScript.drop k := rfl
@[simp] theorem State.afterRequests_entDraws (s : State) (k : Nat) :
    (s.afterRequests k).entDraws = s.entDraws + (k - s.entScript.length) := rfl
@[simp] theorem State.afterRequests_zero (s : State) : s.afterRequests 0 = s := by simp [State.afterRequests]

end Sys2Proof.Machine
end

