-- ==== Sys2Proof/Laws/Ops.lean ====
section
/-! SUPPORT. What each shared operation can do: completing a command, the phase checks, the collaborators. -/

namespace Sys2Proof.Machine

theorem complete_eq (st : Status) (out : List Byte) (s : State) : complete st out s = .next (s.respond ⟨st.word, out⟩) := rfl

theorem fail_eq (st : Status) (s : State) : fail st s = .next (s.respond ⟨st.word, []⟩) := rfl

/-- The three ways through the check of `SPONGE_UPDATE` and `SPONGE_FINISH`. -/
theorem onAbsorbing_cases {s : State} {body : State → Outcome} {o : Outcome} (h : onAbsorbing s body = o) :
    (s.sponge.phase ≠ .absorbing ∧ o = fail .errMisuse s) ∨
    (s.sponge.phase = .absorbing ∧ s.sponge.legal = true ∧ o = body s) ∨
    (s.sponge.phase = .absorbing ∧ s.sponge.legal = false ∧ o = .fault .spongeRegistersIllegal) := by
  subst h
  by_cases hp : s.sponge.phase = .absorbing <;> by_cases hl : s.sponge.legal = true <;> simp_all [onAbsorbing]

theorem onAbsorbing_run {s : State} {body : State → Outcome} (hp : s.sponge.phase = .absorbing)
    (hl : s.sponge.legal = true) : onAbsorbing s body = body s := by simp [onAbsorbing, hp, hl]

theorem onAbsorbing_misuse {s : State} {body : State → Outcome} (hp : s.sponge.phase ≠ .absorbing) :
    onAbsorbing s body = fail .errMisuse s := by simp [onAbsorbing, hp]

/-- The three ways through the check of the five non-init duplex commands. -/
theorem onReady_cases {s : State} {body : State → Outcome} {o : Outcome} (h : onReady s body = o) :
    (s.duplex.phase ≠ .ready ∧ o = fail .errMisuse s) ∨
    (s.duplex.phase = .ready ∧ s.duplex.legal = true ∧ o = body s) ∨
    (s.duplex.phase = .ready ∧ s.duplex.legal = false ∧ o = .fault .duplexRegistersIllegal) := by
  subst h
  by_cases hp : s.duplex.phase = .ready <;> by_cases hl : s.duplex.legal = true <;> simp_all [onReady]

theorem onReady_run {s : State} {body : State → Outcome} (hp : s.duplex.phase = .ready)
    (hl : s.duplex.legal = true) : onReady s body = body s := by simp [onReady, hp, hl]

theorem onReady_misuse {s : State} {body : State → Outcome} (hp : s.duplex.phase ≠ .ready) :
    onReady s body = fail .errMisuse s := by simp [onReady, hp]

theorem SpongeCtx.legal_iff (x : SpongeCtx) :
    x.legal = true ↔ (8 ≤ x.rate ∧ x.rate ≤ 200 ∧ x.rate % 8 = 0) ∧ x.leftover < x.rate ∧ x.suffix &&& 0x80 = 0 := by
  simp [SpongeCtx.legal, spongeRateLegal, and_assoc]

theorem DuplexCtx.legal_iff (x : DuplexCtx) :
    x.legal = true ↔
      (8 ≤ x.rate ∧ x.rate ≤ 192 ∧ x.rate % 8 = 0) ∧ x.inputIndex ≤ x.rate - 1 ∧ x.outputIndex ≤ x.rate := by
  simp [DuplexCtx.legal, duplexRateLegal, and_assoc]

/-! `Permute`. -/

theorem permuteSponge_sponge (c : Config) (s : State) :
    (permuteSponge c s).sponge = { s.sponge with A := c.perm s.sponge.A } := rfl

@[simp] theorem permuteSponge_trace (c : Config) (s : State) :
    (permuteSponge c s).trace = s.trace ++ [.perm .sponge] := rfl

theorem permuteDuplex_duplex (c : Config) (s : State) :
    (permuteDuplex c s).duplex = { s.duplex with A := c.perm s.duplex.A } := rfl

@[simp] theorem permuteDuplex_trace (c : Config) (s : State) :
    (permuteDuplex c s).trace = s.trace ++ [.perm .duplex] := rfl

/-! `EntFill`. -/

/-- An answer that meets the request has exactly the requested length (42_collaborators.md R86(a)). -/
theorem EntAnswer.length_of_forRequest {a : EntAnswer} {n : Nat} {bs : List Byte} (h : a.forRequest n = some bs) :
    bs.length = n := by
  cases a with
  | fail => simp [EntAnswer.forRequest] at h
  | ok x =>
    by_cases hx : x.length = n <;> simp [EntAnswer.forRequest, hx] at h
    exact h ▸ hx

theorem length_of_freeAnswer {c : Config} {k n : Nat} {bs : List Byte} (h : freeAnswer c k n = some bs) :
    bs.length = n := by
  by_cases hk : c.entOk k <;> simp [freeAnswer, hk] at h
  simp [← h]

/-- Everything `EntFill` can do: it touches the entropy fields and the trace, and answers `n` bytes or failure. -/
theorem entFill_cases (c : Config) (n : Nat) (s : State) :
    (∃ a rest, s.entScript = a :: rest ∧ entFill c n s = (a.forRequest n, (s.setEntScript rest).logEvent (.ent n))) ∨
    (s.entScript = [] ∧ entFill c n s = (freeAnswer c s.entDraws n, s.nextEntDraw.logEvent (.ent n))) := by
  cases h : s.entScript with
  | nil => exact .inr ⟨rfl, by simp [entFill, h]⟩
  | cons a rest => exact .inl ⟨a, rest, rfl, by simp [entFill, h]⟩

/-! What a command of one engine may touch besides its context, its response and its collaborator requests: nothing. -/

/-- From `s` to `t`, the sponge's lanes and buffer state changed and permutations of `S` were traced; nothing else. -/
structure OnlySponge (s t : State) : Prop where
  duplex : t.duplex = s.duplex
  rate : t.sponge.rate = s.sponge.rate
  suffix : t.sponge.suffix = s.sponge.suffix
  phase : t.sponge.phase = s.sponge.phase
  trace : ∃ k, t.trace = s.trace ++ List.replicate k (.perm .sponge)
  responses : t.responses = s.responses
  inbox : t.inbox = s.inbox
  entScript : t.entScript = s.entScript
  entDraws : t.entDraws = s.entDraws
  resetDraws : t.resetDraws = s.resetDraws

theorem OnlySponge.refl (s : State) : OnlySponge s s := ⟨rfl, rfl, rfl, rfl, ⟨0, by simp⟩, rfl, rfl, rfl, rfl, rfl⟩

theorem OnlySponge.trans {s t u : State} (h : OnlySponge s t) (g : OnlySponge t u) : OnlySponge s u := by
  obtain ⟨k, hk⟩ := h.trace
  obtain ⟨m, hm⟩ := g.trace
  exact ⟨g.duplex.trans h.duplex, g.rate.trans h.rate, g.suffix.trans h.suffix, g.phase.trans h.phase,
    ⟨k + m, by rw [hm, hk, List.append_assoc, List.replicate_append_replicate]⟩,
    g.responses.trans h.responses, g.inbox.trans h.inbox, g.entScript.trans h.entScript, g.entDraws.trans h.entDraws,
    g.resetDraws.trans h.resetDraws⟩

theorem onlySponge_setA (s : State) (A : Lanes) : OnlySponge s (s.setSpongeA A) :=
  ⟨rfl, rfl, rfl, rfl, ⟨0, by simp⟩, rfl, rfl, rfl, rfl, rfl⟩

theorem onlySponge_setBuf (s : State) (b : Buffer) : OnlySponge s (s.setSpongeBuf b) :=
  ⟨rfl, rfl, rfl, rfl, ⟨0, by simp⟩, rfl, rfl, rfl, rfl, rfl⟩

theorem onlySponge_setLeftover (s : State) (n : Nat) : OnlySponge s (s.setLeftover n) :=
  ⟨rfl, rfl, rfl, rfl, ⟨0, by simp⟩, rfl, rfl, rfl, rfl, rfl⟩

theorem onlySponge_permute (c : Config) (s : State) : OnlySponge s (permuteSponge c s) :=
  ⟨rfl, rfl, rfl, rfl, ⟨1, rfl⟩, rfl, rfl, rfl, rfl, rfl⟩

/-- From `s` to `t`, the duplex's lanes and indices changed and permutations of `D` were traced; nothing else. -/
structure OnlyDuplex (s t : State) : Prop where
  sponge : t.sponge = s.sponge
  rate : t.duplex.rate = s.duplex.rate
  phase : t.duplex.phase = s.duplex.phase
  trace : ∃ k, t.trace = s.trace ++ List.replicate k (.perm .duplex)
  responses : t.responses = s.responses
  inbox : t.inbox = s.inbox
  entScript : t.entScript = s.entScript
  entDraws : t.entDraws = s.entDraws
  resetDraws : t.resetDraws = s.resetDraws

theorem OnlyDuplex.refl (s : State) : OnlyDuplex s s := ⟨rfl, rfl, rfl, ⟨0, by simp⟩, rfl, rfl, rfl, rfl, rfl⟩

theorem OnlyDuplex.trans {s t u : State} (h : OnlyDuplex s t) (g : OnlyDuplex t u) : OnlyDuplex s u := by
  obtain ⟨k, hk⟩ := h.trace
  obtain ⟨m, hm⟩ := g.trace
  exact ⟨g.sponge.trans h.sponge, g.rate.trans h.rate, g.phase.trans h.phase,
    ⟨k + m, by rw [hm, hk, List.append_assoc, List.replicate_append_replicate]⟩,
    g.responses.trans h.responses, g.inbox.trans h.inbox, g.entScript.trans h.entScript, g.entDraws.trans h.entDraws,
    g.resetDraws.trans h.resetDraws⟩

theorem onlyDuplex_setA (s : State) (A : Lanes) : OnlyDuplex s (s.setDuplexA A) :=
  ⟨rfl, rfl, rfl, ⟨0, by simp⟩, rfl, rfl, rfl, rfl, rfl⟩

theorem onlyDuplex_setInputIndex (s : State) (n : Nat) : OnlyDuplex s (s.setInputIndex n) :=
  ⟨rfl, rfl, rfl, ⟨0, by simp⟩, rfl, rfl, rfl, rfl, rfl⟩

theorem onlyDuplex_setOutputIndex (s : State) (n : Nat) : OnlyDuplex s (s.setOutputIndex n) :=
  ⟨rfl, rfl, rfl, ⟨0, by simp⟩, rfl, rfl, rfl, rfl, rfl⟩

theorem onlyDuplex_permute (c : Config) (s : State) : OnlyDuplex s (permuteDuplex c s) :=
  ⟨rfl, rfl, rfl, ⟨1, rfl⟩, rfl, rfl, rfl, rfl, rfl⟩

end Sys2Proof.Machine
end

