-- ==== Sys2Proof/Laws/Duplex.lean ====
section
/-! SUPPORT. What the Duplex Engine's shared steps do (spec 41_duplex.md R60, R66, R68, R72). -/

namespace Sys2Proof.Machine

theorem padPermute_duplex (c : Config) (s : State) : (padPermute c s).duplex = padCtx c s.duplex := rfl

@[simp] theorem padPermute_trace (c : Config) (s : State) : (padPermute c s).trace = s.trace ++ [.perm .duplex] := rfl

theorem onlyDuplex_padPermute (c : Config) (s : State) : OnlyDuplex s (padPermute c s) :=
  (((onlyDuplex_setA s _).trans (onlyDuplex_permute c _)).trans (onlyDuplex_setInputIndex _ _)).trans
    (onlyDuplex_setOutputIndex _ _)

/-- The bytes a pad leaves (41_duplex.md R60, 20_memory.md R25(d)). -/
theorem stateByte_padXor (c : Config) (r at_ : Nat) (A : Lanes) (k : Nat) (ha : at_ < 200) (hr : r - 1 < 200) :
    stateByte (padXor c r at_ A) k =
      stateByte A k ^^^ (if k = at_ then c.dsDuplex else 0) ^^^ (if k = r - 1 then 0x80 else 0) := by
  rw [padXor, stateByte_xorByte _ _ _ _ hr, stateByte_xorByte _ _ _ _ ha]
  split_ifs <;> simp

theorem onlyDuplex_padIfFull (c : Config) (s : State) : OnlyDuplex s (padIfFull c s) := by
  rw [padIfFull]
  split
  · exact onlyDuplex_padPermute c s
  · exact .refl s

theorem onlyDuplex_padIfSpent (c : Config) (s : State) : OnlyDuplex s (padIfSpent c s) := by
  rw [padIfSpent]
  split
  · exact onlyDuplex_padPermute c s
  · exact .refl s

theorem onlyDuplex_writeBytes (bs : List Byte) (s : State) : OnlyDuplex s (writeBytes bs s) :=
  (onlyDuplex_setA s _).trans (onlyDuplex_setInputIndex _ _)

theorem onlyDuplex_feedLoop (c : Config) (bound : Nat) (data : List Byte) (s : State) :
    OnlyDuplex s (feedLoop c bound data s) := by
  induction bound generalizing data s with
  | zero => exact .refl s
  | succ bound ih =>
    rw [feedLoop]
    split
    · exact .refl s
    · exact ((onlyDuplex_padIfFull c s).trans (onlyDuplex_writeBytes _ _)).trans (ih _ _)

theorem onlyDuplex_feedBytes (c : Config) (data : List Byte) (s : State) : OnlyDuplex s (feedBytes c data s) := by
  rw [feedBytes]
  split
  · exact .refl s
  · exact (onlyDuplex_feedLoop c _ data s).trans (onlyDuplex_setOutputIndex _ _)

theorem onlyDuplex_fetchLoop (c : Config) (bound rem : Nat) (s : State) : OnlyDuplex s (fetchLoop c bound rem s).2 := by
  induction bound generalizing rem s with
  | zero => exact .refl s
  | succ bound ih =>
    rw [fetchLoop]
    split
    · exact .refl s
    · exact ((onlyDuplex_padIfSpent c s).trans (onlyDuplex_setOutputIndex _ _)).trans (ih _ _)

theorem onlyDuplex_oneShotTurn (c : Config) (input : List Byte) (outlen : Nat) (s : State) :
    OnlyDuplex s (oneShotTurn c input outlen s) :=
  (((onlyDuplex_setA s _).trans (onlyDuplex_permute c _)).trans (onlyDuplex_setInputIndex _ _)).trans
    (onlyDuplex_setOutputIndex _ _)

/-- The turn of `DUPLEX_DUPLEX` (41_duplex.md R64). -/
theorem oneShotTurn_duplex (c : Config) (input : List Byte) (outlen : Nat) (s : State) :
    (oneShotTurn c input outlen s).duplex =
      { s.duplex with
        A := c.perm (padXor c s.duplex.rate input.length (xorRun s.duplex.A 0 input))
        inputIndex := 0
        outputIndex := outlen } := rfl

@[simp] theorem oneShotTurn_trace (c : Config) (input : List Byte) (outlen : Nat) (s : State) :
    (oneShotTurn c input outlen s).trace = s.trace ++ [.perm .duplex] := rfl

theorem wipeBlock_duplex (s : State) :
    (wipeBlock s).duplex =
      { s.duplex with A := zeroRun s.duplex.A (s.duplex.rate - 1), inputIndex := s.duplex.rate - 1 } := rfl

theorem onlyDuplex_wipeBlock (s : State) : OnlyDuplex s (wipeBlock s) :=
  (onlyDuplex_setA s _).trans (onlyDuplex_setInputIndex _ _)

/-! The loops, byte by byte (41_duplex.md R66 to R69, R72). -/

@[simp] theorem padCtx_rate (c : Config) (x : DuplexCtx) : (padCtx c x).rate = x.rate := rfl
@[simp] theorem padCtx_phase (c : Config) (x : DuplexCtx) : (padCtx c x).phase = x.phase := rfl
@[simp] theorem padCtx_inputIndex (c : Config) (x : DuplexCtx) : (padCtx c x).inputIndex = 0 := rfl
@[simp] theorem padCtx_outputIndex (c : Config) (x : DuplexCtx) : (padCtx c x).outputIndex = 0 := rfl

@[simp] theorem feedByte_rate (c : Config) (x : DuplexCtx) (b : Byte) : (feedByte c x b).rate = x.rate := by
  unfold feedByte
  split <;> rfl

@[simp] theorem feedByte_phase (c : Config) (x : DuplexCtx) (b : Byte) : (feedByte c x b).phase = x.phase := by
  unfold feedByte
  split <;> rfl

/-- Bytes for which there is room are XORed in as a run. -/
theorem foldl_feedByte_room (c : Config) (bs : List Byte) (x : DuplexCtx) (h : x.inputIndex + bs.length ≤ x.rate - 1) :
    bs.foldl (feedByte c) x =
      { x with A := xorRun x.A x.inputIndex bs, inputIndex := x.inputIndex + bs.length } := by
  induction bs generalizing x with
  | nil => rfl
  | cons b bs ih =>
    rw [List.length_cons] at h
    have hne : ¬x.inputIndex = x.rate - 1 := by omega
    have hb : feedByte c x b = { x with A := xorByte x.A x.inputIndex b, inputIndex := x.inputIndex + 1 } := by
      simp only [feedByte, if_neg hne]
    rw [List.foldl_cons, hb, ih _ (by show x.inputIndex + 1 + bs.length ≤ x.rate - 1; omega), List.length_cons, xorRun]
    simp only [Nat.add_assoc, Nat.add_comm 1]

/-- A full block met with a byte to write is padded and permuted before the byte is written. -/
theorem foldl_feedByte_full (c : Config) (bs : List Byte) (x : DuplexCtx) (hb : bs ≠ []) (hr : 0 < x.rate - 1)
    (h : x.inputIndex = x.rate - 1) : bs.foldl (feedByte c) x = bs.foldl (feedByte c) (padCtx c x) := by
  cases bs with
  | nil => exact absurd rfl hb
  | cons b bs =>
    have h0 : ¬(padCtx c x).inputIndex = (padCtx c x).rate - 1 := by simp; omega
    rw [List.foldl_cons, List.foldl_cons]
    congr 1
    simp only [feedByte, if_pos h, if_neg h0]

theorem padIfFull_duplex (c : Config) (s : State) (hi : s.duplex.inputIndex ≤ s.duplex.rate - 1) :
    (padIfFull c s).duplex = if s.duplex.inputIndex = s.duplex.rate - 1 then padCtx c s.duplex else s.duplex := by
  rw [padIfFull]
  by_cases h : s.duplex.inputIndex = s.duplex.rate - 1
  · rw [if_pos h, if_pos (by omega), padPermute_duplex]
  · rw [if_neg h, if_neg (by omega)]

theorem padIfFull_trace (c : Config) (s : State) (hi : s.duplex.inputIndex ≤ s.duplex.rate - 1) :
    (padIfFull c s).trace =
      s.trace ++ List.replicate (if s.duplex.inputIndex = s.duplex.rate - 1 then 1 else 0) (.perm .duplex) := by
  rw [padIfFull]
  by_cases h : s.duplex.inputIndex = s.duplex.rate - 1
  · rw [if_pos h, if_pos (by omega), padPermute_trace, List.replicate_one]
  · rw [if_neg h, if_neg (by omega), List.replicate_zero, List.append_nil]

/-- Everything the loop of `FeedBytes` does to the context and the trace (41_duplex.md R66, R67). -/
theorem feedLoop_spec (c : Config) (bound : Nat) (data : List Byte) (s : State) (hr : 0 < s.duplex.rate - 1)
    (hi : s.duplex.inputIndex ≤ s.duplex.rate - 1) (hb : data.length ≤ bound) :
    (feedLoop c bound data s).duplex = data.foldl (feedByte c) s.duplex ∧
    (data ≠ [] →
      (feedLoop c bound data s).duplex.inputIndex =
        (s.duplex.inputIndex + data.length - 1) % (s.duplex.rate - 1) + 1 ∧
      (feedLoop c bound data s).trace =
        s.trace ++ List.replicate ((s.duplex.inputIndex + data.length - 1) / (s.duplex.rate - 1)) (.perm .duplex)) := by
  induction bound generalizing data s with
  | zero =>
    have : data = [] := List.length_eq_zero_iff.mp (Nat.le_zero.mp hb)
    subst this
    exact ⟨rfl, fun h => absurd rfl h⟩
  | succ bound ih =>
    rw [feedLoop]
    by_cases hd : data = []
    · subst hd
      exact ⟨rfl, fun h => absurd rfl h⟩
    · have hlen : data.length ≠ 0 := fun h => hd (List.length_eq_zero_iff.mp h)
      rw [if_neg hlen]
      dsimp only
      have hp := padIfFull_duplex c s hi
      have ht := padIfFull_trace c s hi
      generalize padIfFull c s = p at hp ht ⊢
      have hpr : p.duplex.rate = s.duplex.rate := by rw [hp]; split <;> rfl
      have hpi : p.duplex.inputIndex = if s.duplex.inputIndex = s.duplex.rate - 1 then 0 else s.duplex.inputIndex := by
        rw [hp]; split <;> rfl
      have hfold : data.foldl (feedByte c) s.duplex = data.foldl (feedByte c) p.duplex := by
        rw [hp]
        split
        · exact foldl_feedByte_full c data _ hd hr ‹_›
        · rfl
      generalize hk : min (p.duplex.rate - 1 - p.duplex.inputIndex) data.length = k
      have hlt : (data.take k).length = k := by rw [List.length_take]; omega
      have hk1 : 0 < k := by split at hpi <;> omega
      have hw : (writeBytes (data.take k) p).duplex = (data.take k).foldl (feedByte c) p.duplex := by
        rw [foldl_feedByte_room c _ _ (by rw [hlt]; omega)]
        rfl
      have hwr : (writeBytes (data.take k) p).duplex.rate = s.duplex.rate := hpr
      have hwi : (writeBytes (data.take k) p).duplex.inputIndex = p.duplex.inputIndex + k := by
        show p.duplex.inputIndex + (data.take k).length = _
        rw [hlt]
      obtain ⟨h1, h2⟩ := ih (data.drop k) (writeBytes (data.take k) p) (by rw [hwr]; exact hr)
        (by rw [hwr, hwi]; omega) (by rw [List.length_drop]; omega)
      refine ⟨by rw [h1, hw, ← List.foldl_append, List.take_append_drop, hfold], fun _ => ?_⟩
      have hwt : (writeBytes (data.take k) p).trace = p.trace := rfl
      by_cases hkd : data.length = k
      · have hnil : data.drop k = [] := List.drop_eq_nil_of_le (by omega)
        rw [hnil] at h1 ⊢
        have hz : feedLoop c bound [] (writeBytes (data.take k) p) = writeBytes (data.take k) p := by
          cases bound <;> simp [feedLoop]
        rw [hz, hwi, hwt, ht, hpi]
        split
        · have e : s.duplex.inputIndex + data.length - 1 = (k - 1) + (s.duplex.rate - 1) := by omega
          have e2 : k - 1 < s.duplex.rate - 1 := by omega
          rw [e, Nat.add_mod_right, Nat.mod_eq_of_lt e2, Nat.add_div_right _ hr, Nat.div_eq_of_lt e2]
          exact ⟨by omega, rfl⟩
        · rename_i hne
          rw [if_neg hne] at hpi
          have e2 : s.duplex.inputIndex + data.length - 1 < s.duplex.rate - 1 := by omega
          rw [Nat.mod_eq_of_lt e2, Nat.div_eq_of_lt e2]
          exact ⟨by omega, rfl⟩
      · have hfull : p.duplex.inputIndex + k = s.duplex.rate - 1 := by omega
        have hdn : data.drop k ≠ [] := by
          intro h
          have := congrArg List.length h
          rw [List.length_drop] at this
          simp at this
          omega
        obtain ⟨h3, h4⟩ := h2 hdn
        rw [h3, h4, hwr, hwi, hwt, ht, hfull, List.length_drop]
        split
        · rename_i hf
          rw [if_pos hf] at hpi
          have e : s.duplex.rate - 1 + (data.length - k) - 1 = data.length - 1 := by omega
          have e2 : s.duplex.inputIndex + data.length - 1 = (data.length - 1) + (s.duplex.rate - 1) := by omega
          rw [e, e2, Nat.add_mod_right, Nat.add_div_right _ hr, List.append_assoc, List.replicate_append_replicate,
            Nat.add_comm 1]
          exact ⟨rfl, rfl⟩
        · rename_i hf
          rw [if_neg hf] at hpi
          have e : s.duplex.rate - 1 + (data.length - k) - 1 = s.duplex.inputIndex + data.length - 1 := by omega
          rw [e, List.replicate_zero, List.append_nil]
          exact ⟨rfl, rfl⟩

theorem fetchBytes_add (c : Config) (a b : Nat) (x : DuplexCtx) :
    fetchBytes c (a + b) x =
      ((fetchBytes c a x).1 ++ (fetchBytes c b (fetchBytes c a x).2).1, (fetchBytes c b (fetchBytes c a x).2).2) := by
  induction a generalizing x with
  | zero => simp [fetchBytes]
  | succ a ih =>
    rw [Nat.add_right_comm, fetchBytes, fetchBytes]
    dsimp only
    rw [ih]
    rfl

/-- Bytes that are readable are read as a run. -/
theorem fetchBytes_room (c : Config) (n : Nat) (x : DuplexCtx) (h : x.outputIndex + n ≤ x.rate) :
    fetchBytes c n x = (readRun x.A x.outputIndex n, { x with outputIndex := x.outputIndex + n }) := by
  induction n generalizing x with
  | zero => simp [fetchBytes, readRun]
  | succ n ih =>
    have hne : ¬x.outputIndex = x.rate := by omega
    rw [fetchBytes, fetchByte]
    simp only [if_neg hne]
    rw [ih _ (by show x.outputIndex + 1 + n ≤ x.rate; omega), Nat.add_comm n 1, readRun_add]
    simp [readRun, Nat.add_assoc]

/-- A used-up block met with a byte wanted is padded and permuted before the byte is read. -/
theorem fetchBytes_spent (c : Config) (n : Nat) (x : DuplexCtx) (hn : 0 < n) (hr : 0 < x.rate) (h : x.outputIndex = x.rate) :
    fetchBytes c n x = fetchBytes c n (padCtx c x) := by
  cases n with
  | zero => omega
  | succ n =>
    have h0 : ¬(padCtx c x).outputIndex = (padCtx c x).rate := by simp; omega
    have : fetchByte c x = fetchByte c (padCtx c x) := by simp only [fetchByte, if_pos h, if_neg h0]
    rw [fetchBytes, fetchBytes, this]

theorem padIfSpent_duplex (c : Config) (s : State) (hi : s.duplex.outputIndex ≤ s.duplex.rate) :
    (padIfSpent c s).duplex = if s.duplex.outputIndex = s.duplex.rate then padCtx c s.duplex else s.duplex := by
  rw [padIfSpent]
  by_cases h : s.duplex.outputIndex = s.duplex.rate
  · rw [if_pos h, if_pos (by omega), padPermute_duplex]
  · rw [if_neg h, if_neg (by omega)]

theorem padIfSpent_trace (c : Config) (s : State) (hi : s.duplex.outputIndex ≤ s.duplex.rate) :
    (padIfSpent c s).trace =
      s.trace ++ List.replicate (if s.duplex.outputIndex = s.duplex.rate then 1 else 0) (.perm .duplex) := by
  rw [padIfSpent]
  by_cases h : s.duplex.outputIndex = s.duplex.rate
  · rw [if_pos h, if_pos (by omega), padPermute_trace, List.replicate_one]
  · rw [if_neg h, if_neg (by omega), List.replicate_zero, List.append_nil]

/-- Everything the loop of `DUPLEX_FETCH` does: its output, the context and the trace (41_duplex.md R68, R69). -/
theorem fetchLoop_spec (c : Config) (bound rem : Nat) (s : State) (hr : 0 < s.duplex.rate)
    (ho : s.duplex.outputIndex ≤ s.duplex.rate) (hb : rem ≤ bound) :
    ((fetchLoop c bound rem s).1, (fetchLoop c bound rem s).2.duplex) = fetchBytes c rem s.duplex ∧
    (fetchLoop c bound rem s).1.length = rem ∧
    (0 < rem →
      (fetchLoop c bound rem s).2.duplex.outputIndex = (s.duplex.outputIndex + rem - 1) % s.duplex.rate + 1 ∧
      (fetchLoop c bound rem s).2.duplex.inputIndex =
        (if (s.duplex.outputIndex + rem - 1) / s.duplex.rate = 0 then s.duplex.inputIndex else 0) ∧
      (fetchLoop c bound rem s).2.trace =
        s.trace ++ List.replicate ((s.duplex.outputIndex + rem - 1) / s.duplex.rate) (.perm .duplex)) := by
  induction bound generalizing rem s with
  | zero =>
    have : rem = 0 := Nat.le_zero.mp hb
    subst this
    exact ⟨rfl, rfl, fun h => absurd h (by omega)⟩
  | succ bound ih =>
    rw [fetchLoop]
    by_cases hd : rem = 0
    · subst hd
      exact ⟨rfl, rfl, fun h => absurd h (by omega)⟩
    · rw [if_neg hd]
      dsimp only
      have hp := padIfSpent_duplex c s ho
      have ht := padIfSpent_trace c s ho
      generalize padIfSpent c s = p at hp ht ⊢
      have hpr : p.duplex.rate = s.duplex.rate := by rw [hp]; split <;> rfl
      have hpo : p.duplex.outputIndex = if s.duplex.outputIndex = s.duplex.rate then 0 else s.duplex.outputIndex := by
        rw [hp]; split <;> rfl
      have hpi : p.duplex.inputIndex = if s.duplex.outputIndex = s.duplex.rate then 0 else s.duplex.inputIndex := by
        rw [hp]; split <;> rfl
      have hfold : fetchBytes c rem s.duplex = fetchBytes c rem p.duplex := by
        rw [hp]
        split
        · exact fetchBytes_spent c rem _ (by omega) hr ‹_›
        · rfl
      generalize hk : min (p.duplex.rate - p.duplex.outputIndex) rem = k
      have hk1 : 0 < k := by split at hpo <;> omega
      have hroom : p.duplex.outputIndex + k ≤ p.duplex.rate := by split at hpo <;> omega
      obtain ⟨h1, hl, h2⟩ := ih (rem - k) (p.setOutputIndex (p.duplex.outputIndex + k)) (by rw [← hpr] at hr; exact hr)
        hroom (by omega)
      have hrr : (p.setOutputIndex (p.duplex.outputIndex + k)).duplex.rate = s.duplex.rate := hpr
      have hoo : (p.setOutputIndex (p.duplex.outputIndex + k)).duplex.outputIndex = p.duplex.outputIndex + k := rfl
      have hii : (p.setOutputIndex (p.duplex.outputIndex + k)).duplex.inputIndex = p.duplex.inputIndex := rfl
      have htt : (p.setOutputIndex (p.duplex.outputIndex + k)).trace = p.trace := rfl
      have hcut : rem = k + (rem - k) := by omega
      refine ⟨?_, ?_, fun _ => ?_⟩
      · rw [hfold]
        conv_rhs => rw [hcut, fetchBytes_add, fetchBytes_room c k p.duplex hroom]
        rw [Prod.ext_iff] at h1
        exact Prod.ext (by rw [h1.1]; rfl) h1.2
      · rw [List.length_append, length_readRun, hl]
        omega
      · by_cases hkd : rem = k
        · have hz : rem - k = 0 := by omega
          have hz2 : fetchLoop c bound 0 (p.setOutputIndex (p.duplex.outputIndex + k)) =
              ([], p.setOutputIndex (p.duplex.outputIndex + k)) := by cases bound <;> simp [fetchLoop]
          rw [hz, hz2]
          dsimp only
          rw [hoo, hii, htt, ht, hpo, hpi]
          split
          · rename_i hf
            rw [if_pos hf] at hpo
            have e : s.duplex.outputIndex + rem - 1 = (k - 1) + s.duplex.rate := by omega
            have e2 : k - 1 < s.duplex.rate := by omega
            rw [e, Nat.add_mod_right, Nat.mod_eq_of_lt e2, Nat.add_div_right _ hr, Nat.div_eq_of_lt e2]
            exact ⟨by omega, rfl, rfl⟩
          · rename_i hf
            rw [if_neg hf] at hpo
            have e2 : s.duplex.outputIndex + rem - 1 < s.duplex.rate := by omega
            rw [Nat.mod_eq_of_lt e2, Nat.div_eq_of_lt e2]
            exact ⟨by omega, by simp, rfl⟩
        · have hfull : p.duplex.outputIndex + k = s.duplex.rate := by omega
          obtain ⟨h3, h4, h5⟩ := h2 (by omega)
          have hpos : ¬(s.duplex.rate + (rem - k) - 1) / s.duplex.rate = 0 := by
            rw [Nat.div_eq_zero_iff]
            omega
          rw [h3, h4, h5, hrr, hoo, htt, ht, hfull, if_neg hpos]
          by_cases hf : s.duplex.outputIndex = s.duplex.rate
          · rw [if_pos hf] at hpo ⊢
            have e : s.duplex.rate + (rem - k) - 1 = rem - 1 := by omega
            have e2 : s.duplex.outputIndex + rem - 1 = (rem - 1) + s.duplex.rate := by omega
            rw [e, e2, Nat.add_mod_right, Nat.add_div_right _ hr, List.append_assoc, List.replicate_append_replicate,
              Nat.add_comm 1]
            exact ⟨rfl, by simp, rfl⟩
          · rw [if_neg hf] at hpo ⊢
            have e : s.duplex.rate + (rem - k) - 1 = s.duplex.outputIndex + rem - 1 := by omega
            rw [e] at hpos ⊢
            rw [List.replicate_zero, List.append_nil, if_neg hpos]
            exact ⟨rfl, rfl, rfl⟩

/-- `FeedBytes` of bytes for which there is room: one run of XORs, no permutation (41_duplex.md R66). -/
theorem feedBytes_room (c : Config) (bs : List Byte) (s : State) (hn : bs ≠ [])
    (h : s.duplex.inputIndex + bs.length ≤ s.duplex.rate - 1) :
    (feedBytes c bs s).duplex =
      { s.duplex with
        A := xorRun s.duplex.A s.duplex.inputIndex bs
        inputIndex := s.duplex.inputIndex + bs.length
        outputIndex := s.duplex.rate } ∧
    (feedBytes c bs s).trace = s.trace := by
  have hlen : bs.length ≠ 0 := fun e => hn (List.length_eq_zero_iff.mp e)
  obtain ⟨h1, h2⟩ := feedLoop_spec c bs.length bs s (by omega) (by omega) (le_refl _)
  have hz : (s.duplex.inputIndex + bs.length - 1) / (s.duplex.rate - 1) = 0 := Nat.div_eq_of_lt (by omega)
  rw [feedBytes, if_neg hlen]
  refine ⟨?_, ?_⟩
  · rw [State.setOutputIndex_duplex, h1, foldl_feedByte_room c bs _ h]
  · rw [State.setOutputIndex_trace, (h2 hn).2, hz, List.replicate_zero, List.append_nil]

/-- From `s` to `t`, what a reseed may touch: the duplex context's lanes and indices, the entropy source and the
trace. -/
structure OnlyReseed (s t : State) : Prop where
  sponge : t.sponge = s.sponge
  rate : t.duplex.rate = s.duplex.rate
  phase : t.duplex.phase = s.duplex.phase
  responses : t.responses = s.responses
  inbox : t.inbox = s.inbox
  resetDraws : t.resetDraws = s.resetDraws

theorem OnlyReseed.refl (s : State) : OnlyReseed s s := ⟨rfl, rfl, rfl, rfl, rfl, rfl⟩

theorem OnlyReseed.trans {s t u : State} (h : OnlyReseed s t) (g : OnlyReseed t u) : OnlyReseed s u :=
  ⟨g.sponge.trans h.sponge, g.rate.trans h.rate, g.phase.trans h.phase, g.responses.trans h.responses,
    g.inbox.trans h.inbox, g.resetDraws.trans h.resetDraws⟩

theorem OnlyDuplex.toReseed {s t : State} (h : OnlyDuplex s t) : OnlyReseed s t :=
  ⟨h.sponge, h.rate, h.phase, h.responses, h.inbox, h.resetDraws⟩

/-- Everything `EntFill` does besides its answer. -/
theorem entFill_only (c : Config) (n : Nat) (s : State) :
    OnlyReseed s (entFill c n s).2 ∧ (entFill c n s).2.duplex = s.duplex ∧
    (entFill c n s).2.trace = s.trace ++ [.ent n] ∧
    ∀ bs, (entFill c n s).1 = some bs → bs.length = n := by
  rcases entFill_cases c n s with ⟨a, rest, _, h⟩ | ⟨_, h⟩ <;> rw [h]
  · exact ⟨⟨rfl, rfl, rfl, rfl, rfl, rfl⟩, rfl, rfl, fun bs hb => EntAnswer.length_of_forRequest hb⟩
  · exact ⟨⟨rfl, rfl, rfl, rfl, rfl, rfl⟩, rfl, rfl, fun bs hb => length_of_freeAnswer hb⟩

/-- Where the iterations of a reseed leave the context (41_duplex.md R72, R74). -/
theorem reseedLoop_cases (c : Config) (iters : Nat) (s : State) (hr : 0 < s.duplex.rate - 1) :
    OnlyReseed s (reseedLoop c iters s).2 ∧
    ((reseedLoop c iters s).1 = true →
      (reseedLoop c iters s).2.trace = s.trace ++ reseedEvents s.duplex.rate iters ∧
      (0 < iters →
        (reseedLoop c iters s).2.duplex.inputIndex = s.duplex.rate - 1 ∧
        (reseedLoop c iters s).2.duplex.outputIndex = s.duplex.rate)) ∧
    ((reseedLoop c iters s).1 = false →
      (∃ k, 1 ≤ k ∧ k ≤ iters ∧ (reseedLoop c iters s).2.trace = s.trace ++ reseedEvents s.duplex.rate k) ∧
      (reseedLoop c iters s).2.duplex.inputIndex = 0 ∧ (reseedLoop c iters s).2.duplex.outputIndex = 0) := by
  induction iters generalizing s with
  | zero =>
    refine ⟨.refl s, fun _ => ⟨by simp [reseedLoop, reseedEvents], fun h => absurd h (by omega)⟩, fun h => ?_⟩
    simp [reseedLoop] at h
  | succ iters ih =>
    rw [reseedLoop]
    have hpr : (padPermute c s).duplex.rate = s.duplex.rate := rfl
    rw [hpr]
    obtain ⟨ho, hd, ht, hl⟩ := entFill_only c (s.duplex.rate - 1) (padPermute c s)
    have ho' := (onlyDuplex_padPermute c s).toReseed.trans ho
    have ht' : (entFill c (s.duplex.rate - 1) (padPermute c s)).2.trace = s.trace ++ reseedEvents s.duplex.rate 1 := by
      rw [ht, padPermute_trace]
      simp [reseedEvents]
    generalize entFill c (s.duplex.rate - 1) (padPermute c s) = e at *
    obtain ⟨a, u⟩ := e
    cases a with
    | none =>
      dsimp only at *
      refine ⟨ho', fun h => ?_, fun _ => ⟨⟨1, by omega, by omega, ht'⟩, ?_, ?_⟩⟩
      · simp at h
      · rw [hd, padPermute_duplex, padCtx_inputIndex]
      · rw [hd, padPermute_duplex, padCtx_outputIndex]
    | some bs =>
      dsimp only at *
      have hlen := hl bs rfl
      have hne : bs ≠ [] := by
        intro h
        rw [h] at hlen
        simp at hlen
        omega
      have hu0 : u.duplex.inputIndex = 0 := by rw [hd, padPermute_duplex, padCtx_inputIndex]
      have hur : u.duplex.rate = s.duplex.rate := by rw [hd]; rfl
      obtain ⟨hf, hft⟩ := feedBytes_room c bs u hne (by rw [hu0, hur]; omega)
      have hfr : (feedBytes c bs u).duplex.rate = s.duplex.rate := by rw [hf, hur]
      obtain ⟨g1, g2, g3⟩ := ih (feedBytes c bs u) (by rw [hfr]; exact hr)
      rw [hfr] at g2 g3
      have hj : ∀ k, reseedEvents s.duplex.rate 1 ++ reseedEvents s.duplex.rate k = reseedEvents s.duplex.rate (k + 1) := by
        intro k
        simp [reseedEvents, List.replicate_succ]
      refine ⟨(ho'.trans (onlyDuplex_feedBytes c bs u).toReseed).trans g1, fun h => ?_, fun h => ?_⟩
      · obtain ⟨k1, k2⟩ := g2 h
        refine ⟨by rw [k1, hft, ht', List.append_assoc, hj], fun _ => ?_⟩
        cases iters with
        | zero =>
          show (feedBytes c bs u).duplex.inputIndex = _ ∧ (feedBytes c bs u).duplex.outputIndex = _
          rw [hf]
          exact ⟨show u.duplex.inputIndex + bs.length = _ by omega, hur⟩
        | succ iters => exact k2 (by omega)
      · obtain ⟨⟨k, k1, k2, k3⟩, k4⟩ := g3 h
        exact ⟨⟨k + 1, by omega, by omega, by rw [k3, hft, ht', List.append_assoc, hj]⟩, k4⟩

/-- `EntFill` takes the entropy source's next answer (42_collaborators.md R86, R87). -/
theorem entFill_eq (c : Config) (n : Nat) (s : State) :
    entFill c n s = (entAnswer c s n 0, (s.afterRequests 1).logEvent (.ent n)) := by
  rcases entFill_cases c n s with ⟨a, rest, hs, h⟩ | ⟨hs, h⟩ <;> rw [h]
  · simp [entAnswer, hs, State.afterRequests, State.setEntScript, State.logEvent]
  · simp [entAnswer, hs, State.afterRequests, State.nextEntDraw, State.logEvent]

theorem entAnswer_afterRequests (c : Config) (s : State) (n j k : Nat) :
    entAnswer c (s.afterRequests j) n k = entAnswer c s n (j + k) := by
  rw [entAnswer, entAnswer, State.afterRequests]
  simp only [List.getElem?_drop, List.length_drop]
  rcases hd : s.entScript[j + k]? with _ | a
  · have hl := List.getElem?_eq_none_iff.mp hd
    rw [show s.entDraws + (j - s.entScript.length) + (k - (s.entScript.length - j)) =
      s.entDraws + (j + k - s.entScript.length) by omega]
  · rfl

theorem afterRequests_afterRequests (s : State) (j k : Nat) :
    (s.afterRequests j).afterRequests k = s.afterRequests (j + k) := by
  simp only [State.afterRequests, List.drop_drop, List.length_drop]
  rw [show s.entDraws + (j - s.entScript.length) + (k - (s.entScript.length - j)) =
    s.entDraws + (j + k - s.entScript.length) by omega]

/-- One iteration of a reseed whose request is met: pad, permute, seed (41_duplex.md R72). -/
theorem reseedLoop_seed (c : Config) (iters : Nat) (s : State) (e : List Byte)
    (hs : entAnswer c s (s.duplex.rate - 1) 0 = some e) (he : e.length = s.duplex.rate - 1) (hr : 0 < s.duplex.rate - 1) :
    ∃ t : State, reseedLoop c (iters + 1) s = reseedLoop c iters t ∧
      t = { s.afterRequests 1 with
            duplex := { s.duplex with
              A := reseedTurn c s.duplex.rate s.duplex.inputIndex s.duplex.A e
              inputIndex := s.duplex.rate - 1
              outputIndex := s.duplex.rate }
            trace := s.trace ++ reseedEvents s.duplex.rate 1 } := by
  rw [reseedLoop]
  have hpr : (padPermute c s).duplex.rate = s.duplex.rate := rfl
  have hpa : entAnswer c (padPermute c s) (s.duplex.rate - 1) 0 = some e := hs
  rw [hpr, entFill_eq, hpa]
  refine ⟨_, rfl, ?_⟩
  have hne : e ≠ [] := by
    intro h
    rw [h] at he
    simp at he
    omega
  have hroom : (((padPermute c s).afterRequests 1).logEvent (.ent (s.duplex.rate - 1))).duplex.inputIndex + e.length ≤
      (((padPermute c s).afterRequests 1).logEvent (.ent (s.duplex.rate - 1))).duplex.rate - 1 := by
    show 0 + e.length ≤ s.duplex.rate - 1
    omega
  obtain ⟨h1, h2⟩ := feedBytes_room c e _ hne hroom
  have ho := onlyDuplex_feedBytes c e (((padPermute c s).afterRequests 1).logEvent (.ent (s.duplex.rate - 1)))
  generalize feedBytes c e (((padPermute c s).afterRequests 1).logEvent (.ent (s.duplex.rate - 1))) = t at *
  obtain ⟨a1, a2, a3, a4, a5, a6, a7, a8⟩ := t
  have b1 := ho.sponge
  have b4 := ho.responses
  have b5 := ho.inbox
  have b6 := ho.entScript
  have b7 := ho.entDraws
  have b8 := ho.resetDraws
  dsimp only at *
  subst h1 h2 b1 b4 b5 b6 b7 b8
  simp [padPermute, reseedTurn, reseedEvents, permuteDuplex, he, State.afterRequests]

/-- One iteration of a reseed whose request is not met (41_duplex.md R74). -/
theorem reseedLoop_fail (c : Config) (iters : Nat) (s : State) (hs : entAnswer c s (s.duplex.rate - 1) 0 = none) :
    reseedLoop c (iters + 1) s =
      (false, ((padPermute c s).afterRequests 1).logEvent (.ent (s.duplex.rate - 1))) := by
  rw [reseedLoop]
  have hpr : (padPermute c s).duplex.rate = s.duplex.rate := rfl
  have hpa : entAnswer c (padPermute c s) (s.duplex.rate - 1) 0 = none := hs
  rw [hpr, entFill_eq, hpa]

/-- A met answer has exactly the requested length (42_collaborators.md R86(a)). -/
theorem length_of_entAnswer {c : Config} {s : State} {n k : Nat} {e : List Byte} (h : entAnswer c s n k = some e) :
    e.length = n := by
  rw [entAnswer] at h
  split at h
  · exact EntAnswer.length_of_forRequest h
  · exact length_of_freeAnswer h

end Sys2Proof.Machine
end

