-- ==== Sys2Proof/Laws/Sponge.lean ====
section
/-! SUPPORT. What the Sponge Engine's shared steps do (spec 40_sponge.md R53 to R55). -/

namespace Sys2Proof.Machine

theorem absorbBlock_sponge (c : Config) (b : List Byte) (s : State) :
    (absorbBlock c b s).sponge = { s.sponge with A := c.perm (xorRun s.sponge.A 0 b) } := rfl

theorem onlySponge_absorbBlock (c : Config) (b : List Byte) (s : State) : OnlySponge s (absorbBlock c b s) :=
  (onlySponge_setA s _).trans (onlySponge_permute c _)

/-- Absorbing the first block of `M`, then the rest. -/
theorem absorbAll_step (P : Lanes → Lanes) {r : Nat} (A : Lanes) {M : List Byte} (hr : 0 < r) (h : r ≤ M.length) :
    absorbAll P r A M = absorbAll P r (P (xorRun A 0 (M.take r))) (M.drop r) := by
  have hd : M.length / r = (M.drop r).length / r + 1 := by
    rw [List.length_drop, Nat.div_eq_sub_div hr h]
  have hb : ∀ k, blockAt r M (k + 1) = blockAt r (M.drop r) k := by
    intro k
    rw [blockAt, blockAt, List.drop_drop, Nat.add_mul, Nat.one_mul, Nat.add_comm]
  have h0 : blockAt r M 0 = M.take r := by simp [blockAt]
  rw [absorbAll, hd, List.range_succ_eq_map, List.foldl_cons, List.foldl_map, h0]
  simp only [Nat.succ_eq_add_one, hb]
  rfl

theorem absorbAll_short (P : Lanes → Lanes) {r : Nat} (A : Lanes) {M : List Byte} (h : M.length < r) :
    absorbAll P r A M = A := by simp [absorbAll, Nat.div_eq_of_lt h]

/-- The loop of step 2 absorbs every whole rate block and leaves the rest; the buffer and the count are untouched
(40_sponge.md R53). -/
theorem absorbWhole_spec (c : Config) (bound : Nat) (M : List Byte) (s : State) (hr : 0 < s.sponge.rate)
    (hb : M.length ≤ bound) :
    (absorbWhole c bound M s).1 = M.drop (M.length / s.sponge.rate * s.sponge.rate) ∧
    (absorbWhole c bound M s).2.sponge =
      { s.sponge with A := absorbAll c.perm s.sponge.rate s.sponge.A M } ∧
    (absorbWhole c bound M s).2.trace = s.trace ++ List.replicate (M.length / s.sponge.rate) (.perm .sponge) := by
  induction bound generalizing M s with
  | zero =>
    have : M = [] := List.length_eq_zero_iff.mp (Nat.le_zero.mp hb)
    subst this
    simp [absorbWhole, absorbAll]
  | succ bound ih =>
    rw [absorbWhole]
    by_cases h : s.sponge.rate ≤ M.length
    · rw [if_pos h]
      have hs := absorbBlock_sponge c (M.take s.sponge.rate) s
      have hrate : (absorbBlock c (M.take s.sponge.rate) s).sponge.rate = s.sponge.rate := by rw [hs]
      have hl : (M.drop s.sponge.rate).length ≤ bound := by rw [List.length_drop]; omega
      obtain ⟨h1, h2, h3⟩ := ih (M.drop s.sponge.rate) (absorbBlock c (M.take s.sponge.rate) s) (by rw [hrate]; exact hr) hl
      have hd : M.length / s.sponge.rate = (M.drop s.sponge.rate).length / s.sponge.rate + 1 := by
        rw [List.length_drop, Nat.div_eq_sub_div hr h]
      rw [h1, h2, h3, hrate, absorbAll_step c.perm s.sponge.A hr h, hd, hs]
      refine ⟨by rw [List.drop_drop, Nat.add_mul, Nat.one_mul, Nat.add_comm], rfl, ?_⟩
      rw [List.replicate_succ]
      simp [absorbBlock]
    · rw [if_neg h]
      have hz : M.length / s.sponge.rate = 0 := Nat.div_eq_of_lt (by omega)
      simp [hz, absorbAll]

theorem onlySponge_absorbWhole (c : Config) (bound : Nat) (M : List Byte) (s : State) :
    OnlySponge s (absorbWhole c bound M s).2 := by
  induction bound generalizing M s with
  | zero => exact .refl s
  | succ bound ih =>
    rw [absorbWhole]
    split
    · exact (onlySponge_absorbBlock c _ s).trans (ih _ _)
    · exact .refl s

theorem onlySponge_topUp (data : List Byte) (s : State) : OnlySponge s (topUp data s) :=
  (onlySponge_setBuf s _).trans (onlySponge_setLeftover _ _)

theorem onlySponge_absorbBuffer (c : Config) (s : State) : OnlySponge s (absorbBuffer c s) :=
  (onlySponge_absorbBlock c _ s).trans (onlySponge_setLeftover _ _)

theorem onlySponge_stash (rest : List Byte) (s : State) : OnlySponge s (stash rest s) := by
  rw [stash]
  split
  · exact (onlySponge_setBuf s _).trans (onlySponge_setLeftover _ _)
  · exact .refl s

theorem onlySponge_absorbPayload (c : Config) (M : List Byte) (s : State) : OnlySponge s (absorbPayload c M s) :=
  (onlySponge_absorbWhole c M.length M s).trans (onlySponge_stash _ _)

theorem onlySponge_updateState (c : Config) (M : List Byte) (s : State) : OnlySponge s (spongeUpdateState c M s) := by
  rw [spongeUpdateState]
  split
  · split
    · exact onlySponge_topUp M s
    · exact ((onlySponge_topUp M s).trans (onlySponge_absorbBuffer c _)).trans (onlySponge_absorbPayload c _ _)
  · exact onlySponge_absorbPayload c M s

theorem onlySponge_absorbPadded (c : Config) (s : State) : OnlySponge s (absorbPadded c s) :=
  (onlySponge_setBuf s _).trans (onlySponge_absorbBlock c _ _)

theorem onlySponge_squeeze (c : Config) (bound rem : Nat) (s : State) : OnlySponge s (squeeze c bound rem s).2 := by
  induction bound generalizing rem s with
  | zero => exact .refl s
  | succ bound ih =>
    rw [squeeze]
    split
    · exact .refl s
    · dsimp only
      split
      · exact (onlySponge_permute c s).trans (ih _ _)
      · exact .refl s

/-- The squeeze loop touches only the lanes of `S`, and answers exactly the bytes asked for. -/
theorem squeeze_length (c : Config) (bound rem : Nat) (s : State) (hr : 0 < s.sponge.rate) (hb : rem ≤ bound) :
    (squeeze c bound rem s).1.length = rem := by
  induction bound generalizing rem s with
  | zero => simp [squeeze, Nat.le_zero.mp hb]
  | succ bound ih =>
    rw [squeeze]
    split
    · simp_all
    · dsimp only
      split
      · rw [List.length_append, length_readRun, ih (rem - min s.sponge.rate rem) (permuteSponge c s) hr (by omega)]
        omega
      · rw [length_readRun]
        omega

/-- Steps 2 and 3 of `SPONGE_UPDATE` on a payload that meets an empty buffer (40_sponge.md R53). -/
theorem absorbPayload_spec (c : Config) (M : List Byte) (s : State) (hr : 0 < s.sponge.rate) (h0 : s.sponge.leftover = 0) :
    (absorbPayload c M s).sponge =
      { s.sponge with
        A := absorbAll c.perm s.sponge.rate s.sponge.A M
        buf := writeBuf s.sponge.buf 0 (M.drop (M.length / s.sponge.rate * s.sponge.rate))
        leftover := M.length % s.sponge.rate } ∧
    (absorbPayload c M s).trace = s.trace ++ List.replicate (M.length / s.sponge.rate) (.perm .sponge) := by
  obtain ⟨h1, h2, h3⟩ := absorbWhole_spec c M.length M s hr (le_refl _)
  have hlen : (M.drop (M.length / s.sponge.rate * s.sponge.rate)).length = M.length % s.sponge.rate := by
    have := Nat.div_add_mod M.length s.sponge.rate
    rw [Nat.mul_comm] at this
    rw [List.length_drop]
    omega
  rw [absorbPayload, h1, stash, hlen]
  split
  · exact ⟨by rw [State.setLeftover_sponge, State.setSpongeBuf_sponge, h2], h3⟩
  · rename_i hz
    have hnil : M.drop (M.length / s.sponge.rate * s.sponge.rate) = [] := List.length_eq_zero_iff.mp (by omega)
    refine ⟨?_, h3⟩
    rw [h2, hnil, writeBuf, show M.length % s.sponge.rate = s.sponge.leftover by omega]

/-- Everything `SPONGE_UPDATE` does to the context and the trace, the empty payload included (40_sponge.md R53). -/
theorem spongeUpdateState_spec (c : Config) (data : List Byte) (s : State) (hr : 0 < s.sponge.rate)
    (hr2 : s.sponge.rate ≤ 200) (hl : s.sponge.leftover < s.sponge.rate) :
    ∃ buf : Buffer,
      (if data.length = 0 then s else spongeUpdateState c data s).sponge =
        { s.sponge with
          A := absorbAll c.perm s.sponge.rate s.sponge.A (readBuf s.sponge.buf s.sponge.leftover ++ data)
          buf := buf
          leftover := (s.sponge.leftover + data.length) % s.sponge.rate } ∧
      (if data.length = 0 then s else spongeUpdateState c data s).trace =
        s.trace ++ List.replicate ((s.sponge.leftover + data.length) / s.sponge.rate) (.perm .sponge) ∧
      ∀ j < 200, bufByte buf j =
        if j < (s.sponge.leftover + data.length) % s.sponge.rate then
          (readBuf s.sponge.buf s.sponge.leftover ++ data).getD
            ((s.sponge.leftover + data.length) / s.sponge.rate * s.sponge.rate + j) 0
        else if 0 < s.sponge.leftover ∧ s.sponge.leftover ≤ j ∧ j < s.sponge.rate ∧ j < s.sponge.leftover + data.length then
          data.getD (j - s.sponge.leftover) 0
        else bufByte s.sponge.buf j := by
  have hM : (readBuf s.sponge.buf s.sponge.leftover ++ data).length = s.sponge.leftover + data.length := by simp
  have hleft : ∀ j, j < s.sponge.leftover → (readBuf s.sponge.buf s.sponge.leftover ++ data).getD j 0 = bufByte s.sponge.buf j := by
    intro j hj
    rw [List.getD_append _ _ _ _ (by simpa using hj), getD_readBuf, if_pos hj]
  have hright : ∀ j, s.sponge.leftover ≤ j →
      (readBuf s.sponge.buf s.sponge.leftover ++ data).getD j 0 = data.getD (j - s.sponge.leftover) 0 := by
    intro j hj
    rw [List.getD_append_right _ _ _ _ (by simpa using hj), length_readBuf]
  by_cases hshort : s.sponge.leftover + data.length < s.sponge.rate
  · rw [Nat.mod_eq_of_lt hshort, Nat.div_eq_of_lt hshort, absorbAll_short c.perm _ (by rw [hM]; exact hshort)]
    simp only [List.replicate_zero, List.append_nil, Nat.zero_mul, Nat.zero_add]
    have hbytes : ∀ j < 200, bufByte (writeBuf s.sponge.buf s.sponge.leftover data) j =
        if j < s.sponge.leftover + data.length then (readBuf s.sponge.buf s.sponge.leftover ++ data).getD j 0
        else if 0 < s.sponge.leftover ∧ s.sponge.leftover ≤ j ∧ j < s.sponge.rate ∧ j < s.sponge.leftover + data.length then
          data.getD (j - s.sponge.leftover) 0
        else bufByte s.sponge.buf j := by
      intro j _
      rw [bufByte_writeBuf _ _ _ _ (by omega)]
      by_cases h1 : j < s.sponge.leftover
      · rw [if_neg (by omega), if_pos (by omega), hleft j h1]
      · by_cases h2 : j < s.sponge.leftover + data.length
        · rw [if_pos (by omega), if_pos h2, hright j (by omega)]
        · rw [if_neg (by omega), if_neg h2, if_neg (by omega)]
    refine ⟨writeBuf s.sponge.buf s.sponge.leftover data, ?_, ?_, hbytes⟩
    · by_cases hd : data.length = 0
      · have : data = [] := List.length_eq_zero_iff.mp hd
        subst this
        simp [writeBuf]
      · rw [if_neg hd, spongeUpdateState]
        have hk : topUpCount data s = data.length := by rw [topUpCount]; omega
        by_cases hlo : s.sponge.leftover > 0
        · rw [if_pos hlo]
          have ht : (topUp data s).sponge =
              { s.sponge with
                buf := writeBuf s.sponge.buf s.sponge.leftover data
                leftover := s.sponge.leftover + data.length } := by
            rw [topUp, hk, List.take_length]
            rfl
          rw [if_pos (by rw [ht]; exact hshort), ht]
        · have hz : s.sponge.leftover = 0 := by omega
          rw [if_neg hlo, (absorbPayload_spec c data s hr hz).1, absorbAll_short c.perm _ (by omega),
            Nat.mod_eq_of_lt (by omega), Nat.div_eq_of_lt (by omega), hz]
          simp
    · by_cases hd : data.length = 0
      · rw [if_pos hd]
      · rw [if_neg hd, spongeUpdateState]
        by_cases hlo : s.sponge.leftover > 0
        · have hk : topUpCount data s = data.length := by rw [topUpCount]; omega
          rw [if_pos hlo, if_pos (by show s.sponge.leftover + topUpCount data s < s.sponge.rate; omega)]
          rfl
        · have hz : s.sponge.leftover = 0 := by omega
          rw [if_neg hlo, (absorbPayload_spec c data s hr hz).2, Nat.div_eq_of_lt (by omega)]
          simp
  · have hd : data.length ≠ 0 := by omega
    rw [if_neg hd, spongeUpdateState]
    by_cases hlo : s.sponge.leftover > 0
    · rw [if_pos hlo]
      have hk : topUpCount data s = s.sponge.rate - s.sponge.leftover := by rw [topUpCount]; omega
      rw [if_neg (by show ¬s.sponge.leftover + topUpCount data s < s.sponge.rate; omega), hk]
      generalize hkk : s.sponge.rate - s.sponge.leftover = k at *
      have htl : (data.take k).length = k := by rw [List.length_take]; omega
      have ht : (topUp data s).sponge =
          { s.sponge with buf := writeBuf s.sponge.buf s.sponge.leftover (data.take k), leftover := s.sponge.rate } := by
        rw [topUp, hk, show s.sponge.leftover + k = s.sponge.rate by omega]
        rfl
      have hB : readBuf (writeBuf s.sponge.buf s.sponge.leftover (data.take k)) s.sponge.rate =
          (readBuf s.sponge.buf s.sponge.leftover ++ data).take s.sponge.rate := by
        apply readBuf_eq (by rw [List.length_take, hM]; omega)
        intro j hj
        have h0 : ((readBuf s.sponge.buf s.sponge.leftover ++ data).take s.sponge.rate).getD j 0 =
            (readBuf s.sponge.buf s.sponge.leftover ++ data).getD j 0 := by
          simp [List.getD_eq_getElem?_getD, hj]
        rw [h0, bufByte_writeBuf _ _ _ _ (by omega), htl]
        by_cases h1 : j < s.sponge.leftover
        · rw [if_neg (by omega), hleft j h1]
        · rw [if_pos (by omega), hright j (by omega)]
          have : j - s.sponge.leftover < k := by omega
          simp [List.getD_eq_getElem?_getD, this]
      have hdrop : data.drop k = (readBuf s.sponge.buf s.sponge.leftover ++ data).drop s.sponge.rate := by
        rw [List.drop_append, length_readBuf, hkk,
          List.drop_eq_nil_of_le (as := readBuf s.sponge.buf s.sponge.leftover) (by rw [length_readBuf]; omega),
          List.nil_append]
      have hu : (absorbBuffer c (topUp data s)).sponge =
          { s.sponge with
            A := c.perm (xorRun s.sponge.A 0 ((readBuf s.sponge.buf s.sponge.leftover ++ data).take s.sponge.rate))
            buf := writeBuf s.sponge.buf s.sponge.leftover (data.take k)
            leftover := 0 } := by
        rw [absorbBuffer, State.setLeftover_sponge, absorbBlock_sponge, ht, hB]
      have hut : (absorbBuffer c (topUp data s)).trace = s.trace ++ [.perm .sponge] := rfl
      have hur : (absorbBuffer c (topUp data s)).sponge.rate = s.sponge.rate := by rw [hu]
      obtain ⟨h1, h2⟩ := absorbPayload_spec c (data.drop k) (absorbBuffer c (topUp data s)) (by rw [hur]; exact hr)
        (by rw [hu])
      have hdiv : (s.sponge.leftover + data.length) / s.sponge.rate = (data.drop k).length / s.sponge.rate + 1 := by
        rw [hdrop, List.length_drop, hM, Nat.div_eq_sub_div hr (by omega)]
      have hmod : (s.sponge.leftover + data.length) % s.sponge.rate = (data.drop k).length % s.sponge.rate := by
        rw [hdrop, List.length_drop, hM, ← Nat.mod_eq_sub_mod (by omega)]
      refine ⟨writeBuf (writeBuf s.sponge.buf s.sponge.leftover (data.take k)) 0
        ((data.drop k).drop ((data.drop k).length / s.sponge.rate * s.sponge.rate)), ?_, ?_, ?_⟩
      · rw [h1, hur, hmod, absorbAll_step c.perm s.sponge.A hr (by rw [hM]; omega), ← hdrop, hu]
      · rw [h2, hur, hut, hdiv, List.append_assoc, List.replicate_succ]
        rfl
      · intro j hj
        have hrest : ((data.drop k).drop ((data.drop k).length / s.sponge.rate * s.sponge.rate)).length =
            (data.drop k).length % s.sponge.rate := by
          have := Nat.div_add_mod (data.drop k).length s.sponge.rate
          rw [Nat.mul_comm] at this
          rw [List.length_drop]
          omega
        have hmlt : (data.drop k).length % s.sponge.rate < s.sponge.rate := Nat.mod_lt _ hr
        rw [bufByte_writeBuf _ _ _ _ (by rw [hrest]; omega), bufByte_writeBuf _ _ _ _ (by omega), hrest, htl, hmod]
        by_cases h1 : j < (data.drop k).length % s.sponge.rate
        · rw [if_pos (by omega), if_pos h1, hdiv, hdrop, List.drop_drop]
          simp only [List.getD_eq_getElem?_getD, List.getElem?_drop]
          congr 2
          rw [Nat.add_mul]
          omega
        · rw [if_neg (by omega), if_neg h1]
          by_cases h2 : s.sponge.leftover ≤ j ∧ j < s.sponge.leftover + k
          · rw [if_pos h2, if_pos (by omega)]
            have : j - s.sponge.leftover < k := by omega
            simp [List.getD_eq_getElem?_getD, this]
          · rw [if_neg h2, if_neg (by omega)]
    · have hz : s.sponge.leftover = 0 := by omega
      rw [if_neg hlo]
      obtain ⟨h1, h2⟩ := absorbPayload_spec c data s hr hz
      refine ⟨writeBuf s.sponge.buf 0 (data.drop (data.length / s.sponge.rate * s.sponge.rate)), ?_, ?_, ?_⟩
      · rw [h1, hz]
        simp [readBuf]
      · rw [h2, hz, Nat.zero_add]
      · intro j hj
        have hrest : (data.drop (data.length / s.sponge.rate * s.sponge.rate)).length = data.length % s.sponge.rate := by
          have := Nat.div_add_mod data.length s.sponge.rate
          rw [Nat.mul_comm] at this
          rw [List.length_drop]
          omega
        have hmlt : data.length % s.sponge.rate < s.sponge.rate := Nat.mod_lt _ hr
        rw [bufByte_writeBuf _ _ _ _ (by rw [hrest]; omega), hrest, hz]
        simp only [Nat.zero_add, readBuf, List.range_zero, List.map_nil, List.nil_append, Nat.lt_irrefl, false_and, if_false,
          Nat.zero_le, true_and, Nat.sub_zero]
        split
        · simp [List.getD_eq_getElem?_getD]
        · rfl

/-- The bytes of the padded last block (40_sponge.md R55, R57). -/
theorem readBuf_padBuffer (x : SpongeCtx) (hr : 1 < x.rate) (hr2 : x.rate ≤ 200) (hl : x.leftover < x.rate) :
    readBuf (padBuffer x) x.rate = padMessage x.rate x.suffix (readBuf x.buf x.leftover) ∧
    (padMessage x.rate x.suffix (readBuf x.buf x.leftover)).length = x.rate ∧
    ∀ j, x.rate ≤ j → bufByte (padBuffer x) j = bufByte x.buf j := by
  have hbyte : ∀ j, bufByte (padBuffer x) j =
      if j < x.leftover then bufByte x.buf j
      else if x.rate ≤ j then bufByte x.buf j
      else (if j = x.leftover then x.suffix else 0) ||| (if j = x.rate - 1 then 0x80 else 0) := by
    intro j
    have hz : ∀ i, bufByte (zeroFillBuf (setBuf x.buf x.leftover x.suffix) (x.leftover + 1) (x.rate - (x.leftover + 1))) i =
        if x.leftover + 1 ≤ i ∧ i < x.rate then 0 else if i = x.leftover then x.suffix else bufByte x.buf i := by
      intro i
      rw [zeroFillBuf, bufByte_writeBuf _ _ _ _ (by rw [List.length_replicate]; omega), List.length_replicate,
        bufByte_setBuf _ _ _ _ (by omega)]
      by_cases h : x.leftover + 1 ≤ i ∧ i < x.rate
      · rw [if_pos (by omega), if_pos h]
        have : i - (x.leftover + 1) < x.rate - (x.leftover + 1) := by omega
        simp [List.getD_eq_getElem?_getD, this]
      · rw [if_neg (by omega), if_neg h]
    simp only [padBuffer]
    rw [bufByte_setBuf _ _ _ _ (by omega), hz, hz]
    by_cases h1 : j = x.rate - 1
    · rw [if_pos h1, if_neg (show ¬j < x.leftover by omega), if_neg (show ¬x.rate ≤ j by omega), if_pos h1]
      by_cases h2 : x.rate - 1 = x.leftover
      · rw [if_neg (by omega), if_pos h2, if_pos (by omega)]
      · rw [if_pos (by omega), if_neg (by omega)]
    · rw [if_neg h1]
      by_cases h2 : j < x.leftover
      · rw [if_neg (by omega), if_neg (by omega), if_pos h2]
      · by_cases h3 : x.rate ≤ j
        · rw [if_neg (by omega), if_neg (by omega), if_neg h2, if_pos h3]
        · rw [if_neg h2, if_neg h3, if_neg h1]
          by_cases h4 : j = x.leftover
          · rw [if_neg (by omega), if_pos h4, if_pos h4]
            simp
          · rw [if_pos (by omega), if_neg h4]
            simp
  have hmod : x.leftover % x.rate = x.leftover := Nat.mod_eq_of_lt hl
  have hlen : (padMessage x.rate x.suffix (readBuf x.buf x.leftover)).length = x.rate := by
    rw [padMessage, length_readBuf, hmod]
    split
    · simp
      omega
    · simp
      omega
  refine ⟨readBuf_eq hlen fun j hj => ?_, hlen, fun j hj => by rw [hbyte, if_neg (by omega), if_pos hj]⟩
  rw [hbyte]
  simp only [padMessage, length_readBuf, hmod]
  by_cases h1 : x.leftover = x.rate - 1
  · rw [if_pos h1]
    by_cases h2 : j < x.leftover
    · rw [if_pos h2, List.getD_append _ _ _ _ (by simpa using h2), getD_readBuf, if_pos h2]
    · have h3 : j = x.leftover := by omega
      rw [if_neg h2, if_neg (by omega), if_pos h3, if_pos (by omega), List.getD_append_right _ _ _ _ (by simp; omega),
        length_readBuf, h3]
      simp
  · rw [if_neg h1]
    simp only [List.append_assoc]
    by_cases h2 : j < x.leftover
    · rw [if_pos h2, List.getD_append _ _ _ _ (by simpa using h2), getD_readBuf, if_pos h2]
    · rw [if_neg h2, if_neg (by omega), List.getD_append_right _ _ _ _ (by simp; omega), length_readBuf]
      by_cases h3 : j = x.leftover
      · rw [if_pos h3, if_neg (by omega), h3]
        simp
      · obtain ⟨d, hd⟩ : ∃ d, j - x.leftover = d + 1 := ⟨j - x.leftover - 1, by omega⟩
        rw [if_neg h3, hd]
        by_cases h4 : j = x.rate - 1
        · have hge : (List.replicate (x.rate - x.leftover - 2) (0 : Byte)).length ≤ d := by
            rw [List.length_replicate]
            omega
          have he : d - (x.rate - x.leftover - 2) = 0 := by omega
          rw [if_pos h4, List.singleton_append, List.getD_cons_succ, List.getD_append_right _ _ _ _ hge,
            List.length_replicate, he]
          simp
        · have hlt : d < x.rate - x.leftover - 2 := by omega
          rw [if_neg h4, List.singleton_append, List.getD_cons_succ, List.getD_append _ _ _ _ (by simpa using hlt)]
          simp [List.getD_eq_getElem?_getD, hlt]

/-- `AbsorbPadded` on a legal context: the padded leftover bytes are absorbed (40_sponge.md R55). -/
theorem absorbPadded_spec (c : Config) (s : State) (hr : 1 < s.sponge.rate) (hr2 : s.sponge.rate ≤ 200)
    (hl : s.sponge.leftover < s.sponge.rate) :
    (absorbPadded c s).sponge =
      { s.sponge with
        A := c.perm (xorRun s.sponge.A 0
          (padMessage s.sponge.rate s.sponge.suffix (readBuf s.sponge.buf s.sponge.leftover)))
        buf := padBuffer s.sponge } ∧
    (absorbPadded c s).trace = s.trace ++ [.perm .sponge] := by
  refine ⟨?_, rfl⟩
  rw [absorbPadded, absorbBlock_sponge, (readBuf_padBuffer s.sponge hr hr2 hl).1]
  rfl

/-! Squeezing. -/

theorem outBlocks_zero (r : Nat) : outBlocks r 0 = 0 := by
  rw [outBlocks, Nat.zero_add, Nat.div_eq_zero_iff]
  omega

theorem outBlocks_short {r n : Nat} (hn : 0 < n) (h : n ≤ r) : outBlocks r n = 1 := by
  rw [outBlocks, show n + (r - 1) = (n - 1) + r by omega, Nat.add_div_right _ (by omega), Nat.div_eq_of_lt (by omega)]

theorem outBlocks_long {r n : Nat} (hr : 0 < r) (h : r < n) : outBlocks r n = outBlocks r (n - r) + 1 := by
  rw [outBlocks, outBlocks, ← Nat.add_div_right _ hr]
  congr 1
  omega

theorem outBlocks_pos {r n : Nat} (hr : 0 < r) (hn : 0 < n) : 0 < outBlocks r n := by
  by_cases h : n ≤ r
  · rw [outBlocks_short hn h]
    omega
  · rw [outBlocks_long hr (by omega)]
    omega

theorem squeezed_zero (P : Lanes → Lanes) (r : Nat) (T : Lanes) : squeezed P r T 0 = [] := by simp [squeezed]

theorem readRun_take (A : Lanes) (off a b : Nat) (h : b ≤ a) : (readRun A off a).take b = readRun A off b := by
  rw [readRun, readRun, ← List.map_take, List.take_range, Nat.min_eq_left h]

theorem squeezed_short (P : Lanes → Lanes) {r n : Nat} (T : Lanes) (h : n ≤ r) : squeezed P r T n = readRun T 0 n := by
  by_cases hn : n = 0
  · subst hn
    rw [squeezed_zero]
    rfl
  · rw [squeezed, outBlocks_short (by omega) h]
    simp [readRun_take _ _ _ _ h]

theorem squeezed_long (P : Lanes → Lanes) {r n : Nat} (T : Lanes) (hr : 0 < r) (h : r < n) :
    squeezed P r T n = readRun T 0 r ++ squeezed P r (P T) (n - r) := by
  rw [squeezed, squeezed, outBlocks_long hr h, List.range_succ_eq_map, List.flatMap_cons, List.flatMap_map,
    List.take_append, length_readRun, List.take_of_length_le (by simp; omega)]
  rfl

/-- Everything the squeeze loop does: its output, the lanes and the trace (40_sponge.md R55, R57). -/
theorem squeeze_spec (c : Config) (bound rem : Nat) (s : State) (hr : 0 < s.sponge.rate) (hb : rem ≤ bound) :
    (squeeze c bound rem s).1 = squeezed c.perm s.sponge.rate s.sponge.A rem ∧
    (squeeze c bound rem s).2.sponge =
      { s.sponge with A := c.perm^[outBlocks s.sponge.rate rem - 1] s.sponge.A } ∧
    (squeeze c bound rem s).2.trace = s.trace ++ List.replicate (outBlocks s.sponge.rate rem - 1) (.perm .sponge) := by
  induction bound generalizing rem s with
  | zero =>
    have : rem = 0 := Nat.le_zero.mp hb
    subst this
    simp [squeeze, squeezed_zero, outBlocks_zero]
  | succ bound ih =>
    rw [squeeze]
    by_cases hz : rem = 0
    · subst hz
      simp [squeezed_zero, outBlocks_zero]
    · rw [if_neg hz]
      dsimp only
      by_cases h : rem ≤ s.sponge.rate
      · rw [if_neg (by omega), Nat.min_eq_right h, outBlocks_short (by omega) h, squeezed_short c.perm _ h]
        simp
      · obtain ⟨h1, h2, h3⟩ := ih (rem - s.sponge.rate) (permuteSponge c s) hr (by omega)
        have hpos := outBlocks_pos (n := rem - s.sponge.rate) hr (by omega)
        obtain ⟨m, hm⟩ : ∃ m, outBlocks s.sponge.rate (rem - s.sponge.rate) = m + 1 :=
          ⟨_, (Nat.sub_add_cancel hpos).symm⟩
        have hrp : (permuteSponge c s).sponge.rate = s.sponge.rate := rfl
        rw [hrp, hm] at h2 h3
        rw [hrp] at h1
        rw [Nat.min_eq_left (by omega), if_pos (by omega), outBlocks_long hr (by omega), hm,
          squeezed_long c.perm _ hr (by omega), h1, h2, h3]
        refine ⟨rfl, rfl, ?_⟩
        rw [permuteSponge_trace, List.append_assoc]
        rfl

end Sys2Proof.Machine
end

