-- ==== Sys2Proof/Laws/Commands.lean ====
section
/-! SUPPORT. Everything each command can do when it answers a next state: one inversion lemma per command. -/

namespace Sys2Proof.Machine

theorem spongeInit_next {rb : BitVec 16} {sf : Byte} {s t : State} (h : spongeInit rb sf s = .next t) :
    (spongeInitRejects rb sf = true ∧ t = s.respond ⟨Status.errConfig.word, []⟩) ∨
    (spongeInitRejects rb sf = false ∧
      t = (s.setSponge ⟨Lanes.zero, Buffer.zero, 0, rb.toNat / 8, sf, .absorbing⟩).respond ⟨Status.ok.word, []⟩) := by
  rw [spongeInit] at h
  split at h
  · rename_i hr
    exact .inl ⟨hr, by simpa [fail_eq] using h.symm⟩
  · rename_i hr
    exact .inr ⟨by simpa using hr, by simpa [complete_eq] using h.symm⟩

theorem spongeUpdate_next {c : Config} {d : List Byte} {s t : State} (h : spongeUpdate c d s = .next t) :
    (s.sponge.phase ≠ .absorbing ∧ t = s.respond ⟨Status.errMisuse.word, []⟩) ∨
    (s.sponge.phase = .absorbing ∧ s.sponge.legal = true ∧
      t = (if d.length = 0 then s else spongeUpdateState c d s).respond ⟨Status.ok.word, []⟩) := by
  rcases onAbsorbing_cases h with ⟨hp, ho⟩ | ⟨hp, hl, ho⟩ | ⟨_, _, ho⟩
  · exact .inl ⟨hp, by simpa [fail_eq] using ho⟩
  · refine .inr ⟨hp, hl, ?_⟩
    by_cases hd : d.length = 0
    · rw [if_pos hd] at ho ⊢
      simpa [complete_eq] using ho
    · rw [if_neg hd] at ho ⊢
      simpa [complete_eq] using ho
  · cases ho

theorem spongeFinish_next {c : Config} {n : Nat} {s t : State} (h : spongeFinish c n s = .next t) :
    (s.sponge.phase ≠ .absorbing ∧ t = s.respond ⟨Status.errMisuse.word, []⟩) ∨
    (s.sponge.phase = .absorbing ∧ s.sponge.legal = true ∧
      t = ((squeeze c n n (absorbPadded c s)).2.setSpongePhase .finished).respond
            ⟨Status.ok.word, (squeeze c n n (absorbPadded c s)).1⟩) := by
  rcases onAbsorbing_cases h with ⟨hp, ho⟩ | ⟨hp, hl, ho⟩ | ⟨_, _, ho⟩
  · exact .inl ⟨hp, by simpa [fail_eq] using ho⟩
  · exact .inr ⟨hp, hl, by simpa [complete_eq] using ho⟩
  · cases ho

theorem duplexInit_next {rb : BitVec 16} {s t : State} (h : duplexInit rb s = .next t) :
    (duplexInitRejects rb = true ∧ t = s.respond ⟨Status.errConfig.word, []⟩) ∨
    (duplexInitRejects rb = false ∧
      t = (s.setDuplex ⟨Lanes.zero, rb.toNat / 8, 0, rb.toNat / 8, .ready⟩).respond ⟨Status.ok.word, []⟩) := by
  rw [duplexInit] at h
  split at h
  · rename_i hr
    exact .inl ⟨hr, by simpa [fail_eq] using h.symm⟩
  · rename_i hr
    exact .inr ⟨by simpa using hr, by simpa [complete_eq] using h.symm⟩

theorem duplexDuplex_next {c : Config} {x : List Byte} {n : Nat} {s t : State} (h : duplexDuplex c x n s = .next t) :
    ((s.duplex.phase ≠ .ready ∨ s.duplex.inputIndex ≠ 0) ∧ t = s.respond ⟨Status.errMisuse.word, []⟩) ∨
    (s.duplex.phase = .ready ∧ s.duplex.legal = true ∧ s.duplex.inputIndex = 0 ∧
      duplexDuplexRejects s.duplex.rate x.length n = true ∧ t = s.respond ⟨Status.errConfig.word, []⟩) ∨
    (s.duplex.phase = .ready ∧ s.duplex.legal = true ∧ s.duplex.inputIndex = 0 ∧
      duplexDuplexRejects s.duplex.rate x.length n = false ∧
      t = (oneShotTurn c x n s).respond ⟨Status.ok.word, readRun (oneShotTurn c x n s).duplex.A 0 n⟩) := by
  rcases onReady_cases h with ⟨hp, ho⟩ | ⟨hp, hl, ho⟩ | ⟨_, _, ho⟩
  · exact .inl ⟨.inl hp, by simpa [fail_eq] using ho⟩
  · split at ho
    · exact .inl ⟨.inr ‹_›, by simpa [fail_eq] using ho⟩
    · split at ho <;> rename_i h1 h2
      · exact .inr (.inl ⟨hp, hl, by simpa using h1, h2, by simpa [fail_eq] using ho⟩)
      · exact .inr (.inr ⟨hp, hl, by simpa using h1, by simpa using h2, by simpa [complete_eq] using ho⟩)
  · cases ho

theorem duplexFeed_next {c : Config} {d : List Byte} {s t : State} (h : duplexFeed c d s = .next t) :
    (s.duplex.phase ≠ .ready ∧ t = s.respond ⟨Status.errMisuse.word, []⟩) ∨
    (s.duplex.phase = .ready ∧ s.duplex.legal = true ∧ t = (feedBytes c d s).respond ⟨Status.ok.word, []⟩) := by
  rcases onReady_cases h with ⟨hp, ho⟩ | ⟨hp, hl, ho⟩ | ⟨_, _, ho⟩
  · exact .inl ⟨hp, by simpa [fail_eq] using ho⟩
  · exact .inr ⟨hp, hl, by simpa [complete_eq] using ho⟩
  · cases ho

theorem duplexFetch_next {c : Config} {n : Nat} {s t : State} (h : duplexFetch c n s = .next t) :
    (s.duplex.phase ≠ .ready ∧ t = s.respond ⟨Status.errMisuse.word, []⟩) ∨
    (s.duplex.phase = .ready ∧ s.duplex.legal = true ∧
      t = (fetchLoop c n n s).2.respond ⟨Status.ok.word, (fetchLoop c n n s).1⟩) := by
  rcases onReady_cases h with ⟨hp, ho⟩ | ⟨hp, hl, ho⟩ | ⟨_, _, ho⟩
  · exact .inl ⟨hp, by simpa [fail_eq] using ho⟩
  · exact .inr ⟨hp, hl, by simpa [complete_eq] using ho⟩
  · cases ho

theorem duplexForget_next {c : Config} {s t : State} (h : duplexForget c s = .next t) :
    (s.duplex.phase ≠ .ready ∧ t = s.respond ⟨Status.errMisuse.word, []⟩) ∨
    (s.duplex.phase = .ready ∧ s.duplex.legal = true ∧
      t = ((padPermute c (wipeBlock (padPermute c s))).setOutputIndex s.duplex.rate).respond ⟨Status.ok.word, []⟩) := by
  rcases onReady_cases h with ⟨hp, ho⟩ | ⟨hp, hl, ho⟩ | ⟨_, _, ho⟩
  · exact .inl ⟨hp, by simpa [fail_eq] using ho⟩
  · exact .inr ⟨hp, hl, by simpa [complete_eq] using ho⟩
  · cases ho

theorem duplexReseed_next {c : Config} {s t : State} (h : duplexReseed c s = .next t) :
    (s.duplex.phase ≠ .ready ∧ t = s.respond ⟨Status.errMisuse.word, []⟩) ∨
    (s.duplex.phase = .ready ∧ s.duplex.legal = true ∧
      t = (reseedLoop c (200 / s.duplex.rate) s).2.respond
            ⟨(if (reseedLoop c (200 / s.duplex.rate) s).1 then Status.ok else Status.errEntropy).word, []⟩) := by
  rcases onReady_cases h with ⟨hp, ho⟩ | ⟨hp, hl, ho⟩ | ⟨_, _, ho⟩
  · exact .inl ⟨hp, by simpa [fail_eq] using ho⟩
  · refine .inr ⟨hp, hl, ?_⟩
    split at ho <;> rename_i e <;> rw [e] <;> simpa [complete_eq, fail_eq] using ho
  · cases ho

/-- The operand checks of the init commands are the conditions of 60_exceptions.md R101. -/
theorem spongeInitRejects_iff (rb : BitVec 16) (sf : Byte) (s : State) :
    spongeInitRejects rb sf = true ↔ ConfigBad (.spongeInit rb sf) s := by
  have h : ∀ v : BitVec 8, (v &&& 128#8 = 0#8) ↔ v.toNat < 128 := by decide
  simp [spongeInitRejects, ConfigBad, h, or_assoc]

theorem duplexInitRejects_iff (rb : BitVec 16) (s : State) :
    duplexInitRejects rb = true ↔ ConfigBad (.duplexInit rb) s := by
  simp [duplexInitRejects, ConfigBad, or_assoc]

theorem duplexDuplexRejects_iff (x : List Byte) (n : BitVec 32) (s : State) :
    duplexDuplexRejects s.duplex.rate x.length n.toNat = true ↔ ConfigBad (.duplexDuplex x n) s := by
  simp [duplexDuplexRejects, ConfigBad]

theorem onAbsorbing_ne_refused {s : State} {body : State → Outcome} {r : Refusal} (h : ∀ s, body s ≠ .refused r) :
    onAbsorbing s body ≠ .refused r := by
  intro e
  rcases onAbsorbing_cases e with ⟨_, h1⟩ | ⟨_, _, h1⟩ | ⟨_, _, h1⟩
  · cases h1
  · exact h s h1.symm
  · cases h1

theorem onReady_ne_refused {s : State} {body : State → Outcome} {r : Refusal} (h : ∀ s, body s ≠ .refused r) :
    onReady s body ≠ .refused r := by
  intro e
  rcases onReady_cases e with ⟨_, h1⟩ | ⟨_, _, h1⟩ | ⟨_, _, h1⟩
  · cases h1
  · exact h s h1.symm
  · cases h1

/-- No command is refused. -/
theorem exec_ne_refused (i : Instr) (s : State) (r : Refusal) : exec i s ≠ .refused r := by
  have hc : ∀ st out s, complete st out s ≠ .refused r := fun _ _ _ h => nomatch h
  have hf : ∀ st s, fail st s ≠ .refused r := fun _ _ h => nomatch h
  cases i with
  | spongeInit a b =>
    show spongeInit a b s ≠ _
    rw [spongeInit]
    split
    · exact hf _ _
    · exact hc _ _ _
  | spongeUpdate d =>
    show spongeUpdate Config.block d s ≠ _
    refine onAbsorbing_ne_refused fun s => ?_
    split <;> exact hc _ _ _
  | spongeFinish n =>
    show spongeFinish Config.block n.toNat s ≠ _
    exact onAbsorbing_ne_refused fun s => hc _ _ _
  | duplexInit a =>
    show duplexInit a s ≠ _
    rw [duplexInit]
    split
    · exact hf _ _
    · exact hc _ _ _
  | duplexDuplex d n =>
    show duplexDuplex Config.block d n.toNat s ≠ _
    refine onReady_ne_refused fun s => ?_
    split
    · exact hf _ _
    · split
      · exact hf _ _
      · exact hc _ _ _
  | duplexFeed d =>
    show duplexFeed Config.block d s ≠ _
    exact onReady_ne_refused fun s => hc _ _ _
  | duplexFetch n =>
    show duplexFetch Config.block n.toNat s ≠ _
    exact onReady_ne_refused fun s => hc _ _ _
  | duplexForget =>
    show duplexForget Config.block s ≠ _
    exact onReady_ne_refused fun s => hc _ _ _
  | duplexReseed =>
    show duplexReseed Config.block s ≠ _
    refine onReady_ne_refused fun s => ?_
    split
    · exact hc _ _ _
    · exact hf _ _

/-- What a step does with a command message (30_encoding.md R44, R45, R49). -/
theorem step_command {s : State} {m : Message} {rest : List HostInput} (h : s.inbox = .command m :: rest) :
    step s =
      match decode m with
      | .ok i => exec i (s.setInbox rest)
      | .error .illegal => answerIllegal (s.setInbox rest)
      | .error .payloadLength => .refused .notACommandMessage := by
  rw [step, fetch, h]
  dsimp only
  cases decode m with
  | ok i => simp
  | error e => cases e <;> simp

/-! A command is its body at the block's arguments. -/

theorem exec_spongeInit (a : BitVec 16) (b : Byte) (s : State) : exec (.spongeInit a b) s = spongeInit a b s := rfl
theorem exec_spongeUpdate (d : List Byte) (s : State) :
    exec (.spongeUpdate d) s = spongeUpdate Config.block d s := rfl
theorem exec_spongeFinish (n : BitVec 32) (s : State) :
    exec (.spongeFinish n) s = spongeFinish Config.block n.toNat s := rfl
theorem exec_duplexInit (a : BitVec 16) (s : State) : exec (.duplexInit a) s = duplexInit a s := rfl
theorem exec_duplexDuplex (d : List Byte) (n : BitVec 32) (s : State) :
    exec (.duplexDuplex d n) s = duplexDuplex Config.block d n.toNat s := rfl
theorem exec_duplexFeed (d : List Byte) (s : State) : exec (.duplexFeed d) s = duplexFeed Config.block d s := rfl
theorem exec_duplexFetch (n : BitVec 32) (s : State) :
    exec (.duplexFetch n) s = duplexFetch Config.block n.toNat s := rfl
theorem exec_duplexForget (s : State) : exec .duplexForget s = duplexForget Config.block s := rfl
theorem exec_duplexReseed (s : State) : exec .duplexReseed s = duplexReseed Config.block s := rfl

/-! Each command's body on a state whose phase and registers let it run. -/

theorem spongeUpdate_run {c : Config} {d : List Byte} {s : State} (hp : s.sponge.phase = .absorbing)
    (hl : s.sponge.legal = true) :
    spongeUpdate c d s = .next ((if d.length = 0 then s else spongeUpdateState c d s).respond ⟨Status.ok.word, []⟩) := by
  rw [spongeUpdate, onAbsorbing_run hp hl]
  split <;> rw [complete_eq]

theorem spongeFinish_run {c : Config} {n : Nat} {s : State} (hp : s.sponge.phase = .absorbing)
    (hl : s.sponge.legal = true) :
    spongeFinish c n s =
      .next (((squeeze c n n (absorbPadded c s)).2.setSpongePhase .finished).respond
        ⟨Status.ok.word, (squeeze c n n (absorbPadded c s)).1⟩) := by
  rw [spongeFinish, onAbsorbing_run hp hl]
  rfl

theorem duplexDuplex_run {c : Config} {x : List Byte} {n : Nat} {s : State} (hp : s.duplex.phase = .ready)
    (hl : s.duplex.legal = true) (hi : s.duplex.inputIndex = 0)
    (hr : duplexDuplexRejects s.duplex.rate x.length n = false) :
    duplexDuplex c x n s =
      .next ((oneShotTurn c x n s).respond ⟨Status.ok.word, readRun (oneShotTurn c x n s).duplex.A 0 n⟩) := by
  rw [duplexDuplex, onReady_run hp hl, if_neg (by simp [hi]), if_neg (by simp [hr]), complete_eq]

theorem duplexFeed_run {c : Config} {d : List Byte} {s : State} (hp : s.duplex.phase = .ready)
    (hl : s.duplex.legal = true) : duplexFeed c d s = .next ((feedBytes c d s).respond ⟨Status.ok.word, []⟩) := by
  rw [duplexFeed, onReady_run hp hl, complete_eq]

theorem duplexFetch_run {c : Config} {n : Nat} {s : State} (hp : s.duplex.phase = .ready)
    (hl : s.duplex.legal = true) :
    duplexFetch c n s = .next ((fetchLoop c n n s).2.respond ⟨Status.ok.word, (fetchLoop c n n s).1⟩) := by
  rw [duplexFetch, onReady_run hp hl]
  rfl

theorem duplexForget_run {c : Config} {s : State} (hp : s.duplex.phase = .ready) (hl : s.duplex.legal = true) :
    duplexForget c s =
      .next (((padPermute c (wipeBlock (padPermute c s))).setOutputIndex s.duplex.rate).respond
        ⟨Status.ok.word, []⟩) := by
  rw [duplexForget, onReady_run hp hl, complete_eq]

theorem duplexReseed_run {c : Config} {s : State} (hp : s.duplex.phase = .ready) (hl : s.duplex.legal = true) :
    duplexReseed c s =
      .next ((reseedLoop c (200 / s.duplex.rate) s).2.respond
        ⟨(if (reseedLoop c (200 / s.duplex.rate) s).1 then Status.ok else Status.errEntropy).word, []⟩) := by
  rw [duplexReseed, onReady_run hp hl]
  cases h : reseedLoop c (200 / s.duplex.rate) s with
  | mk a b => cases a <;> simp [complete_eq, fail_eq]

/-- A command in the wrong phase fails and changes nothing but the response (60_exceptions.md R103). -/
theorem exec_wrongPhase (i : Instr) (s : State) (hi : isInitCommand i = false)
    (hs : isSpongeCommand i = true → s.sponge.phase ≠ .absorbing)
    (hd : isSpongeCommand i = false → s.duplex.phase ≠ .ready) :
    exec i s = .next (s.respond ⟨Status.errMisuse.word, []⟩) := by
  cases i with
  | spongeInit a b => simp [isInitCommand] at hi
  | spongeUpdate d => rw [exec_spongeUpdate, spongeUpdate, onAbsorbing_misuse (hs rfl), fail_eq]
  | spongeFinish n => rw [exec_spongeFinish, spongeFinish, onAbsorbing_misuse (hs rfl), fail_eq]
  | duplexInit a => simp [isInitCommand] at hi
  | duplexDuplex d n => rw [exec_duplexDuplex, duplexDuplex, onReady_misuse (hd rfl), fail_eq]
  | duplexFeed d => rw [exec_duplexFeed, duplexFeed, onReady_misuse (hd rfl), fail_eq]
  | duplexFetch n => rw [exec_duplexFetch, duplexFetch, onReady_misuse (hd rfl), fail_eq]
  | duplexForget => rw [exec_duplexForget, duplexForget, onReady_misuse (hd rfl), fail_eq]
  | duplexReseed => rw [exec_duplexReseed, duplexReseed, onReady_misuse (hd rfl), fail_eq]

end Sys2Proof.Machine
end

