-- ==== Sys2Proof/Laws/Abandon.lean ====
section
/-! SUPPORT. What the reset event leaves, and what a reset during a message can do (spec 70_reset_and_hazards.md
R120). -/

namespace Sys2Proof.Machine

/-! The reset event leaves everything of the environment but the counter of its own free values. -/

@[simp] theorem resetEvent_sponge_phase (c : Config) (s : State) : (resetEvent c s).sponge.phase = .uninit := rfl
@[simp] theorem resetEvent_duplex_phase (c : Config) (s : State) : (resetEvent c s).duplex.phase = .uninit := rfl
@[simp] theorem resetEvent_trace (c : Config) (s : State) : (resetEvent c s).trace = [] := rfl
@[simp] theorem resetEvent_responses (c : Config) (s : State) : (resetEvent c s).responses = [] := rfl
@[simp] theorem resetEvent_inbox (c : Config) (s : State) : (resetEvent c s).inbox = s.inbox := rfl
@[simp] theorem resetEvent_entScript (c : Config) (s : State) : (resetEvent c s).entScript = s.entScript := rfl
@[simp] theorem resetEvent_entDraws (c : Config) (s : State) : (resetEvent c s).entDraws = s.entDraws := rfl

/-- The reset event leaves every count within its 8-bit register (10_state.md R11, R14). -/
theorem resetEvent_widths (c : Config) (s : State) :
    (resetEvent c s).sponge.leftover < 256 ∧ (resetEvent c s).sponge.rate < 256 ∧
    (resetEvent c s).duplex.rate < 256 ∧ (resetEvent c s).duplex.inputIndex < 256 ∧
    (resetEvent c s).duplex.outputIndex < 256 :=
  ⟨BitVec.isLt _, BitVec.isLt _, BitVec.isLt _, BitVec.isLt _, BitVec.isLt _⟩

/-- Requests to PERM alone ask ENT nothing. -/
theorem entRequests_perms (n k : Nat) (e : Engine) : entRequests ((List.replicate n (.perm e)).take k) = 0 := by
  simp [entRequests, List.take_replicate, List.countP_replicate, Event.isEnt]

/-- Of the first `k` requests of a reseed every second one is to ENT (41_duplex.md R72). -/
theorem entRequests_take_reseedEvents (r n k : Nat) : entRequests ((reseedEvents r n).take k) = min (k / 2) n := by
  induction n generalizing k with
  | zero => simp [reseedEvents, entRequests]
  | succ n ih =>
    have hs : reseedEvents r (n + 1) = .perm .duplex :: .ent (r - 1) :: reseedEvents r n := by
      simp [reseedEvents, List.replicate_succ]
    rw [hs]
    match k with
    | 0 => simp [entRequests]
    | 1 => simp [entRequests, Event.isEnt]
    | k + 2 =>
      have := ih k
      simp only [entRequests, List.take_succ_cons, List.countP_cons, Event.isEnt] at this ⊢
      rw [this]
      simp only [Bool.false_eq_true, if_false, if_true, Nat.add_zero, Nat.add_div_right k (by omega : 0 < 2)]
      omega

/-- The requests of a run are what its trace gained. -/
theorem requestsMade_of_trace {s t : State} {ev : List Event} (h : t.trace = s.trace ++ ev) (requests : Nat) :
    requestsMade requests s t = ev.take requests := by
  rw [requestsMade, h, List.drop_left]

/-- Abandoning a command that would have completed is a reset with ENT's answers to the requests made used up. -/
theorem abandon_of_next {i : Instr} {s t : State} (h : exec i s = .next t) (requests : Nat) :
    abandon i requests s =
      .next (resetEvent Config.block (s.afterRequests (entRequests (requestsMade requests s t)))) := by
  rw [abandon, h]

/-- Everything an abandoned command can answer when it gives a next state. -/
theorem abandon_next {i : Instr} {requests : Nat} {s u : State} (h : abandon i requests s = .next u) :
    ∃ t, exec i s = .next t ∧
      u = resetEvent Config.block (s.afterRequests (entRequests (requestsMade requests s t))) := by
  rw [abandon] at h
  split at h
  · rename_i t he
    exact ⟨t, he, by simpa using h.symm⟩
  · cases h
  · cases h

/-- What a step does with a reset during a message. -/
theorem step_resetDuring {s : State} {m : Message} {requests : Nat} {rest : List HostInput}
    (h : s.inbox = .resetDuring m requests :: rest) :
    step s =
      match decode m with
      | .ok i => abandon i requests (s.setInbox rest)
      | .error .illegal => .next (resetEvent Config.block (s.setInbox rest))
      | .error .payloadLength =>
        if partlyDelivered m then .next (resetEvent Config.block (s.setInbox rest)) else .refused .notACommandMessage := by
  rw [step, fetch, h]
  dsimp only
  cases decode m with
  | ok i => simp
  | error e =>
    cases e
    · simp
    · by_cases hp : partlyDelivered m = true <;> simp [hp]

end Sys2Proof.Machine
end

