-- ==== Sys2Proof/Laws/Decode.lean ====
section
/-! SUPPORT. The header as its four fields (spec 30_encoding.md R41), and what each row of the opcode map selects in
terms of them (R43). -/

namespace Sys2Proof

theorem getLsbD_mkHeader (a b : BitVec 8) (c : BitVec 16) (d : BitVec 32) (i : Nat) :
    (mkHeader a b c d).getLsbD i =
      if i < 32 then d.getLsbD i else if i < 48 then c.getLsbD (i - 32) else if i < 56 then b.getLsbD (i - 48)
      else a.getLsbD (i - 56) := by
  simp only [mkHeader, BitVec.getLsbD_append]
  split_ifs <;> first | rfl | omega

@[simp] theorem headerLen32_mkHeader (a b : BitVec 8) (c : BitVec 16) (d : BitVec 32) :
    headerLen32 (mkHeader a b c d) = d := by
  apply BitVec.eq_of_getLsbD_eq
  intro i hi
  simp [headerLen32, getLsbD_mkHeader, hi]

@[simp] theorem headerArg16_mkHeader (a b : BitVec 8) (c : BitVec 16) (d : BitVec 32) :
    headerArg16 (mkHeader a b c d) = c := by
  apply BitVec.eq_of_getLsbD_eq
  intro i hi
  have h1 : 32 + i < 48 := by omega
  simp [headerArg16, getLsbD_mkHeader, hi, h1]

@[simp] theorem headerImm8_mkHeader (a b : BitVec 8) (c : BitVec 16) (d : BitVec 32) :
    headerImm8 (mkHeader a b c d) = b := by
  apply BitVec.eq_of_getLsbD_eq
  intro i hi
  have h1 : ¬48 + i < 32 := by omega
  have h2 : 48 + i < 56 := by omega
  simp [headerImm8, getLsbD_mkHeader, hi, h1, h2]

@[simp] theorem headerOpcode_mkHeader (a b : BitVec 8) (c : BitVec 16) (d : BitVec 32) :
    headerOpcode (mkHeader a b c d) = a := by
  apply BitVec.eq_of_getLsbD_eq
  intro i hi
  have h1 : ¬56 + i < 32 := by omega
  have h2 : ¬56 + i < 48 := by omega
  simp [headerOpcode, getLsbD_mkHeader, hi, h1, h2]

/-- A header is its four fields. -/
theorem mkHeader_fields (h : BitVec 64) : mkHeader (headerOpcode h) (headerImm8 h) (headerArg16 h) (headerLen32 h) = h := by
  apply BitVec.eq_of_getLsbD_eq
  intro i hi
  rw [getLsbD_mkHeader]
  simp only [headerOpcode, headerImm8, headerArg16, headerLen32, BitVec.getLsbD_extractLsb']
  split_ifs with h1 h2 h3
  · simp [h1]
  · have e : 32 + (i - 32) = i := by omega
    have l : i - 32 < 16 := by omega
    simp [e, l]
  · have e : 48 + (i - 48) = i := by omega
    have l : i - 48 < 8 := by omega
    simp [e, l]
  · have e : 56 + (i - 56) = i := by omega
    have l : i - 56 < 8 := by omega
    simp [e, l]

theorem mkHeader_and (a b a' b' : BitVec 8) (c c' : BitVec 16) (d d' : BitVec 32) :
    mkHeader a b c d &&& mkHeader a' b' c' d' = mkHeader (a &&& a') (b &&& b') (c &&& c') (d &&& d') := by
  apply BitVec.eq_of_getLsbD_eq
  intro i hi
  simp only [BitVec.getLsbD_and, getLsbD_mkHeader]
  split_ifs <;> simp

theorem mkHeader_inj {a b a' b' : BitVec 8} {c c' : BitVec 16} {d d' : BitVec 32} :
    mkHeader a b c d = mkHeader a' b' c' d' ↔ a = a' ∧ b = b' ∧ c = c' ∧ d = d' := by
  constructor
  · intro h
    exact ⟨by simpa using congrArg headerOpcode h, by simpa using congrArg headerImm8 h,
      by simpa using congrArg headerArg16 h, by simpa using congrArg headerLen32 h⟩
  · rintro ⟨rfl, rfl, rfl, rfl⟩
    rfl

theorem and_ones8 (a : BitVec 8) : a &&& 255#8 = a := BitVec.and_allOnes
theorem and_ones16 (a : BitVec 16) : a &&& 65535#16 = a := BitVec.and_allOnes
theorem and_ones32 (a : BitVec 32) : a &&& 4294967295#32 = a := BitVec.and_allOnes

/-- Selecting a row whose mask and match are given field by field. -/
theorem selects_of_fields {op : Op} {m mask : BitVec 64} (a b a' b' : BitVec 8) (c c' : BitVec 16) (d d' : BitVec 32)
    (hmask : mask = mkHeader a b c d) (hm : m = mkHeader a' b' c' d') (h : BitVec 64) :
    OpcodeRow.selects ⟨op, m, mask⟩ h = true ↔
      headerOpcode h &&& a = a' ∧ headerImm8 h &&& b = b' ∧ headerArg16 h &&& c = c' ∧ headerLen32 h &&& d = d' := by
  rw [OpcodeRow.selects, beq_iff_eq, ← mkHeader_inj, ← mkHeader_and, mkHeader_fields, hmask, hm]

/-- What a legal header of each mnemonic looks like, field by field (30_encoding.md R42, R43). -/
def headerFits (op : Op) (h : BitVec 64) : Prop :=
  match op with
  | .spongeInit => headerOpcode h = 0x10 ∧ headerLen32 h = 0
  | .spongeUpdate => headerOpcode h = 0x11 ∧ headerImm8 h = 0 ∧ headerArg16 h = 0
  | .spongeFinish => headerOpcode h = 0x12 ∧ headerImm8 h = 0 ∧ headerArg16 h = 0
  | .duplexInit => headerOpcode h = 0x20 ∧ headerImm8 h = 0 ∧ headerLen32 h = 0
  | .duplexDuplex => headerOpcode h = 0x21 ∧ headerImm8 h = 0
  | .duplexFeed => headerOpcode h = 0x22 ∧ headerImm8 h = 0 ∧ headerArg16 h = 0
  | .duplexFetch => headerOpcode h = 0x23 ∧ headerImm8 h = 0 ∧ headerArg16 h = 0
  | .duplexForget => headerOpcode h = 0x24 ∧ headerImm8 h = 0 ∧ headerArg16 h = 0 ∧ headerLen32 h = 0
  | .duplexReseed => headerOpcode h = 0x25 ∧ headerImm8 h = 0 ∧ headerArg16 h = 0 ∧ headerLen32 h = 0

/-- A row of the opcode map selects exactly the headers that fit its mnemonic. -/
theorem selects_iff {row : OpcodeRow} (hr : row ∈ opcodeMap) (h : BitVec 64) :
    row.selects h = true ↔ headerFits row.op h := by
  simp only [opcodeMap, List.mem_cons, List.not_mem_nil, or_false] at hr
  rcases hr with rfl | rfl | rfl | rfl | rfl | rfl | rfl | rfl | rfl
  · exact (selects_of_fields 0xFF 0 0x10 0 0 0 0xFFFFFFFF 0 (by decide) (by decide) h).trans
      (by simp [headerFits, and_ones8, and_ones32])
  · exact (selects_of_fields 0xFF 0xFF 0x11 0 0xFFFF 0 0 0 (by decide) (by decide) h).trans
      (by simp [headerFits, and_ones8, and_ones16])
  · exact (selects_of_fields 0xFF 0xFF 0x12 0 0xFFFF 0 0 0 (by decide) (by decide) h).trans
      (by simp [headerFits, and_ones8, and_ones16])
  · exact (selects_of_fields 0xFF 0xFF 0x20 0 0 0 0xFFFFFFFF 0 (by decide) (by decide) h).trans
      (by simp [headerFits, and_ones8, and_ones32])
  · exact (selects_of_fields 0xFF 0xFF 0x21 0 0 0 0 0 (by decide) (by decide) h).trans
      (by simp [headerFits, and_ones8])
  · exact (selects_of_fields 0xFF 0xFF 0x22 0 0xFFFF 0 0 0 (by decide) (by decide) h).trans
      (by simp [headerFits, and_ones8, and_ones16])
  · exact (selects_of_fields 0xFF 0xFF 0x23 0 0xFFFF 0 0 0 (by decide) (by decide) h).trans
      (by simp [headerFits, and_ones8, and_ones16])
  · exact (selects_of_fields 0xFF 0xFF 0x24 0 0xFFFF 0 0xFFFFFFFF 0 (by decide) (by decide) h).trans
      (by simp [headerFits, and_ones8, and_ones16, and_ones32])
  · exact (selects_of_fields 0xFF 0xFF 0x25 0 0xFFFF 0 0xFFFFFFFF 0 (by decide) (by decide) h).trans
      (by simp [headerFits, and_ones8, and_ones16, and_ones32])

/-- A header fits at most one mnemonic: the opcode field tells them apart (30_encoding.md R49). -/
theorem headerFits_unique {op op' : Op} {h : BitVec 64} (a : headerFits op h) (b : headerFits op' h) : op = op' := by
  cases op <;> cases op' <;> first | rfl | (exact absurd (a.1.symm.trans b.1) (by decide))

/-- The decoder answers the mnemonic a header fits (30_encoding.md R49). -/
theorem decodeHeader_eq_some {h : BitVec 64} {op : Op} : decodeHeader h = some op ↔ headerFits op h := by
  constructor
  · intro hd
    obtain ⟨row, hf, rfl⟩ := Option.map_eq_some_iff.mp hd
    exact (selects_iff (List.mem_of_find?_eq_some hf) h).mp
      (List.find?_some (p := fun row : OpcodeRow => row.selects h) hf)
  · intro hf
    have hrow : ∃ row ∈ opcodeMap, row.op = op := by cases op <;> simp [opcodeMap]
    obtain ⟨row, hr, hop⟩ := hrow
    have hs : row.selects h = true := (selects_iff hr h).mpr (hop ▸ hf)
    cases hd : opcodeMap.find? (fun row => row.selects h) with
    | none => exact absurd hs (by simpa using List.find?_eq_none.mp hd row hr)
    | some row' =>
      have hf' : headerFits row'.op h := (selects_iff (List.mem_of_find?_eq_some hd) h).mp
        (List.find?_some (p := fun row : OpcodeRow => row.selects h) hd)
      rw [decodeHeader, hd, Option.map_some, headerFits_unique hf' hf]

/-- The decoder reads a message by its header's mnemonic and refuses a payload of another length (30_encoding.md
R45). -/
theorem decode_of_fits {m : Message} {op : Op} (hf : headerFits op m.header) :
    decode m = if m.payload.length = payloadLength op m.header then .ok (assemble op m.header m.payload)
      else .error .payloadLength := by
  rw [decode, decodeHeader_eq_some.mpr hf]

/-- The host's table words go through the decoder's own parts. -/
theorem decodeTableWord_eq (nbits w : Nat) : decodeTableWord nbits w = (decode (tableMessage nbits w)).toOption := by
  cases h : decodeHeader (BitVec.ofNat 64 (w % 2 ^ nbits)) <;>
    simp [decodeTableWord, decode, tableMessage, h, Except.toOption]

end Sys2Proof
end

