-- ==== Sys2Proof/Laws/PerInstr.lean ====
section
/-! SUPPORT. Per command: its header is selected by the row of its own mnemonic and announces its payload's length
(spec 30_encoding.md R42, R43, R45). -/

namespace Sys2Proof.Laws.MatchesRow

/-- The header of a well-formed command fits the row of its mnemonic and announces exactly its payload. -/
def Statement (i : Instr) : Prop :=
  i.wf = true →
    ∃ row ∈ opcodeMap, row.op = i.op ∧ row.selects (encode i).header = true ∧
      payloadLength row.op (encode i).header = (encode i).payload.length

/-- It is enough that the header fits the mnemonic and announces the payload. -/
theorem of_fits {i : Instr} (hf : headerFits i.op (encode i).header)
    (hl : i.wf = true → payloadLength i.op (encode i).header = (encode i).payload.length) : Statement i := by
  intro hw
  have hrow : ∃ row ∈ opcodeMap, row.op = i.op := by cases i <;> simp [opcodeMap, Instr.op]
  obtain ⟨row, hr, ho⟩ := hrow
  exact ⟨row, hr, ho, (selects_iff hr _).mpr (ho ▸ hf), ho ▸ hl hw⟩

theorem spongeInit (rateBits : BitVec 16) (suffix : Byte) : Statement (.spongeInit rateBits suffix) :=
  of_fits (by simp [headerFits, Instr.op, encode, encodeHeader]) (fun _ => rfl)

theorem spongeUpdate (data : List Byte) : Statement (.spongeUpdate data) :=
  of_fits (by simp [headerFits, Instr.op, encode, encodeHeader]) fun h => by
    simpa [payloadLength, Instr.op, encode, encodeHeader, Instr.payload, Instr.wf] using h

theorem spongeFinish (outlen : BitVec 32) : Statement (.spongeFinish outlen) :=
  of_fits (by simp [headerFits, Instr.op, encode, encodeHeader]) (fun _ => rfl)

theorem duplexInit (rateBits : BitVec 16) : Statement (.duplexInit rateBits) :=
  of_fits (by simp [headerFits, Instr.op, encode, encodeHeader]) (fun _ => rfl)

theorem duplexDuplex (input : List Byte) (outlen : BitVec 32) : Statement (.duplexDuplex input outlen) :=
  of_fits (by simp [headerFits, Instr.op, encode, encodeHeader]) fun h => by
    simpa [payloadLength, Instr.op, encode, encodeHeader, Instr.payload, Instr.wf] using h

theorem duplexFeed (data : List Byte) : Statement (.duplexFeed data) :=
  of_fits (by simp [headerFits, Instr.op, encode, encodeHeader]) fun h => by
    simpa [payloadLength, Instr.op, encode, encodeHeader, Instr.payload, Instr.wf] using h

theorem duplexFetch (outlen : BitVec 32) : Statement (.duplexFetch outlen) :=
  of_fits (by simp [headerFits, Instr.op, encode, encodeHeader]) (fun _ => rfl)

theorem duplexForget : Statement .duplexForget :=
  of_fits (by simp [headerFits, Instr.op, encode, encodeHeader]) (fun _ => rfl)

theorem duplexReseed : Statement .duplexReseed :=
  of_fits (by simp [headerFits, Instr.op, encode, encodeHeader]) (fun _ => rfl)

end Sys2Proof.Laws.MatchesRow
end

