-- ==== Sys2Proof/Tests/Slice0.lean ====
section
/-! SUPPORT. Tests: words written out from the spec's encodings, one-step tests on small states with the toy
permutations (expected values from 95_test_vectors.md, whose vector each names), and for every obligation with
hypotheses a witness that meets them. -/

set_option maxRecDepth 20000

namespace Sys2Proof.Machine.Tests

/-! Decoding: a word per command, bit by bit from 30_encoding.md R41 and R43 (V-E1, V-E2). -/

theorem test_decode_sponge_init :
    decode ⟨0b00010000_00000110_0000010001000000_00000000000000000000000000000000, []⟩ = .ok (.spongeInit 1088 6) := by
  decide
theorem test_decode_sponge_update :
    decode ⟨0b00010001_00000000_0000000000000000_00000000000000000000000000000011, [0x61, 0x62, 0x63]⟩ =
      .ok (.spongeUpdate [0x61, 0x62, 0x63]) := by decide
theorem test_decode_sponge_finish :
    decode ⟨0b00010010_00000000_0000000000000000_00000000000000000000000000100000, []⟩ = .ok (.spongeFinish 32) := by
  decide
theorem test_decode_duplex_init :
    decode ⟨0b00100000_00000000_0000011000000000_00000000000000000000000000000000, []⟩ = .ok (.duplexInit 1536) := by
  decide
theorem test_decode_duplex_duplex :
    decode ⟨0b00100001_00000000_0000000000000111_00000000000000000000000000001000, [1, 2, 3, 4, 5, 6, 7]⟩ =
      .ok (.duplexDuplex [1, 2, 3, 4, 5, 6, 7] 8) := by decide
theorem test_decode_duplex_feed :
    decode ⟨0b00100010_00000000_0000000000000000_00000000000000000000000000000011, [0xa1, 0xa2, 0xa3]⟩ =
      .ok (.duplexFeed [0xa1, 0xa2, 0xa3]) := by decide
theorem test_decode_duplex_fetch :
    decode ⟨0b00100011_00000000_0000000000000000_00000000000000000000000000010001, []⟩ = .ok (.duplexFetch 17) := by
  decide
theorem test_decode_duplex_forget :
    decode ⟨0b00100100_00000000_0000000000000000_00000000000000000000000000000000, []⟩ = .ok .duplexForget := by decide
theorem test_decode_duplex_reseed :
    decode ⟨0b00100101_00000000_0000000000000000_00000000000000000000000000000000, []⟩ = .ok .duplexReseed := by decide

/-- The illegal headers of V-E2 and the edges of R44(a). -/
theorem test_decode_illegal :
    [0x0000000000000000, 0x0f00000000000000, 0x1300000000000000, 0x1f00000000000000, 0x2600000000000000,
      0xff00000000000000, 0x1006044000000001, 0x2400000000000001, 0x2001004000000000, 0x1100000100000000,
      0x2101000000000000].map decodeHeader = List.replicate 11 none := by decide

/-- A payload that is not of the announced length (30_encoding.md R45). -/
theorem test_decode_payload_length :
    decode ⟨0x1100000000000003, [0x61, 0x62]⟩ = .error .payloadLength ∧
    decode ⟨0x2400000000000000, [0]⟩ = .error .payloadLength := by decide

/-- No two rows of the opcode map select one header: their opcodes differ under both masks (30_encoding.md R49). -/
theorem test_rows_disjoint :
    opcodeMap.Pairwise (fun a b => a.mtch &&& b.mask &&& a.mask ≠ b.mtch &&& b.mask &&& a.mask) := by decide

/-- Encoding of V-E1: a suffix and a rate in place. -/
theorem test_encode : encode (.spongeInit 1344 0x1F) = ⟨0x101F054000000000, []⟩ ∧
    encode (.duplexFeed [0xa1, 0xa2, 0xa3]) = ⟨0x2200000000000003, [0xa1, 0xa2, 0xa3]⟩ := by decide

/-- Assembler text as 30_encoding.md R47 spells it. -/
theorem test_asm :
    (Instr.spongeUpdate [0x61, 0x62, 0x63]).asm = "SPONGE_UPDATE <616263>".toList ∧
    (Instr.spongeInit 1088 0x06).asm = "SPONGE_INIT 1088, 0x06".toList ∧
    (Instr.duplexDuplex [] 8).asm = "DUPLEX_DUPLEX <>, 8".toList := by decide

/-- The host's table words: a row with zero operands decodes, and is what the next step takes. -/
theorem test_table_word :
    decodeTableWord 64 0x2300000000000000 = some (.duplexFetch 0) ∧
    decodeTableWord 64 0x1100000000000002 = some (.spongeUpdate [0, 0]) ∧
    decodeTableWord 64 0x1300000000000000 = none ∧
    fetch (State.reset.withFetchWord 64 0x2300000000000000) = .command (.duplexFetch 0) State.reset := by decide

/-! WellFormed: an ill-formed term for each check. -/

theorem test_ill_formed_update : (Instr.spongeUpdate (List.replicate (2 ^ 32) 0)).wf = false := by
  simp only [Instr.wf, List.length_replicate, Nat.lt_irrefl, decide_false]
theorem test_ill_formed_duplex : (Instr.duplexDuplex (List.replicate (2 ^ 16) 0) 0).wf = false := by
  simp only [Instr.wf, List.length_replicate, Nat.lt_irrefl, decide_false]
theorem test_ill_formed_feed : (Instr.duplexFeed (List.replicate (2 ^ 32) 0)).wf = false := by
  simp only [Instr.wf, List.length_replicate, Nat.lt_irrefl, decide_false]

/-! One step each, with the toy permutations. -/

/-- The arguments of the vectors: a toy permutation and a value of DS_DUPLEX. -/
def toy (P : Lanes → Lanes) (ds : Byte) : Config :=
  { perm := P, dsDuplex := ds, entOk := fun _ => false, entByte := fun _ _ => 0, resetDraw := fun _ => default }

/-- An absorbing sponge with the given rate bytes, buffer and leftover, rate 8, suffix 0x06. -/
def absorbing (rate buf : List Byte) (leftover : Nat) : State :=
  { State.reset with
    sponge :=
      { A := lanesOfBytes rate, buf := writeBuf Buffer.zero 0 buf, leftover := leftover, rate := 8, suffix := 6,
        phase := .absorbing } }

/-- A ready duplex of rate `r` with the given rate bytes and indices. -/
def ready (r : Nat) (rate : List Byte) (ii oi : Nat) : State :=
  { State.reset with
    duplex := { A := lanesOfBytes rate, rate := r, inputIndex := ii, outputIndex := oi, phase := .ready } }

/-- The last response of a next state. -/
def answer (o : Outcome) : Option Response :=
  match o with
  | .next t => t.responses.getLast?
  | .fault _ => none
  | .refused _ => none

/-- The sponge after a next state: rate bytes, first buffer bytes, leftover, phase, number of events. -/
def sponge (o : Outcome) : Option (List Byte × List Byte × Nat × SpongePhase × Nat) :=
  match o with
  | .next t => some (readRun t.sponge.A 0 8, readBuf t.sponge.buf 8, t.sponge.leftover, t.sponge.phase, t.trace.length)
  | .fault _ => none
  | .refused _ => none

/-- The duplex after a next state: first eight state bytes, indices, trace. -/
def duplex (o : Outcome) : Option (List Byte × Nat × Nat × List Event) :=
  match o with
  | .next t => some (readRun t.duplex.A 0 8, t.duplex.inputIndex, t.duplex.outputIndex, t.trace)
  | .fault _ => none
  | .refused _ => none

/-- V-I1: rates and suffixes at the edges. -/
theorem test_sponge_init :
    answer (spongeInit 1600 0x7F State.reset) = some ⟨0, []⟩ ∧ answer (spongeInit 1664 6 State.reset) = some ⟨1, []⟩ ∧
    answer (spongeInit 1088 0x80 State.reset) = some ⟨1, []⟩ ∧ answer (spongeInit 8 6 State.reset) = some ⟨1, []⟩ ∧
    answer (spongeInit 0 6 State.reset) = some ⟨1, []⟩ := by decide

/-- V-S5: the top-up, the block absorbed inside the command, stale bytes kept. -/
theorem test_sponge_update :
    sponge (spongeUpdate (toy permId 1) [6, 7, 8, 9, 10, 11] (absorbing [] [1, 2, 3, 4, 5] 5)) =
      some ([1, 2, 3, 4, 5, 6, 7, 8], [9, 10, 11, 4, 5, 6, 7, 8], 3, .absorbing, 1) := by decide

/-- V-S4: a block taken directly does not pass through the buffer. -/
theorem test_sponge_update_direct :
    sponge (spongeUpdate (toy permId 1) [1, 2, 3, 4, 5, 6, 7, 8] (absorbing [] [] 0)) =
      some ([1, 2, 3, 4, 5, 6, 7, 8], [0, 0, 0, 0, 0, 0, 0, 0], 0, .absorbing, 1) := by decide

/-- V-S3: suffix and terminator in one byte. -/
theorem test_sponge_finish_one_byte :
    answer (spongeFinish (toy permId 1) 8 (absorbing [] [1, 2, 3, 4, 5, 6, 7] 7)) =
      some ⟨0, [1, 2, 3, 4, 5, 6, 7, 0x86]⟩ := by decide

/-- V-S5, V-S2: the padded block replaces stale bytes, and no permutation follows the last output block. -/
theorem test_sponge_finish :
    sponge (spongeFinish (toy permId 1) 8 (absorbing [1, 2, 3, 4, 5, 6, 7, 8] [9, 10, 11, 4, 5, 6, 7, 8] 3)) =
      some ([8, 8, 8, 2, 5, 6, 7, 0x88], [9, 10, 11, 6, 0, 0, 0, 0x80], 3, .finished, 1) ∧
    answer (spongeFinish (toy permId 1) 9 (absorbing [] [1] 1)) = some ⟨0, [1, 6, 0, 0, 0, 0, 0, 0x80, 1]⟩ := by decide

/-- V-I2: rates at the edges. -/
theorem test_duplex_init :
    answer (duplexInit 1536 State.reset) = some ⟨0, []⟩ ∧ answer (duplexInit 1600 State.reset) = some ⟨1, []⟩ ∧
    answer (duplexInit 63 State.reset) = some ⟨1, []⟩ ∧ answer (duplexInit 100 State.reset) = some ⟨1, []⟩ ∧
    duplex (duplexInit 64 (ready 16 [1] 3 16)) = some ([0, 0, 0, 0, 0, 0, 0, 0], 0, 8, []) := by decide

/-- V-D4, lines 1 to 3, 5, 8. -/
theorem test_duplex_duplex :
    answer (duplexDuplex (toy permId 1) [0, 0, 0, 0, 0, 0, 0, 0] 0 (ready 8 [] 0 8)) = some ⟨1, []⟩ ∧
    answer (duplexDuplex (toy permId 1) [] 9 (ready 8 [] 0 8)) = some ⟨1, []⟩ ∧
    answer (duplexDuplex (toy permId 1) [1, 2, 3, 4, 5, 6, 7] 8 (ready 8 [] 0 8)) =
      some ⟨0, [1, 2, 3, 4, 5, 6, 7, 0x81]⟩ ∧
    duplex (duplexDuplex (toy permId 1) [0x10, 0x20] 4 (ready 8 [0, 2, 3, 4, 5, 6, 7, 1] 0 0)) =
      some ([0x10, 0x22, 2, 4, 5, 6, 7, 0x81], 0, 4, [.perm .duplex]) ∧
    answer (duplexDuplex (toy permId 1) [] 1 (ready 8 [] 1 8)) = some ⟨3, []⟩ := by decide

/-- V-D9: other values of DS_DUPLEX. -/
theorem test_duplex_separator :
    answer (duplexDuplex (toy permId 0x7F) [] 8 (ready 8 [] 0 8)) = some ⟨0, [0x7f, 0, 0, 0, 0, 0, 0, 0x80]⟩ := by
  decide

/-- V-D2, lines 3 and 4: a full block is padded only when a further byte comes. -/
theorem test_duplex_feed :
    duplex (duplexFeed (toy permId 1) [0xb1, 0xb2, 0xb3, 0xb4] (ready 8 [0xa1, 0xa2, 0xa3] 3 8)) =
      some ([0xa1, 0xa2, 0xa3, 0xb1, 0xb2, 0xb3, 0xb4, 0], 7, 8, []) ∧
    duplex (duplexFeed (toy permId 1) [0xc1] (ready 8 [0xa1, 0xa2, 0xa3, 0xb1, 0xb2, 0xb3, 0xb4] 7 8)) =
      some ([0x60, 0xa2, 0xa3, 0xb1, 0xb2, 0xb3, 0xb4, 0x81], 1, 8, [.perm .duplex]) := by decide

/-- V-D1, lines 1, 3: a fetch of nothing changes nothing; a fetch across a block boundary. -/
theorem test_duplex_fetch :
    duplex (duplexFetch (toy permId 1) 0 (ready 8 [] 0 8)) = some ([0, 0, 0, 0, 0, 0, 0, 0], 0, 8, []) ∧
    answer (duplexFetch (toy permId 1) 6 (ready 8 [1, 0, 0, 0, 0, 0, 0, 0x80] 0 3)) =
      some ⟨0, [0, 0, 0, 0, 0x80, 0]⟩ := by decide

/-- V-D5: pending bytes are padded in, bytes 0 to 6 wiped, byte 7 kept under the second pad. -/
theorem test_duplex_forget :
    duplex (duplexForget (toy permId 1) (ready 8 [0xa1, 0xa2, 0xa3] 3 8)) =
      some ([0, 0, 0, 0, 0, 0, 0, 1], 0, 8, [.perm .duplex, .perm .duplex]) := by decide

/-- V-D7b: the first request fails after one pad and permute. -/
theorem test_duplex_reseed_fails :
    duplex (duplexReseed (toy permId 1) { ready 8 [] 0 8 with entScript := [.fail] }) =
      some ([1, 0, 0, 0, 0, 0, 0, 0x80], 0, 0, [.perm .duplex, .ent 7]) ∧
    answer (duplexReseed (toy permId 1) { ready 8 [] 0 8 with entScript := [.fail] }) = some ⟨2, []⟩ := by decide

/-- V-D8: pending bytes are padded in, the seed is XORed over them. -/
theorem test_duplex_reseed :
    duplex (duplexReseed (toy permId 1)
      { ready 192 [0xaa, 0xbb] 2 192 with
        entScript := [.ok ((List.range 191).map (fun i => BitVec.ofNat 8 (0x10 + i)))] }) =
      some ([0xba, 0xaa, 0x13, 0x13, 0x14, 0x15, 0x16, 0x17], 191, 192, [.perm .duplex, .ent 191]) := by decide

/-- 42_collaborators.md R84(b), on the example of V-S8: each byte takes its right neighbour plus one. -/
theorem test_rot1 :
    readRun (permRot1 (lanesOfBytes [1, 2, 3, 4, 5, 6, 7, 8])) 0 8 = [3, 4, 5, 6, 7, 8, 9, 1] := by decide

/-- An answer of ENT of the wrong length is no success (42_collaborators.md R86(a)). -/
theorem test_short_answer : (entFill (toy permId 1) 7 { State.reset with entScript := [.ok [1, 2]] }).1 = none := by decide

/-! Witnesses: for every obligation with hypotheses, states and operands that meet them, each clause at a boundary. -/

theorem inv_of_contexts {s : State} (h1 : s.sponge.Inv) (h2 : s.duplex.Inv) (h3 : s.responses = []) (h4 : s.trace = []) :
    s.Inv := ⟨h1, h2, by simp [h3], by simp [h4]⟩

/-- Leftover at its greatest value, rate at its least. -/
theorem inv_absorbing : (absorbing [] [1, 2, 3, 4, 5, 6, 7] 7).Inv := inv_of_contexts (by decide) (by decide) rfl rfl

/-- A full block, nothing readable, the least rate. -/
theorem inv_full : (ready 8 [] 7 8).Inv := inv_of_contexts (by decide) (by decide) rfl rfl

/-- No pending input, nothing readable, the least rate. -/
theorem inv_fresh : (ready 8 [] 0 8).Inv := inv_of_contexts (by decide) (by decide) rfl rfl

/-- A message waiting just out of reset. -/
def waiting (m : Message) : State := { State.reset with inbox := [.command m] }

theorem witness_EncodedCommandDecodes :
    (Instr.duplexDuplex (List.replicate 65535 0) 0xFFFFFFFF).wf = true ∧ (Instr.spongeUpdate []).wf = true := by
  simp only [Instr.wf, List.length_replicate]
  decide

theorem witness_DecodedMessageReencodes : decode ⟨0x2100000100000001, [7]⟩ = .ok (.duplexDuplex [7] 1) := by decide

theorem witness_DecoderFollowsOpcodeMap :
    (∃ row ∈ opcodeMap, (0x2300000000000011 : BitVec 64) &&& row.mask = row.mtch) ∧
    decode ⟨0x2300000000000011, []⟩ = .ok (.duplexFetch 17) ∧
    ∀ row ∈ opcodeMap, (0x2600000000000000 : BitVec 64) &&& row.mask ≠ row.mtch := by decide

theorem witness_IllegalHeaderAnswered :
    (waiting ⟨0x2600000000000000, []⟩).inbox = .command ⟨0x2600000000000000, []⟩ :: [] ∧
    (∀ row ∈ opcodeMap, (0x2600000000000000 : BitVec 64) &&& row.mask ≠ row.mtch) ∧
    ∃ t, step (waiting ⟨0x2600000000000000, []⟩) = .next t ∧ t.responses = [] ++ [⟨4, []⟩] :=
  ⟨rfl, by decide, _, rfl, rfl⟩

theorem witness_WrongPayloadLengthRefused :
    (waiting ⟨0x1100000000000003, [0]⟩).inbox = .command ⟨0x1100000000000003, [0]⟩ :: [] ∧
    decodeHeader 0x1100000000000003 = some .spongeUpdate := by decide

theorem witness_StepRunsDecodedCommand :
    (waiting ⟨0x1006044000000000, []⟩).inbox = .command ⟨0x1006044000000000, []⟩ :: [] ∧
    decode ⟨0x1006044000000000, []⟩ = .ok (.spongeInit 1088 6) := by decide

theorem witness_IdleKeepsState : State.reset.inbox = [] := rfl

theorem witness_StepTakesOneInput : ∃ t, step (waiting ⟨0x1006044000000000, []⟩) = .next t := ⟨_, rfl⟩

theorem witness_ResetInputUninitialises :
    ({ ready 8 [1] 1 8 with inbox := [.reset, .reset] } : State).inbox = .reset :: [.reset] := rfl

/-- A message cut by reset, on a given context. -/
def cutting (s : State) (m : Message) (requests : Nat) : State := { s with inbox := [.resetDuring m requests] }

/-- 70_reset_and_hazards.md R120(a): a SPONGE_INIT cut short leaves no context and no response. -/
theorem test_reset_during_init :
    ∃ t, step (cutting State.reset ⟨0x1006044000000000, []⟩ 0) = .next t ∧ t.sponge.phase = .uninit ∧
      t.responses = [] ∧ t.entScript = [] := ⟨_, rfl, rfl, rfl, rfl⟩

/-- R120(a): a DUPLEX_RESEED whose first request to ENT would fail, cut before it and at it: the answer at hand stays, or
is dropped and used up. -/
theorem test_reset_during_reseed :
    ∀ k ∈ [(0, 1), (1, 1), (2, 0)], ∃ t,
      step (cutting { ready 8 [] 0 8 with entScript := [.fail] } ⟨0x2500000000000000, []⟩ k.1) = .next t ∧
      t.entScript.length = k.2 ∧ t.duplex.phase = .uninit := by
  intro k hk
  have hd : decode ⟨0x2500000000000000, []⟩ = .ok .duplexReseed := by decide
  obtain ⟨u, h1, h2⟩ : ∃ u, exec .duplexReseed { ready 8 [] 0 8 with entScript := [.fail] } = .next u ∧
      u.trace = [] ++ reseedEvents 8 1 := by
    refine ⟨_, (exec_duplexReseed _).trans (duplexReseed_run rfl (by decide)), ?_⟩
    have h : reseedLoop Config.block (200 / 8) { ready 8 [] 0 8 with entScript := [.fail] } = _ :=
      reseedLoop_fail Config.block 24 _ rfl
    show (State.respond _ _).trace = _
    rw [show ({ ready 8 [] 0 8 with entScript := [.fail] } : State).duplex.rate = 8 from rfl, h]
    rfl
  rw [step_resetDuring rfl, hd]
  dsimp only
  rw [show (cutting { ready 8 [] 0 8 with entScript := [.fail] } ⟨0x2500000000000000, []⟩ k.1).setInbox [] =
    { ready 8 [] 0 8 with entScript := [.fail] } from rfl, abandon_of_next h1, requestsMade_of_trace h2,
    entRequests_take_reseedEvents]
  refine ⟨_, rfl, ?_, rfl⟩
  revert k
  decide

/-- R120(d): a message still being delivered is dropped with no trace of it. -/
theorem test_reset_during_delivery :
    ∃ t, step (cutting State.reset ⟨0x1100000000000003, [0x61]⟩ 0) = .next t ∧ t.responses = [] := ⟨_, rfl, rfl⟩

theorem witness_ResetAbandonsCommand :
    (cutting (ready 8 [] 7 8) ⟨0x2400000000000000, []⟩ 1).Inv ∧
    (cutting (ready 8 [] 7 8) ⟨0x2400000000000000, []⟩ 1).inbox = .resetDuring ⟨0x2400000000000000, []⟩ 1 :: [] ∧
    decode ⟨0x2400000000000000, []⟩ = .ok .duplexForget :=
  ⟨inv_of_contexts (by decide) (by decide) rfl rfl, rfl, by decide⟩

/-- All answers given, the first one a failure, and no context at all. -/
theorem witness_ResetCutsReseed :
    decode ⟨0x2500000000000000, []⟩ = .ok .duplexReseed ∧
    ((cutting State.reset ⟨0x2500000000000000, []⟩ 2).Inv ∧ State.reset.duplex.phase ≠ .ready) ∧
    ((cutting { ready 192 [] 2 192 with entScript := [.ok (List.replicate 191 0)] } ⟨0x2500000000000000, []⟩ 2).Inv ∧
      ([List.replicate 191 0] : List (List Byte)).length = 200 / 192 ∧
      entAnswer Config.block { ready 192 [] 2 192 with entScript := [.ok (List.replicate 191 0)] } (192 - 1) 0 =
        some (List.replicate 191 0)) ∧
    ((cutting { ready 8 [] 0 8 with entScript := [.fail] } ⟨0x2500000000000000, []⟩ 1).Inv ∧
      ([] : List (List Byte)).length < 200 / 8 ∧
      entAnswer Config.block { ready 8 [] 0 8 with entScript := [.fail] } (8 - 1) 0 = none) := by
  refine ⟨by decide, ⟨inv_of_contexts (by decide) (by decide) rfl rfl, by decide⟩,
    ⟨inv_of_contexts (by decide) (by decide) rfl rfl, rfl, by simp [entAnswer, EntAnswer.forRequest]⟩,
    inv_of_contexts (by decide) (by decide) rfl rfl, by decide, rfl⟩

theorem witness_ResetDropsPartialMessage :
    decodeHeader (0x2600000000000000 : BitVec 64) = none ∧
    decodeHeader 0x1100000000000003 = some .spongeUpdate ∧
    ([0x61, 0x62] : List Byte).length < payloadLength .spongeUpdate 0x1100000000000003 ∧
    ([0x61, 0x62, 0x63, 0x64] : List Byte).length > payloadLength .spongeUpdate 0x1100000000000003 := by decide

/-- The context of V-S5 holds the five message bytes it has heard, and hears two more. -/
theorem witness_StepKeepsHeldMessage :
    let s := { absorbing [] [1, 2, 3, 4, 5] 5 with inbox := [.command ⟨0x1100000000000002, [6, 7]⟩] }
    s.Inv ∧ HoldsMessage [1, 2, 3, 4, 5] s.sponge ∧ s.sponge.phase = .absorbing ∧ (∃ t, step s = .next t) ∧
      heardFrom s.inbox [1, 2, 3, 4, 5] = [1, 2, 3, 4, 5, 6, 7] := by
  refine ⟨inv_of_contexts (by decide) (by decide) rfl rfl, fun _ => ⟨rfl, by decide, rfl⟩, rfl, ⟨_, rfl⟩, by decide⟩

theorem witness_StepKeepsInvariant : (ready 8 [] 7 8).Inv ∧ ∃ t, step (ready 8 [] 7 8) = .next t := ⟨inv_full, _, rfl⟩

theorem witness_EveryCommandCompletes : (absorbing [] [1, 2, 3, 4, 5, 6, 7] 7).Inv := inv_absorbing

/-- A command that succeeds, one for each failure status, and the illegal header. -/
theorem witness_responses :
    (∃ t, exec (.spongeInit 64 6) State.reset = .next t ∧ t.responses = [] ++ [⟨0, []⟩]) ∧
    (∃ t, exec (.spongeInit 0 6) State.reset = .next t ∧ t.responses = [] ++ [⟨1, []⟩]) ∧
    (∃ t, exec .duplexReseed { ready 8 [] 0 8 with entScript := [.fail] } = .next t ∧ t.responses = [] ++ [⟨2, []⟩]) ∧
    (∃ t, exec (.duplexFetch 0) State.reset = .next t ∧ t.responses = [] ++ [⟨3, []⟩]) ∧
    ∃ t, answerIllegal State.reset = .next t ∧ t.responses = [] ++ [⟨4, []⟩] := by
  refine ⟨⟨_, rfl, rfl⟩, ⟨_, rfl, rfl⟩, ?_, ⟨_, rfl, rfl⟩, ⟨_, rfl, rfl⟩⟩
  refine ⟨_, (exec_duplexReseed _).trans (duplexReseed_run rfl (by decide)), ?_⟩
  have h : reseedLoop Config.block (200 / 8) { ready 8 [] 0 8 with entScript := [.fail] } = _ :=
    reseedLoop_fail Config.block 24 _ rfl
  show (State.respond _ _).responses = _
  rw [show ({ ready 8 [] 0 8 with entScript := [.fail] } : State).duplex.rate = 8 from rfl, h]
  rfl

theorem witness_ResponseFormat :
    (∃ t, exec (.spongeInit 64 6) State.reset = .next t) ∧ ∃ t, answerIllegal State.reset = .next t :=
  ⟨⟨_, rfl⟩, _, rfl⟩

theorem witness_StatusCodesByCommand :
    ∃ t r, exec (.spongeInit 1600 0x7F) State.reset = .next t ∧ t.responses = State.reset.responses ++ [r] :=
  ⟨_, ⟨0, []⟩, rfl, rfl⟩

theorem witness_MisuseCauses :
    State.reset.Inv ∧ Misuse (.spongeUpdate []) State.reset ∧ Misuse (.spongeFinish 0) State.reset ∧
    Misuse (.duplexDuplex [] 0) State.reset ∧ Misuse (.duplexFeed []) State.reset ∧ Misuse (.duplexFetch 0) State.reset ∧
    Misuse .duplexForget State.reset ∧ Misuse .duplexReseed State.reset ∧
    (ready 8 [] 1 8).Inv ∧ Misuse (.duplexDuplex [] 0) (ready 8 [] 1 8) ∧
    ∃ t, exec (.duplexFeed []) State.reset = .next t ∧ t.responses = State.reset.responses ++ [⟨3, []⟩] := by
  refine ⟨inv_of_contexts (by decide) (by decide) rfl rfl, ?_, ?_, ?_, ?_, ?_, ?_, ?_,
    inv_of_contexts (by decide) (by decide) rfl rfl, ?_, _, rfl, rfl⟩ <;> simp [Misuse, State.reset, ready]

/-- Each condition of 60_exceptions.md R101 at its edge. -/
theorem witness_ConfigErrorCauses :
    (ready 8 [] 0 8).Inv ∧
    (¬Misuse (.spongeInit 0 0) (ready 8 [] 0 8) ∧ ConfigBad (.spongeInit 0 0) (ready 8 [] 0 8)) ∧
    (¬Misuse (.spongeInit 1664 0) (ready 8 [] 0 8) ∧ ConfigBad (.spongeInit 1664 0) (ready 8 [] 0 8)) ∧
    (¬Misuse (.spongeInit 65 0) (ready 8 [] 0 8) ∧ ConfigBad (.spongeInit 65 0) (ready 8 [] 0 8)) ∧
    (¬Misuse (.spongeInit 64 128) (ready 8 [] 0 8) ∧ ConfigBad (.spongeInit 64 128) (ready 8 [] 0 8)) ∧
    (¬Misuse (.duplexInit 0) (ready 8 [] 0 8) ∧ ConfigBad (.duplexInit 0) (ready 8 [] 0 8)) ∧
    (¬Misuse (.duplexInit 1600) (ready 8 [] 0 8) ∧ ConfigBad (.duplexInit 1600) (ready 8 [] 0 8)) ∧
    (¬Misuse (.duplexInit 1535) (ready 8 [] 0 8) ∧ ConfigBad (.duplexInit 1535) (ready 8 [] 0 8)) ∧
    (¬Misuse (.duplexDuplex [0, 0, 0, 0, 0, 0, 0, 0] 0) (ready 8 [] 0 8) ∧
      ConfigBad (.duplexDuplex [0, 0, 0, 0, 0, 0, 0, 0] 0) (ready 8 [] 0 8)) ∧
    (¬Misuse (.duplexDuplex [] 9) (ready 8 [] 0 8) ∧ ConfigBad (.duplexDuplex [] 9) (ready 8 [] 0 8)) ∧
    ∃ t, exec (.duplexInit 0) (ready 8 [] 0 8) = .next t ∧
      t.responses = (ready 8 [] 0 8).responses ++ [⟨1, []⟩] := by
  refine ⟨inv_fresh, ?_, ?_, ?_, ?_, ?_, ?_, ?_, ?_, ?_, _, rfl, rfl⟩ <;> simp [Misuse, ConfigBad, ready]

theorem witness_LanesAreLittleEndianBytes : (24 : Nat) < 25 := by decide

theorem witness_AbsorbBlockXorsWholeLanes :
    (absorbing [] [1, 2, 3, 4, 5, 6, 7] 7).Inv ∧ (absorbing [] [1, 2, 3, 4, 5, 6, 7] 7).sponge.phase ≠ .uninit ∧
    (List.replicate 8 (0xff : Byte)).length = (absorbing [] [1, 2, 3, 4, 5, 6, 7] 7).sponge.rate :=
  ⟨inv_absorbing, by decide, rfl⟩

theorem witness_EntFillAnswersExactly :
    (entFill Config.block 1 { State.reset with entScript := [.ok [9]] }).1 = some [9] := rfl

theorem witness_ToyPermutations : (199 : Nat) < 200 := by decide

theorem witness_CollaboratorRequests :
    State.reset.Inv ∧
    (∃ t, exec (.spongeInit 64 6) State.reset = .next t ∧ t.responses = State.reset.responses ++ [⟨0, []⟩]) ∧
    (∃ t, exec (.spongeInit 0 6) State.reset = .next t ∧ t.responses = State.reset.responses ++ [⟨1, []⟩]) ∧
    (∃ t, exec (.duplexFetch 0) State.reset = .next t ∧ t.responses = State.reset.responses ++ [⟨3, []⟩]) ∧
    ({ ready 8 [] 0 8 with entScript := [.fail] } : State).Inv ∧
    ∃ t, exec .duplexReseed { ready 8 [] 0 8 with entScript := [.fail] } = .next t ∧ t.responses = [] ++ [⟨2, []⟩] :=
  ⟨inv_of_contexts (by decide) (by decide) rfl rfl, witness_responses.1, witness_responses.2.1,
    witness_responses.2.2.2.1, inv_of_contexts (by decide) (by decide) rfl rfl, witness_responses.2.2.1⟩

theorem witness_SpongeInitResult :
    ConfigBad (.spongeInit 1664 0) State.reset ∧ ConfigBad (.spongeInit 64 128) State.reset ∧
    ¬ConfigBad (.spongeInit 1600 127) State.reset ∧ ¬ConfigBad (.spongeInit 64 0) State.reset := by simp [ConfigBad]

theorem witness_SpongeUpdateResult :
    (absorbing [] [1, 2, 3, 4, 5, 6, 7] 7).Inv ∧ (absorbing [] [1, 2, 3, 4, 5, 6, 7] 7).sponge.phase = .absorbing ∧
    State.reset.sponge.phase ≠ .absorbing := ⟨inv_absorbing, rfl, by decide⟩

theorem witness_SpongeFinishResult :
    (absorbing [] [] 0).Inv ∧ (absorbing [] [] 0).sponge.phase = .absorbing ∧ State.reset.sponge.phase ≠ .absorbing :=
  ⟨inv_of_contexts (by decide) (by decide) rfl rfl, rfl, by decide⟩

theorem witness_StreamingEquivalence : ¬ConfigBad (.spongeInit 1600 127) State.reset := by simp [ConfigBad]

theorem witness_XofPrefix :
    (absorbing [] [1, 2, 3, 4, 5, 6, 7] 7).Inv ∧ (absorbing [] [1, 2, 3, 4, 5, 6, 7] 7).sponge.phase = .absorbing ∧
    (8 : BitVec 32).toNat < (9 : BitVec 32).toNat := ⟨inv_absorbing, rfl, by decide⟩

theorem witness_PadPermuteResult : (ready 8 [] 7 8).Inv ∧ (ready 8 [] 7 8).duplex.phase = .ready := ⟨inv_full, rfl⟩

theorem witness_DuplexInitResult :
    ConfigBad (.duplexInit 1600) State.reset ∧ ¬ConfigBad (.duplexInit 1536) State.reset ∧
    ¬ConfigBad (.duplexInit 64) State.reset := by simp [ConfigBad]

theorem witness_DuplexDuplexResult :
    State.reset.Inv ∧ State.reset.duplex.phase ≠ .ready ∧
    (ready 8 [] 1 8).Inv ∧ (ready 8 [] 1 8).duplex.inputIndex ≠ 0 ∧
    (ready 8 [] 0 8).Inv ∧ (ready 8 [] 0 8).duplex.phase = .ready ∧ (ready 8 [] 0 8).duplex.inputIndex = 0 ∧
    ([1, 2, 3, 4, 5, 6, 7, 8] : List Byte).length > (ready 8 [] 0 8).duplex.rate - 1 ∧
    (9 : BitVec 32).toNat > (ready 8 [] 0 8).duplex.rate ∧
    ([1, 2, 3, 4, 5, 6, 7] : List Byte).length ≤ (ready 8 [] 0 8).duplex.rate - 1 ∧
    (8 : BitVec 32).toNat ≤ (ready 8 [] 0 8).duplex.rate :=
  ⟨inv_of_contexts (by decide) (by decide) rfl rfl, by decide, inv_of_contexts (by decide) (by decide) rfl rfl,
    by decide, inv_fresh, by decide⟩

theorem witness_OneShotAgreesWithChunked :
    (ready 8 [] 0 8).Inv ∧ (ready 8 [] 0 8).duplex.phase = .ready ∧ (ready 8 [] 0 8).duplex.inputIndex = 0 ∧
    1 ≤ ([1, 2, 3, 4, 5, 6, 7] : List Byte).length ∧
    ([1, 2, 3, 4, 5, 6, 7] : List Byte).length ≤ (ready 8 [] 0 8).duplex.rate - 1 ∧
    1 ≤ (8 : BitVec 32).toNat ∧ (8 : BitVec 32).toNat ≤ (ready 8 [] 0 8).duplex.rate := ⟨inv_fresh, by decide⟩

theorem witness_DuplexFeedResult :
    (ready 8 [] 7 8).Inv ∧ (ready 8 [] 7 8).duplex.phase = .ready ∧ 1 ≤ ([5] : List Byte).length ∧
    State.reset.duplex.phase ≠ .ready := ⟨inv_full, by decide⟩

theorem witness_FeedComposes : (ready 8 [] 7 8).Inv ∧ (ready 8 [] 7 8).duplex.phase = .ready := ⟨inv_full, rfl⟩

theorem witness_DuplexFetchResult :
    (ready 8 [] 7 8).Inv ∧ (ready 8 [] 7 8).duplex.phase = .ready ∧ 1 ≤ (1 : BitVec 32).toNat ∧
    State.reset.duplex.phase ≠ .ready := ⟨inv_full, by decide⟩

theorem witness_FetchComposes :
    (ready 8 [] 7 8).Inv ∧ (ready 8 [] 7 8).duplex.phase = .ready ∧
    (0 : BitVec 32).toNat + (9 : BitVec 32).toNat = (9 : BitVec 32).toNat := ⟨inv_full, by decide⟩

theorem witness_DuplexForgetResult :
    (ready 8 [] 7 8).Inv ∧ (ready 8 [] 7 8).duplex.phase = .ready ∧ State.reset.duplex.phase ≠ .ready :=
  ⟨inv_full, by decide⟩

/-- Two contexts that differ in what is readable, with the same padded state. -/
theorem witness_ForgetErasesRateBlock :
    ∃ X : Lanes, (ready 8 [] 0 3).Inv ∧ (ready 8 [] 0 8).Inv ∧
      IsPadded Config.block.dsDuplex 8 0 (ready 8 [] 0 3).duplex.A X ∧
      IsPadded Config.block.dsDuplex 8 0 (ready 8 [] 0 8).duplex.A X :=
  ⟨padXor Config.block 8 0 (ready 8 [] 0 8).duplex.A, inv_of_contexts (by decide) (by decide) rfl rfl, inv_fresh,
    fun j _ => stateByte_padXor _ _ _ _ j (by decide) (by decide),
    fun j _ => stateByte_padXor _ _ _ _ j (by decide) (by decide)⟩

/-- At rate 192 one seed is asked for. -/
theorem witness_DuplexReseedSucceeds :
    ({ ready 192 [] 2 192 with entScript := [.ok (List.replicate 191 0)] } : State).Inv ∧
    ([List.replicate 191 0] : List (List Byte)).length = 200 / 192 ∧
    (∀ k < ([List.replicate 191 0] : List (List Byte)).length,
      entAnswer Config.block { ready 192 [] 2 192 with entScript := [.ok (List.replicate 191 0)] } (192 - 1) k =
        some (([List.replicate 191 0] : List (List Byte)).getD k [])) ∧
    State.reset.duplex.phase ≠ .ready := by
  refine ⟨inv_of_contexts (by decide) (by decide) rfl rfl, rfl, fun k hk => ?_, by decide⟩
  have : k = 0 := by simpa using hk
  subst this
  simp [entAnswer, EntAnswer.forRequest]

/-- The first request fails at the least rate; the second at the greatest rate that asks twice (V-D7). -/
theorem witness_DuplexReseedFails :
    (({ ready 8 [] 0 8 with entScript := [.fail] } : State).Inv ∧ ([] : List (List Byte)).length < 200 / 8 ∧
      entAnswer Config.block { ready 8 [] 0 8 with entScript := [.fail] } (8 - 1) 0 = none) ∧
    (({ ready 96 [] 0 96 with entScript := [.ok (List.replicate 95 0), .fail] } : State).Inv ∧
      ([List.replicate 95 0] : List (List Byte)).length < 200 / 96 ∧
      (∀ k < ([List.replicate 95 0] : List (List Byte)).length,
        entAnswer Config.block { ready 96 [] 0 96 with entScript := [.ok (List.replicate 95 0), .fail] } (96 - 1) k =
          some (([List.replicate 95 0] : List (List Byte)).getD k [])) ∧
      entAnswer Config.block { ready 96 [] 0 96 with entScript := [.ok (List.replicate 95 0), .fail] } (96 - 1) 1 =
        none) := by
  refine ⟨⟨inv_of_contexts (by decide) (by decide) rfl rfl, by decide, rfl⟩,
    inv_of_contexts (by decide) (by decide) rfl rfl, by decide, fun k hk => ?_, rfl⟩
  have : k = 0 := by simpa using hk
  subst this
  simp [entAnswer, EntAnswer.forRequest]

theorem witness_CommandsKeepToTheirContext :
    (∃ t, exec (.spongeInit 64 6) State.reset = .next t ∧ isSpongeCommand (.spongeInit 64 6) = true) ∧
    ∃ t, exec (.duplexInit 64) State.reset = .next t ∧ isSpongeCommand (.duplexInit 64) = false :=
  ⟨⟨_, rfl, rfl⟩, _, rfl, rfl⟩

theorem witness_EnginesIndependent :
    (isSpongeCommand (.spongeInit 64 6) = true ∧ State.reset.sponge = (ready 8 [1] 1 8).sponge ∧
      State.reset ≠ ready 8 [1] 1 8 ∧ ∃ t, exec (.spongeInit 64 6) State.reset = .next t) ∧
    (isSpongeCommand (.duplexInit 64) = false ∧ State.reset.duplex = (absorbing [] [] 0).duplex ∧
      State.reset.entScript = (absorbing [] [] 0).entScript ∧ State.reset.entDraws = (absorbing [] [] 0).entDraws ∧
      ∃ t, exec (.duplexInit 64) State.reset = .next t) := by
  refine ⟨⟨rfl, rfl, fun h => ?_, _, rfl⟩, rfl, rfl, rfl, rfl, _, rfl⟩
  have h2 := congrArg (fun s => s.duplex.rate) h
  simp [State.reset, ready] at h2

theorem witness_PhaseTransitions :
    (waiting ⟨0, []⟩).setInbox [.reset] = { State.reset with inbox := [.reset] } ∧
    (∃ t, step (cutting State.reset ⟨0x1006044000000000, []⟩ 0) = .next t) ∧
    (∃ t, answerIllegal State.reset = .next t) ∧
    (∃ t, exec (.spongeInit 64 6) State.reset = .next t ∧ t.responses = State.reset.responses ++ [⟨0, []⟩]) ∧
    ∃ t, exec (.duplexInit 0) State.reset = .next t ∧ t.responses = State.reset.responses ++ [⟨1, []⟩] :=
  ⟨rfl, ⟨_, rfl⟩, ⟨_, rfl⟩, ⟨_, rfl, rfl⟩, _, rfl, rfl⟩

theorem witness_RatesAndSuffixWrittenByInitOnly :
    isInitCommand (.duplexFetch 0) = false ∧ ∃ t, exec (.duplexFetch 0) State.reset = .next t := ⟨rfl, _, rfl⟩

/-- A feed that fills the block and makes no permutation. -/
theorem witness_CapacityUntouchedWithoutPermute :
    (ready 8 [] 6 8).Inv ∧ isInitCommand (.duplexFeed [1]) = false ∧
    (∃ t, exec (.duplexFeed [1]) (ready 8 [] 6 8) = .next t ∧ t.trace = (ready 8 [] 6 8).trace) ∧
    (ready 8 [] 6 8).duplex.phase = .ready ∧
    (absorbing [] [] 0).Inv ∧ isInitCommand (.spongeUpdate []) = false ∧
    (∃ t, exec (.spongeUpdate []) (absorbing [] [] 0) = .next t ∧ t.trace = (absorbing [] [] 0).trace) ∧
    (absorbing [] [] 0).sponge.phase ≠ .uninit :=
  ⟨inv_of_contexts (by decide) (by decide) rfl rfl, rfl, ⟨_, rfl, rfl⟩, rfl,
    inv_of_contexts (by decide) (by decide) rfl rfl, rfl, ⟨_, rfl, rfl⟩, by decide⟩

/-- Two states with different registers in uninitialised engines. -/
theorem witness_UnspecifiedRegistersUnobservable :
    Agree State.reset { State.reset with sponge := { State.reset.sponge with rate := 77 } } ∧
    ∃ t, step State.reset = .next t :=
  ⟨⟨rfl, (fun h => nomatch h), rfl, (fun h => nomatch h), rfl, rfl, rfl, rfl, rfl, rfl⟩, _, rfl⟩

/-- Two feeds of different bytes onto different lanes. -/
theorem witness_ControlFlowIgnoresData :
    SameShape (.duplexFeed [1, 2]) (.duplexFeed [3, 4]) ∧ SameControl (ready 8 [5] 3 8) (ready 8 [6] 3 8) ∧
    ∃ t, exec (.duplexFeed [1, 2]) (ready 8 [5] 3 8) = .next t :=
  ⟨rfl, ⟨rfl, rfl, rfl, rfl, rfl, rfl, rfl, rfl, .nil, rfl⟩, _, rfl⟩

end Sys2Proof.Machine.Tests
end

section
/-! The phase tags (spec 10_state.md R17): which commands leave them, and what each init, SPONGE_FINISH and a reset
make of them. -/

namespace Sys2Proof.Machine

/-- From `s` to `t` neither phase tag changed. -/
def KeepsPhases (s t : State) : Prop := t.sponge.phase = s.sponge.phase ∧ t.duplex.phase = s.duplex.phase

theorem keepsPhases_respond (s : State) (q : Response) : KeepsPhases s (s.respond q) := ⟨rfl, rfl⟩

theorem OnlySponge.keepsPhases_respond {s u : State} (h : OnlySponge s u) (q : Response) : KeepsPhases s (u.respond q) :=
  ⟨h.phase, congrArg DuplexCtx.phase h.duplex⟩

theorem OnlyReseed.keepsPhases_respond {s u : State} (h : OnlyReseed s u) (q : Response) : KeepsPhases s (u.respond q) :=
  ⟨congrArg SpongeCtx.phase h.sponge, h.phase⟩

/-! The commands that leave both tags, whether they fail or not. -/

theorem spongeUpdate_onlySponge {c : Config} {d : List Byte} {s t : State} (h : spongeUpdate c d s = .next t) :
    ∃ u q, OnlySponge s u ∧ t = u.respond q := by
  rcases spongeUpdate_next h with ⟨_, ht⟩ | ⟨_, _, ht⟩
  · exact ⟨s, _, .refl s, ht⟩
  · refine ⟨_, _, ?_, ht⟩
    split
    · exact .refl s
    · exact onlySponge_updateState c d s

theorem onlyReseed_reseedLoop {c : Config} {s : State} (hl : s.duplex.legal = true) (iters : Nat) :
    OnlyReseed s (reseedLoop c iters s).2 := by
  obtain ⟨⟨hr, _, _⟩, _, _⟩ := (DuplexCtx.legal_iff _).mp hl
  exact (reseedLoop_cases c iters s (by omega)).1

theorem onlyDuplex_forget (c : Config) (s : State) :
    OnlyDuplex s ((padPermute c (wipeBlock (padPermute c s))).setOutputIndex s.duplex.rate) :=
  (((onlyDuplex_padPermute c s).trans (onlyDuplex_wipeBlock _)).trans (onlyDuplex_padPermute c _)).trans
    (onlyDuplex_setOutputIndex _ _)

/-- A duplex command that is no init touches, besides its response, only what a reseed may touch. -/
theorem exec_duplex_onlyReseed {i : Instr} {s t : State} (hd : isSpongeCommand i = false) (hi : isInitCommand i = false)
    (h : exec i s = .next t) : ∃ u q, OnlyReseed s u ∧ t = u.respond q := by
  cases i with
  | spongeInit _ _ | spongeUpdate _ | spongeFinish _ => cases hd
  | duplexInit _ => cases hi
  | duplexDuplex x n =>
    rcases duplexDuplex_next h with ⟨_, ht⟩ | ⟨_, _, _, _, ht⟩ | ⟨_, _, _, _, ht⟩
    · exact ⟨s, _, .refl s, ht⟩
    · exact ⟨s, _, .refl s, ht⟩
    · exact ⟨_, _, (onlyDuplex_oneShotTurn _ x _ s).toReseed, ht⟩
  | duplexFeed d =>
    rcases duplexFeed_next h with ⟨_, ht⟩ | ⟨_, _, ht⟩
    · exact ⟨s, _, .refl s, ht⟩
    · exact ⟨_, _, (onlyDuplex_feedBytes _ d s).toReseed, ht⟩
  | duplexFetch n =>
    rcases duplexFetch_next h with ⟨_, ht⟩ | ⟨_, _, ht⟩
    · exact ⟨s, _, .refl s, ht⟩
    · exact ⟨_, _, (onlyDuplex_fetchLoop _ _ _ s).toReseed, ht⟩
  | duplexForget =>
    rcases duplexForget_next h with ⟨_, ht⟩ | ⟨_, _, ht⟩
    · exact ⟨s, _, .refl s, ht⟩
    · exact ⟨_, _, (onlyDuplex_forget _ s).toReseed, ht⟩
  | duplexReseed =>
    rcases duplexReseed_next h with ⟨_, ht⟩ | ⟨_, hl, ht⟩
    · exact ⟨s, _, .refl s, ht⟩
    · exact ⟨_, _, onlyReseed_reseedLoop hl _, ht⟩

theorem spongeUpdate_keepsPhases {c : Config} {d : List Byte} {s t : State} (h : spongeUpdate c d s = .next t) :
    KeepsPhases s t := by
  obtain ⟨u, q, hu, rfl⟩ := spongeUpdate_onlySponge h
  exact hu.keepsPhases_respond q

theorem exec_duplex_keepsPhases {i : Instr} {s t : State} (hd : isSpongeCommand i = false) (hi : isInitCommand i = false)
    (h : exec i s = .next t) : KeepsPhases s t := by
  obtain ⟨u, q, hu, rfl⟩ := exec_duplex_onlyReseed hd hi h
  exact hu.keepsPhases_respond q

/-! The response's word tells a failure, which leaves both tags, from a success. -/

/-- Both tags are kept when the response `r` reports a failure; when it reports success, `success` holds. -/
def PhaseEffect (s t : State) (r : Response) (success : Prop) : Prop :=
  (r.word ≠ 0 → KeepsPhases s t) ∧ (r.word = 0 → success)

theorem response_eq_of_respond {s u : State} {q r : Response} (hu : u.responses = s.responses)
    (h : (u.respond q).responses = s.responses ++ [r]) : r = q := by
  simpa [hu, eq_comm] using h

theorem Status.word_eq_zero_iff (st : Status) : st.word = 0 ↔ st = .ok := by cases st <;> decide

/-- The effect of a failure, whatever success would have meant. -/
theorem phaseEffect_fail {s t : State} {r : Response} {st : Status} {success : Prop} (hst : st ≠ .ok)
    (ht : t = s.respond ⟨st.word, []⟩) (hr : t.responses = s.responses ++ [r]) : PhaseEffect s t r success := by
  subst ht
  obtain rfl := response_eq_of_respond rfl hr
  exact ⟨fun _ => keepsPhases_respond s _, fun h0 => absurd ((Status.word_eq_zero_iff st).mp h0) hst⟩

/-- The effect of a success. -/
theorem phaseEffect_ok {s t u : State} {r : Response} {out : List Byte} {success : Prop}
    (ht : t = u.respond ⟨Status.ok.word, out⟩) (hu : u.responses = s.responses)
    (hr : t.responses = s.responses ++ [r]) (h : success) : PhaseEffect s t r success := by
  subst ht
  obtain rfl := response_eq_of_respond hu hr
  exact ⟨fun hne => absurd rfl hne, fun _ => h⟩

theorem KeepsPhases.phaseEffect {s t : State} (h : KeepsPhases s t) (r : Response) :
    PhaseEffect s t r (KeepsPhases s t) := ⟨fun _ => h, fun _ => h⟩

/-! The commands that set a tag. -/

theorem spongeInit_phaseEffect {rb : BitVec 16} {sf : Byte} {s t : State} {r : Response}
    (h : spongeInit rb sf s = .next t) (hr : t.responses = s.responses ++ [r]) :
    PhaseEffect s t r (t.sponge.phase = .absorbing ∧ t.duplex.phase = s.duplex.phase) := by
  rcases spongeInit_next h with ⟨_, ht⟩ | ⟨_, ht⟩
  · exact phaseEffect_fail (by decide) ht hr
  · exact phaseEffect_ok ht rfl hr (by simp [ht])

theorem spongeFinish_phaseEffect {c : Config} {n : Nat} {s t : State} {r : Response}
    (h : spongeFinish c n s = .next t) (hr : t.responses = s.responses ++ [r]) :
    PhaseEffect s t r
      (s.sponge.phase = .absorbing ∧ t.sponge.phase = .finished ∧ t.duplex.phase = s.duplex.phase) := by
  rcases spongeFinish_next h with ⟨_, ht⟩ | ⟨hp, _, ht⟩
  · exact phaseEffect_fail (by decide) ht hr
  · have hs : OnlySponge s (squeeze c n n (absorbPadded c s)).2 :=
      (onlySponge_absorbPadded c s).trans (onlySponge_squeeze c n n _)
    exact phaseEffect_ok ht hs.responses hr ⟨hp, by simp [ht], by simp [ht, hs.duplex]⟩

theorem duplexInit_phaseEffect {rb : BitVec 16} {s t : State} {r : Response}
    (h : duplexInit rb s = .next t) (hr : t.responses = s.responses ++ [r]) :
    PhaseEffect s t r (t.duplex.phase = .ready ∧ t.sponge.phase = s.sponge.phase) := by
  rcases duplexInit_next h with ⟨_, ht⟩ | ⟨_, ht⟩
  · exact phaseEffect_fail (by decide) ht hr
  · exact phaseEffect_ok ht rfl hr (by simp [ht])

/-! A step that ends in the reset event. -/

theorem step_reset {s : State} {rest : List HostInput} (h : s.inbox = .reset :: rest) :
    step s = .next (resetEvent Config.block (s.setInbox rest)) := by
  rw [step, fetch, h]

/-- A reset during a message, where it gives a next state, gives one a reset event left. -/
theorem step_resetDuring_next {s t : State} {m : Message} {requests : Nat} {rest : List HostInput}
    (h : s.inbox = .resetDuring m requests :: rest) (ht : step s = .next t) : ∃ u, t = resetEvent Config.block u := by
  rw [step_resetDuring h] at ht
  split at ht
  · obtain ⟨_, _, hu⟩ := abandon_next ht
    exact ⟨_, hu⟩
  · cases ht
    exact ⟨_, rfl⟩
  · split at ht <;> cases ht
    exact ⟨_, rfl⟩

theorem answerIllegal_keepsPhases {s t : State} (h : answerIllegal s = .next t) : KeepsPhases s t := by
  rw [answerIllegal, fail_eq] at h
  cases h
  exact keepsPhases_respond s _

/-- Settles O48: the reset clauses from what the reset event leaves, the last one command by command, a failed command
and a command without a tag of its own by the frame of its engine. -/
theorem phaseTransitions : Obligations.PhaseTransitions := by
  refine ⟨⟨rfl, rfl⟩, fun s rest h => ⟨_, step_reset h, rfl, rfl⟩, fun s t m requests rest h ht => ?_,
    fun s t h => answerIllegal_keepsPhases h, fun i s t r h hr => ?_⟩
  · obtain ⟨u, rfl⟩ := step_resetDuring_next h ht
    exact ⟨rfl, rfl⟩
  · cases i with
    | spongeInit _ _ => exact spongeInit_phaseEffect h hr
    | spongeUpdate _ => exact (spongeUpdate_keepsPhases h).phaseEffect r
    | spongeFinish _ => exact spongeFinish_phaseEffect h hr
    | duplexInit _ => exact duplexInit_phaseEffect h hr
    | duplexDuplex _ _ | duplexFeed _ | duplexFetch _ | duplexForget | duplexReseed =>
      exact (exec_duplex_keepsPhases rfl rfl h).phaseEffect r

end Sys2Proof.Machine
end

section
/-! PROOFS. The byte view of the lanes as numbers (spec 20_memory.md R21): a state byte is a base-256 digit of its lane,
and a number below `256 ^ n` is the sum of its first `n` digits. -/

namespace Sys2Proof.Machine

theorem toNat_stateByte (A : Lanes) (j : Nat) :
    (stateByte A j).toNat = (laneAt A (j / 8)).toNat / 2 ^ (8 * (j % 8)) % 256 := by
  simp [stateByte, Nat.shiftRight_eq_div_pow]

/-- Byte `k` of lane `i`, wherever in the lane it lies. -/
theorem toNat_stateByte_of_lane (A : Lanes) (i : Nat) {k : Nat} (hk : k < 8) :
    (stateByte A (8 * i + k)).toNat = (laneAt A i).toNat / 2 ^ (8 * k) % 256 := by
  have hlane : (8 * i + k) / 8 = i := by omega
  have hplace : (8 * i + k) % 8 = k := by omega
  rw [toNat_stateByte, hlane, hplace]

/-- The first `n` bytes of a number, each in its place, sum to what the number leaves modulo `2 ^ (8 * n)`. -/
theorem sum_low_bytes (x n : Nat) :
    ((List.range n).map (fun k => x / 2 ^ (8 * k) % 256 * 2 ^ (8 * k))).sum = x % 2 ^ (8 * n) := by
  induction n with
  | zero => simp [Nat.mod_one]
  | succ n ih =>
    have hsplit : x % 2 ^ (8 * (n + 1)) = x % 2 ^ (8 * n) + 2 ^ (8 * n) * (x / 2 ^ (8 * n) % 256) := by
      rw [Nat.mul_succ, Nat.pow_add, Nat.mod_mul]
    rw [List.sum_range_succ, ih, hsplit, Nat.mul_comm (2 ^ (8 * n))]

/-- Settles O22: a state byte is its lane's digit, and a lane, being below `2 ^ 64`, is the sum of its eight digits. -/
theorem lanesAreLittleEndianBytes : Obligations.LanesAreLittleEndianBytes := by
  refine ⟨toNat_stateByte, fun A i _ => ?_⟩
  have hbytes : (List.range 8).map (fun k => (stateByte A (8 * i + k)).toNat * 2 ^ (8 * k)) =
      (List.range 8).map (fun k => (laneAt A i).toNat / 2 ^ (8 * k) % 256 * 2 ^ (8 * k)) :=
    List.map_congr_left fun k hk => by rw [toNat_stateByte_of_lane A i (List.mem_range.mp hk)]
  rw [hbytes, sum_low_bytes, Nat.mod_eq_of_lt (laneAt A i).isLt]

end Sys2Proof.Machine
end

section
/-! PROOFS. The decoder by the opcode map (spec 30_encoding.md R41 to R43, R49): the header's fields as numbers, one row
per mnemonic, and what is decoded where a row is selected and where none is. -/

namespace Sys2Proof

theorem toNat_headerImm8 (h : BitVec 64) : (headerImm8 h).toNat = h.toNat / 2 ^ 48 % 2 ^ 8 := by
  rw [headerImm8, BitVec.extractLsb'_toNat, Nat.shiftRight_eq_div_pow]

theorem toNat_headerArg16 (h : BitVec 64) : (headerArg16 h).toNat = h.toNat / 2 ^ 32 % 2 ^ 16 := by
  rw [headerArg16, BitVec.extractLsb'_toNat, Nat.shiftRight_eq_div_pow]

theorem toNat_headerLen32 (h : BitVec 64) : (headerLen32 h).toNat = h.toNat % 2 ^ 32 := by
  rw [headerLen32, BitVec.extractLsb'_toNat, Nat.shiftRight_zero]

theorem OpcodeRow.selects_iff_and_eq (row : OpcodeRow) (h : BitVec 64) :
    row.selects h = true ↔ h &&& row.mask = row.mtch := beq_iff_eq

/-- A selected row's mnemonic is the one the header fits (30_encoding.md R43). -/
theorem headerFits_of_and_eq {row : OpcodeRow} {h : BitVec 64} (hr : row ∈ opcodeMap)
    (hm : h &&& row.mask = row.mtch) : headerFits row.op h :=
  (selects_iff hr h).mp ((row.selects_iff_and_eq h).mpr hm)

/-- The opcode map has one row per mnemonic. -/
theorem opcodeMap_row_eq_of_op_eq {row row' : OpcodeRow} (hr : row ∈ opcodeMap) (hr' : row' ∈ opcodeMap)
    (ho : row.op = row'.op) : row = row' :=
  have hnodup : (opcodeMap.map OpcodeRow.op).Nodup := by decide
  List.inj_on_of_nodup_map hnodup hr hr' ho

theorem decodeHeader_eq_none_iff {h : BitVec 64} :
    decodeHeader h = none ↔ ∀ row ∈ opcodeMap, h &&& row.mask ≠ row.mtch := by
  simp only [decodeHeader, Option.map_eq_none_iff, List.find?_eq_none, OpcodeRow.selects_iff_and_eq, ne_eq]

theorem decode_eq_illegal_of_decodeHeader {m : Message} (h : decodeHeader m.header = none) :
    decode m = .error .illegal := by rw [decode, h]

/-- A message whose header fits `op` decodes only to the command of `op` with the header's operands (30_encoding.md R42,
R45). -/
theorem decode_eq_ok_iff_of_fits {m : Message} {op : Op} {i : Instr} (hf : headerFits op m.header) :
    decode m = .ok i ↔ m.payload.length = payloadLength op m.header ∧ assemble op m.header m.payload = i := by
  rw [decode_of_fits hf]
  split <;> simp [*]

/-- Settles O4: a selected row's mnemonic is the only one the header fits, so the decoder answers it, no other row is
selected, and the command is assembled from the header's fields under it. -/
theorem decoderFollowsOpcodeMap : Obligations.DecoderFollowsOpcodeMap := by
  refine ⟨fun m row hr hm => ?_, fun m hnone => ?_⟩
  · have hfits := headerFits_of_and_eq hr hm
    refine ⟨decodeHeader_eq_some.mpr hfits, fun row' hr' hm' => ?_, fun i hi => ?_⟩
    · exact opcodeMap_row_eq_of_op_eq hr' hr (headerFits_unique (headerFits_of_and_eq hr' hm') hfits)
    · obtain ⟨-, rfl⟩ := (decode_eq_ok_iff_of_fits hfits).mp hi
      cases row.op with
      | spongeInit => exact ⟨rfl, toNat_headerArg16 _, toNat_headerImm8 _⟩
      | spongeUpdate | duplexFeed => exact ⟨rfl, rfl⟩
      | spongeFinish | duplexFetch => exact ⟨rfl, toNat_headerLen32 _⟩
      | duplexInit => exact ⟨rfl, toNat_headerArg16 _⟩
      | duplexDuplex => exact ⟨rfl, rfl, toNat_headerLen32 _⟩
      | duplexForget | duplexReseed => rfl
  · have hnoop := decodeHeader_eq_none_iff.mpr hnone
    exact ⟨hnoop, decode_eq_illegal_of_decodeHeader hnoop⟩

end Sys2Proof
end

section
/-! PROOFS. The form of a response (spec 30_encoding.md R46): its status word, and how many output bytes follow it. -/

namespace Sys2Proof.Machine

theorem Status.toNat_word_le_four (st : Status) : st.word.toNat ≤ 4 := by cases st <;> decide

/-- From `s` to `t` one response was appended, in the form of 30_encoding.md R46: a status word 0 to 4, and `n` output
bytes with status 0, none with another. -/
def AnswersInFormat (n : Nat) (s t : State) : Prop :=
  ∃ r, t.responses = s.responses ++ [r] ∧ r.word.toNat ≤ 4 ∧ (r.word = 0 → r.out.length = n) ∧ (r.word ≠ 0 → r.out = [])

theorem answersInFormat_fail {n : Nat} {s t : State} {st : Status} (hst : st ≠ .ok)
    (ht : t = s.respond ⟨st.word, []⟩) : AnswersInFormat n s t :=
  ⟨⟨st.word, []⟩, by rw [ht, State.respond_responses], st.toNat_word_le_four,
    fun h0 => absurd (st.word_eq_zero_iff.mp h0) hst, fun _ => rfl⟩

theorem answersInFormat_ok {n : Nat} {s t u : State} {out : List Byte} (ht : t = u.respond ⟨Status.ok.word, out⟩)
    (hu : u.responses = s.responses) (hlen : out.length = n) : AnswersInFormat n s t :=
  ⟨⟨Status.ok.word, out⟩, by rw [ht, State.respond_responses, hu], Status.toNat_word_le_four _,
    fun _ => hlen, fun hne => absurd rfl hne⟩

/-- A command without output answers in the form whatever its status. -/
theorem answersInFormat_noOutput {s t u : State} {st : Status} (ht : t = u.respond ⟨st.word, []⟩)
    (hu : u.responses = s.responses) : AnswersInFormat 0 s t :=
  ⟨⟨st.word, []⟩, by rw [ht, State.respond_responses, hu], st.toNat_word_le_four, fun _ => rfl, fun _ => rfl⟩

theorem spongeInit_answersInFormat {rb : BitVec 16} {sf : Byte} {s t : State} (h : spongeInit rb sf s = .next t) :
    AnswersInFormat 0 s t := by
  rcases spongeInit_next h with ⟨_, ht⟩ | ⟨_, ht⟩ <;> exact answersInFormat_noOutput ht rfl

theorem spongeUpdate_answersInFormat {c : Config} {d : List Byte} {s t : State} (h : spongeUpdate c d s = .next t) :
    AnswersInFormat 0 s t := by
  rcases spongeUpdate_next h with ⟨_, ht⟩ | ⟨_, _, ht⟩
  · exact answersInFormat_noOutput ht rfl
  · refine answersInFormat_noOutput ht ?_
    split
    · rfl
    · exact (onlySponge_updateState c d s).responses

theorem spongeFinish_answersInFormat {c : Config} {n : Nat} {s t : State} (h : spongeFinish c n s = .next t) :
    AnswersInFormat n s t := by
  rcases spongeFinish_next h with ⟨_, ht⟩ | ⟨_, hl, ht⟩
  · exact answersInFormat_fail (by decide) ht
  · obtain ⟨⟨hrate, -, -⟩, -, -⟩ := (SpongeCtx.legal_iff _).mp hl
    have hpadded := onlySponge_absorbPadded c s
    have hpos : 0 < (absorbPadded c s).sponge.rate := by rw [hpadded.rate]; omega
    exact answersInFormat_ok ht (hpadded.trans (onlySponge_squeeze c n n _)).responses
      (squeeze_length c n n _ hpos le_rfl)

theorem duplexInit_answersInFormat {rb : BitVec 16} {s t : State} (h : duplexInit rb s = .next t) :
    AnswersInFormat 0 s t := by
  rcases duplexInit_next h with ⟨_, ht⟩ | ⟨_, ht⟩ <;> exact answersInFormat_noOutput ht rfl

theorem duplexDuplex_answersInFormat {c : Config} {x : List Byte} {n : Nat} {s t : State}
    (h : duplexDuplex c x n s = .next t) : AnswersInFormat n s t := by
  rcases duplexDuplex_next h with ⟨_, ht⟩ | ⟨_, _, _, _, ht⟩ | ⟨_, _, _, _, ht⟩
  · exact answersInFormat_fail (by decide) ht
  · exact answersInFormat_fail (by decide) ht
  · exact answersInFormat_ok ht (onlyDuplex_oneShotTurn c x n s).responses (length_readRun _ _ _)

theorem duplexFeed_answersInFormat {c : Config} {d : List Byte} {s t : State} (h : duplexFeed c d s = .next t) :
    AnswersInFormat 0 s t := by
  rcases duplexFeed_next h with ⟨_, ht⟩ | ⟨_, _, ht⟩
  · exact answersInFormat_noOutput ht rfl
  · exact answersInFormat_noOutput ht (onlyDuplex_feedBytes c d s).responses

theorem duplexFetch_answersInFormat {c : Config} {n : Nat} {s t : State} (h : duplexFetch c n s = .next t) :
    AnswersInFormat n s t := by
  rcases duplexFetch_next h with ⟨_, ht⟩ | ⟨_, hl, ht⟩
  · exact answersInFormat_fail (by decide) ht
  · obtain ⟨⟨hrate, -, -⟩, -, hout⟩ := (DuplexCtx.legal_iff _).mp hl
    obtain ⟨-, hlen, -⟩ := fetchLoop_spec c n n s (by omega) hout le_rfl
    exact answersInFormat_ok ht (onlyDuplex_fetchLoop c n n s).responses hlen

theorem duplexForget_answersInFormat {c : Config} {s t : State} (h : duplexForget c s = .next t) :
    AnswersInFormat 0 s t := by
  rcases duplexForget_next h with ⟨_, ht⟩ | ⟨_, _, ht⟩
  · exact answersInFormat_noOutput ht rfl
  · exact answersInFormat_noOutput ht (onlyDuplex_forget c s).responses

theorem duplexReseed_answersInFormat {c : Config} {s t : State} (h : duplexReseed c s = .next t) :
    AnswersInFormat 0 s t := by
  rcases duplexReseed_next h with ⟨_, ht⟩ | ⟨_, hl, ht⟩
  · exact answersInFormat_noOutput ht rfl
  · exact answersInFormat_noOutput ht (onlyReseed_reseedLoop hl _).responses

theorem exec_answersInFormat {i : Instr} {s t : State} (h : exec i s = .next t) : AnswersInFormat i.outlen s t := by
  cases i with
  | spongeInit _ _ => exact spongeInit_answersInFormat h
  | spongeUpdate _ => exact spongeUpdate_answersInFormat h
  | spongeFinish _ => exact spongeFinish_answersInFormat h
  | duplexInit _ => exact duplexInit_answersInFormat h
  | duplexDuplex _ _ => exact duplexDuplex_answersInFormat h
  | duplexFeed _ => exact duplexFeed_answersInFormat h
  | duplexFetch _ => exact duplexFetch_answersInFormat h
  | duplexForget => exact duplexForget_answersInFormat h
  | duplexReseed => exact duplexReseed_answersInFormat h

theorem answerIllegal_responses {s t : State} (h : answerIllegal s = .next t) :
    t.responses = s.responses ++ [⟨4, []⟩] := by
  rw [answerIllegal, fail_eq] at h
  cases h
  rfl

/-- Settles O18, command by command: a failure carries no output, and each output loop gives as many bytes as were asked
for because a legal rate is not zero. -/
theorem responseFormat : Obligations.ResponseFormat :=
  ⟨fun _ _ _ h => exec_answersInFormat h, fun _ _ h => answerIllegal_responses h⟩

end Sys2Proof.Machine
end

section
/-! PROOFS. `AbsorbBlock` lane by lane (spec 40_sponge.md R54): a run of `SBxor` over whole lanes is one XOR per lane,
with eight bytes assembled little-endian. -/

namespace Sys2Proof.Machine

/-- Bit `m` of byte `k` of a lane (20_memory.md R21). -/
theorem getLsbD_laneAt (A : Lanes) (i : Nat) {k m : Nat} (hk : k < 8) (hm : m < 8) :
    (laneAt A i).getLsbD (8 * k + m) = (stateByte A (8 * i + k)).getLsbD m := by
  have hlane : (8 * i + k) / 8 = i := by omega
  have hplace : (8 * i + k) % 8 = k := by omega
  rw [getLsbD_stateByte, hlane, hplace, decide_eq_true hm, Bool.true_and]

/-- In a lane assembled from `n` bytes, byte `b` is the `b`-th of them. -/
theorem getLsbD_assembled (v : Nat → Byte) {n b m : Nat} (hn : n ≤ 8) (hb : b < 8) (hm : m < 8) :
    ((List.range n).foldl (fun acc k => acc ||| ((v k).setWidth 64 <<< (8 * k))) 0).getLsbD (8 * b + m) =
      (decide (b < n) && (v b).getLsbD m) := by
  induction n with
  | zero => simp
  | succ n ih =>
    rw [List.range_succ, List.foldl_append, List.foldl_cons, List.foldl_nil, BitVec.getLsbD_or, ih (by omega),
      getLsbD_placed (v n) n b m (by omega) hb hm]
    rcases Nat.lt_trichotomy b n with h | h | h
    · simp [h, Nat.lt_succ_of_lt h, Nat.ne_of_gt h]
    · simp [h]
    · simp [Nat.not_lt_of_gt h, Nat.not_lt_of_ge h, Nat.ne_of_lt h]

/-- XORing in a block of whole lanes XORs each of its lanes and leaves the others (40_sponge.md R54). -/
theorem laneAt_xorRun (A : Lanes) (B : List Byte) (i : Nat) (hB : B.length ≤ 200) (h8 : B.length % 8 = 0) :
    laneAt (xorRun A 0 B) i =
      if i < B.length / 8 then
        laneAt A i ^^^ (List.range 8).foldl (fun acc k => acc ||| ((B.getD (8 * i + k) 0).setWidth 64 <<< (8 * k))) 0
      else laneAt A i := by
  refine BitVec.eq_of_getLsbD_eq fun p hp => ?_
  obtain ⟨k, m, hk, hm, rfl⟩ : ∃ k m, k < 8 ∧ m < 8 ∧ p = 8 * k + m := ⟨p / 8, p % 8, by omega, by omega, by omega⟩
  rw [getLsbD_laneAt _ i hk hm, stateByte_xorRun _ _ _ _ (by omega), BitVec.getLsbD_xor, ← getLsbD_laneAt A i hk hm]
  by_cases hi : i < B.length / 8
  · rw [if_pos hi, if_pos (by omega), BitVec.getLsbD_xor, getLsbD_assembled (fun k => B.getD (8 * i + k) 0) le_rfl hk hm]
    simp [hk]
  · rw [if_neg hi, if_neg (by omega)]
    simp

theorem State.Inv.sponge_legal {s : State} (h : s.Inv) (hp : s.sponge.phase ≠ .uninit) : s.sponge.legal = true := by
  obtain ⟨⟨-, -, hlegal⟩, -⟩ := h
  exact hlegal hp

/-- Settles O23: a legal rate is a number of whole lanes within the state, so the run of `SBxor` is the lane form. -/
theorem absorbBlockXorsWholeLanes : Obligations.AbsorbBlockXorsWholeLanes := by
  intro s B hinv hp hB
  obtain ⟨⟨-, hr, h8⟩, -⟩ := (SpongeCtx.legal_iff _).mp (hinv.sponge_legal hp)
  rw [← hB] at hr h8 ⊢
  exact ⟨xorRun s.sponge.A 0 B, fun i _ => laneAt_xorRun s.sponge.A B i hr h8, rfl⟩

end Sys2Proof.Machine
end

section
/-! PROOFS. The three commands of the Sponge Engine (spec 40_sponge.md R52, R53, R55, R56): the whole state each
leaves. -/

namespace Sys2Proof.Machine

/-! `SPONGE_INIT`. -/

theorem spongeInit_rejected {rb : BitVec 16} {sf : Byte} (s : State) (h : ConfigBad (.spongeInit rb sf) s) :
    spongeInit rb sf s = .next (s.respond ⟨Status.errConfig.word, []⟩) := by
  rw [spongeInit, if_pos ((spongeInitRejects_iff rb sf s).mpr h), fail_eq]

theorem spongeInit_accepted {rb : BitVec 16} {sf : Byte} (s : State) (h : ¬ConfigBad (.spongeInit rb sf) s) :
    spongeInit rb sf s =
      .next ((s.setSponge ⟨Lanes.zero, Buffer.zero, 0, rb.toNat / 8, sf, .absorbing⟩).respond ⟨Status.ok.word, []⟩) := by
  rw [spongeInit, if_neg (mt (spongeInitRejects_iff rb sf s).mp h), complete_eq]

/-- Settles O28: the operand check is the condition of 60_exceptions.md R101, and each branch is one response. -/
theorem spongeInitResult : Obligations.SpongeInitResult := by
  refine fun s rb sf => ⟨rfl, fun hbad => ?_, fun hok => ?_⟩
  · rw [exec_spongeInit, spongeInit_rejected s hbad]
    rfl
  · rw [exec_spongeInit, spongeInit_accepted s hok]
    exact ⟨_, rfl, fun i _ => laneAt_zero i, fun j _ => bufByte_zero j, rfl, rfl, rfl, rfl⟩

/-! `SPONGE_UPDATE`. -/

/-- Where only the sponge was worked on, its context and the trace say the whole state. -/
theorem OnlySponge.eq_of_sponge_trace {s t : State} (h : OnlySponge s t) {x : SpongeCtx} {tr : List Event}
    (hx : t.sponge = x) (htr : t.trace = tr) : t = { s with sponge := x, trace := tr } := by
  obtain ⟨hduplex, -, -, -, -, hresponses, hinbox, hscript, hdraws, hresets⟩ := h
  cases t
  simp only at hx htr hduplex hresponses hinbox hscript hdraws hresets
  rw [hx, htr, hduplex, hresponses, hinbox, hscript, hdraws, hresets]

theorem onlySponge_update (c : Config) (data : List Byte) (s : State) :
    OnlySponge s (if data.length = 0 then s else spongeUpdateState c data s) := by
  split
  · exact .refl s
  · exact onlySponge_updateState c data s

/-- Settles O29: the context and the trace `SPONGE_UPDATE` leaves are those of its two steps, and its frame gives the
rest of the state. -/
theorem spongeUpdateResult : Obligations.SpongeUpdateResult := by
  refine ⟨fun _ => rfl, fun s data hinv hp => ?_, fun s data hp => ?_⟩
  · have hlegal := hinv.sponge_legal (by simp [hp])
    obtain ⟨⟨hr8, hr200, -⟩, hl, -⟩ := (SpongeCtx.legal_iff _).mp hlegal
    obtain ⟨buf, hsponge, htrace, hbuf⟩ := spongeUpdateState_spec Config.block data s (by omega) hr200 hl
    refine ⟨_, buf, ?_, rfl, hbuf⟩
    rw [exec_spongeUpdate, spongeUpdate_run hp hlegal,
      (onlySponge_update Config.block data s).eq_of_sponge_trace hsponge htrace]
    rfl
  · exact exec_wrongPhase (.spongeUpdate data) s rfl (fun _ => hp) nofun

/-! `SPONGE_FINISH`. -/

/-- `T0`: the lanes once the padded last block of a context has been absorbed (40_sponge.md R55, R57). -/
def paddedLanes (P : Lanes → Lanes) (x : SpongeCtx) : Lanes :=
  P (xorRun x.A 0 (padMessage x.rate x.suffix (readBuf x.buf x.leftover)))

/-- The padding and the squeeze loop on a legal context: output, context and trace (40_sponge.md R55, R56). -/
theorem squeeze_absorbPadded_spec (c : Config) (n : Nat) (s : State) (hr : 1 < s.sponge.rate)
    (hr2 : s.sponge.rate ≤ 200) (hl : s.sponge.leftover < s.sponge.rate) :
    (squeeze c n n (absorbPadded c s)).1 = squeezed c.perm s.sponge.rate (paddedLanes c.perm s.sponge) n ∧
    (squeeze c n n (absorbPadded c s)).2.sponge =
      { s.sponge with
        A := c.perm^[outBlocks s.sponge.rate n - 1] (paddedLanes c.perm s.sponge)
        buf := padBuffer s.sponge } ∧
    (squeeze c n n (absorbPadded c s)).2.trace =
      s.trace ++ List.replicate (max 1 (outBlocks s.sponge.rate n)) (.perm .sponge) := by
  obtain ⟨hsponge, htrace⟩ := absorbPadded_spec c s hr hr2 hl
  have hrate : (absorbPadded c s).sponge.rate = s.sponge.rate := (onlySponge_absorbPadded c s).rate
  obtain ⟨hout, hctx, htr⟩ := squeeze_spec c n n (absorbPadded c s) (by omega) le_rfl
  rw [hrate, hsponge] at hout hctx
  refine ⟨hout, hctx, ?_⟩
  rw [htr, htrace, hrate, List.append_assoc, ← List.replicate_one, List.replicate_append_replicate]
  congr 2
  omega

theorem onlySponge_squeeze_absorbPadded (c : Config) (n : Nat) (s : State) :
    OnlySponge s (squeeze c n n (absorbPadded c s)).2 :=
  (onlySponge_absorbPadded c s).trans (onlySponge_squeeze c n n _)

/-- The buffer once the padded last block stands in it; beyond the rate it is stale (40_sponge.md R55, R56). -/
theorem bufByte_padBuffer (x : SpongeCtx) (hr : 1 < x.rate) (hr2 : x.rate ≤ 200) (hl : x.leftover < x.rate) (j : Nat) :
    bufByte (padBuffer x) j =
      if j < x.rate then (padMessage x.rate x.suffix (readBuf x.buf x.leftover)).getD j 0 else bufByte x.buf j := by
  obtain ⟨hpadded, -, hrest⟩ := readBuf_padBuffer x hr hr2 hl
  split
  · rw [← hpadded, getD_readBuf, if_pos ‹_›]
  · exact hrest j (by omega)

/-- Settles O30: padding and squeezing give the output, the context and the trace, and their frame the rest of the
state. -/
theorem spongeFinishResult : Obligations.SpongeFinishResult := by
  refine ⟨fun _ => rfl, fun s n hinv hp => ?_, fun s n hp => ?_⟩
  · have hlegal := hinv.sponge_legal (by simp [hp])
    obtain ⟨⟨hr8, hr200, -⟩, hl, -⟩ := (SpongeCtx.legal_iff _).mp hlegal
    have hr : 1 < s.sponge.rate := by omega
    obtain ⟨hout, hsponge, htrace⟩ := squeeze_absorbPadded_spec Config.block n.toNat s hr hr200 hl
    refine ⟨_, paddedLanes Config.block.perm s.sponge, padBuffer s.sponge, rfl,
      (readBuf_padBuffer s.sponge hr hr200 hl).2.1, rfl, fun j _ => bufByte_padBuffer s.sponge hr hr200 hl j, ?_⟩
    rw [exec_spongeFinish, spongeFinish_run hp hlegal, hout,
      (onlySponge_squeeze_absorbPadded Config.block n.toNat s).eq_of_sponge_trace hsponge htrace]
    rfl
  · exact exec_wrongPhase (.spongeFinish n) s rfl (fun _ => hp) nofun

end Sys2Proof.Machine
end

section
/-! PROOFS. Streaming equivalence (spec 40_sponge.md R57): absorbing a message in two parts, what an absorbing context
holds of the message heard so far, and how each sponge command keeps or uses it. -/

namespace Sys2Proof.Machine

/-! Absorbing and padding a message in two parts. -/

/-- Whole blocks first, then the rest with what follows it: the blocks of the whole message. -/
theorem absorbAll_append (P : Lanes → Lanes) {r : Nat} (A : Lanes) (M D : List Byte) (hr : 0 < r) :
    absorbAll P r A (M ++ D) = absorbAll P r (absorbAll P r A M) (M.drop (M.length / r * r) ++ D) := by
  induction hn : M.length / r generalizing A M with
  | zero =>
    have hshort : M.length < r := (Nat.div_eq_zero_iff_lt hr).mp hn
    rw [absorbAll_short P A hshort, Nat.zero_mul, List.drop_zero]
  | succ n ih =>
    have hlong : r ≤ M.length := Nat.le_of_not_lt fun h => by simp [Nat.div_eq_of_lt h] at hn
    have hrest : (M.drop r).length / r = n := by
      rw [Nat.div_eq_sub_div hr hlong] at hn
      rw [List.length_drop]
      omega
    rw [absorbAll_step P A hr hlong, absorbAll_step P A hr (by rw [List.length_append]; omega),
      List.take_append_of_le_length hlong, List.drop_append_of_le_length hlong, ih _ _ hrest, List.drop_drop,
      Nat.succ_mul, Nat.add_comm]

theorem length_drop_wholeBlocks (M : List Byte) (r : Nat) : (M.drop (M.length / r * r)).length = M.length % r := by
  have := Nat.div_add_mod' M.length r
  rw [List.length_drop]
  omega

/-- The blocks of two parts, counted part by part. -/
theorem div_add_rest_div (a b : Nat) {r : Nat} (hr : 0 < r) : a / r + (a % r + b) / r = (a + b) / r := by
  rw [← Nat.mul_add_div hr, ← Nat.add_assoc, Nat.div_add_mod]

/-- The bytes `Mpad` has beyond `M`, at an offset `l` in the last block (40_sponge.md R57). -/
def padTail (r : Nat) (suffix : Byte) (l : Nat) : List Byte :=
  if l = r - 1 then [suffix ||| 0x80] else suffix :: List.replicate (r - l - 2) 0 ++ [0x80]

theorem padMessage_eq_append (r : Nat) (suffix : Byte) (M : List Byte) :
    padMessage r suffix M = M ++ padTail r suffix (M.length % r) := by
  rw [padMessage, padTail]
  split <;> simp

theorem length_padTail {r l : Nat} (suffix : Byte) (hr : 1 < r) (hl : l < r) : (padTail r suffix l).length = r - l := by
  rw [padTail]
  split
  · rw [List.length_singleton]
    omega
  · simp only [List.length_append, List.length_cons, List.length_replicate, List.length_nil]
    omega

theorem length_padMessage {r : Nat} (suffix : Byte) (M : List Byte) (hr : 1 < r) :
    (padMessage r suffix M).length = (M.length / r + 1) * r := by
  have hmod : M.length % r < r := Nat.mod_lt _ (by omega)
  have hdiv := Nat.div_add_mod' M.length r
  rw [padMessage_eq_append, List.length_append, length_padTail suffix hr hmod, Nat.succ_mul]
  omega

/-- The state after the padded message is that after the whole blocks and then one padded block (40_sponge.md R55,
R57). -/
theorem absorbAll_padMessage (P : Lanes → Lanes) {r : Nat} (suffix : Byte) (A : Lanes) (M : List Byte) (hr : 1 < r) :
    absorbAll P r A (padMessage r suffix M) =
      P (xorRun (absorbAll P r A M) 0 (padMessage r suffix (M.drop (M.length / r * r)))) := by
  have hrest := length_drop_wholeBlocks M r
  have hmod : M.length % r < r := Nat.mod_lt _ (by omega)
  have hblock : (M.drop (M.length / r * r)) ++ padTail r suffix (M.length % r) =
      padMessage r suffix (M.drop (M.length / r * r)) := by
    rw [padMessage_eq_append, hrest, Nat.mod_mod]
  have hlen : (padMessage r suffix (M.drop (M.length / r * r))).length = r := by
    rw [length_padMessage suffix _ hr, hrest, Nat.div_eq_of_lt hmod, Nat.zero_add, Nat.one_mul]
  rw [padMessage_eq_append r suffix M, absorbAll_append P A M _ (by omega), hblock,
    absorbAll_step P _ (by omega) hlen.ge, List.take_of_length_le hlen.le, List.drop_of_length_le hlen.le,
    absorbAll_short P _ (by simpa using by omega)]

/-- What is left of two parts after their whole blocks, from what is left of the first. -/
theorem drop_wholeBlocks_append (M D : List Byte) {r : Nat} (hr : 0 < r) :
    (M ++ D).drop ((M ++ D).length / r * r) =
      (M.drop (M.length / r * r) ++ D).drop ((M.length % r + D.length) / r * r) := by
  rw [← List.drop_append_of_le_length (Nat.div_mul_le_self _ _), List.drop_drop, ← Nat.add_mul, div_add_rest_div _ _ hr,
    List.length_append]

/-! A context that has heard a message. -/

/-- An absorbing context of rate `r` that holds the message `M` (10_state.md R13). -/
structure Hears (r : Nat) (suffix : Byte) (M : List Byte) (x : SpongeCtx) : Prop where
  phase : x.phase = .absorbing
  legal : x.legal = true
  rate : x.rate = r
  suffix : x.suffix = suffix
  message : HoldsMessage M x

theorem Hears.rate_bounds {r : Nat} {suffix : Byte} {M : List Byte} {x : SpongeCtx} (h : Hears r suffix M x) :
    8 ≤ r ∧ r ≤ 200 := by
  obtain ⟨-, hlegal, rfl, -, -⟩ := h
  obtain ⟨⟨h8, h200, -⟩, -⟩ := x.legal_iff.mp hlegal
  exact ⟨h8, h200⟩

/-- A successful `SPONGE_INIT` leaves a context that has heard the empty message (40_sponge.md R52). -/
theorem spongeInit_hears {rb : BitVec 16} {sf : Byte} {s : State} (h : ¬ConfigBad (.spongeInit rb sf) s) :
    ∃ t, exec (.spongeInit rb sf) s = .next t ∧ Hears (rb.toNat / 8) sf [] t.sponge ∧ t.trace = s.trace := by
  refine ⟨_, spongeInit_accepted s h, ⟨rfl, ?_, rfl, rfl, fun _ => ⟨?_, ?_, ?_⟩⟩, rfl⟩
  · have hok := mt (spongeInitRejects_iff rb sf s).mp h
    simp only [spongeInitRejects, Bool.or_eq_true, decide_eq_true_eq, not_or, not_not] at hok
    obtain ⟨⟨⟨hne, hle⟩, hmod⟩, hsf⟩ := hok
    simp only [SpongeCtx.legal_iff, State.respond_sponge, State.setSponge_sponge]
    exact ⟨by omega, by omega, hsf⟩
  · simp
  · simp [readBuf]
  · simp [absorbAll]

/-- `SPONGE_UPDATE` adds its payload to the message heard (40_sponge.md R53, 10_state.md R13). -/
theorem Hears.update {r : Nat} {suffix : Byte} {M : List Byte} {s : State} (h : Hears r suffix M s.sponge)
    (data : List Byte) :
    ∃ t, exec (.spongeUpdate data) s = .next t ∧ Hears r suffix (M ++ data) t.sponge ∧
      t.trace = s.trace ++ List.replicate ((M.length % r + data.length) / r) (.perm .sponge) := by
  obtain ⟨hp, hlegal, rfl, rfl, hM⟩ := h
  obtain ⟨hlo, hrest, hA⟩ := hM hp
  obtain ⟨hr, hl, hsf⟩ := (SpongeCtx.legal_iff _).mp hlegal
  have hpos : 0 < s.sponge.rate := by omega
  obtain ⟨buf, hsponge, htrace, hbuf⟩ := spongeUpdateState_spec Config.block data s hpos hr.2.1 hl
  have hmod : (s.sponge.leftover + data.length) % s.sponge.rate = (M ++ data).length % s.sponge.rate := by
    rw [hlo, Nat.mod_add_mod, List.length_append]
  have hlt : (s.sponge.leftover + data.length) % s.sponge.rate < s.sponge.rate := Nat.mod_lt _ hpos
  refine ⟨_, spongeUpdate_run hp hlegal, ?_, by rw [State.respond_trace, htrace, hlo]⟩
  rw [State.respond_sponge, hsponge]
  refine ⟨hp, (SpongeCtx.legal_iff _).mpr ⟨hr, hlt, hsf⟩, rfl, rfl, fun _ => ⟨hmod, ?_, ?_⟩⟩
  · refine readBuf_eq (by rw [length_drop_wholeBlocks, hmod]) fun j hj => ?_
    change j < (s.sponge.leftover + data.length) % s.sponge.rate at hj
    rw [hbuf j (by omega), if_pos hj, hrest, hlo, drop_wholeBlocks_append M data hpos]
    simp only [List.getD_eq_getElem?_getD, List.getElem?_drop]
  · rw [hrest, hA, ← absorbAll_append _ _ _ _ hpos]

/-- The padded last block of a context that has heard `M` completes `Mpad` (40_sponge.md R57). -/
theorem Hears.paddedLanes_eq {r : Nat} {suffix : Byte} {M : List Byte} {x : SpongeCtx} (h : Hears r suffix M x) :
    paddedLanes Config.block.perm x = absorbAll Config.block.perm r Lanes.zero (padMessage r suffix M) := by
  obtain ⟨hr8, -⟩ := h.rate_bounds
  obtain ⟨hp, -, rfl, rfl, hM⟩ := h
  obtain ⟨-, hrest, hA⟩ := hM hp
  rw [paddedLanes, hrest, hA, absorbAll_padMessage _ _ _ _ (by omega)]

/-- `SPONGE_FINISH` answers `Z(M, n)` (40_sponge.md R57). -/
theorem Hears.finish {r : Nat} {suffix : Byte} {M : List Byte} {s : State} (h : Hears r suffix M s.sponge)
    (n : BitVec 32) :
    ∃ u, exec (.spongeFinish n) s = .next u ∧
      u.responses = s.responses ++ [⟨0, spongeZ Config.block.perm r suffix M n.toNat⟩] := by
  obtain ⟨⟨hr8, hr200, -⟩, hl, -⟩ := (SpongeCtx.legal_iff _).mp h.legal
  obtain ⟨hout, -, -⟩ := squeeze_absorbPadded_spec Config.block n.toNat s (by omega) hr200 hl
  refine ⟨_, spongeFinish_run h.phase h.legal, ?_⟩
  rw [State.respond_responses, State.setSpongePhase_responses,
    (onlySponge_squeeze_absorbPadded Config.block n.toNat s).responses, hout, h.paddedLanes_eq, h.rate]
  rfl

theorem execAll_cons_of_next {i : Instr} {s t : State} (is : List Instr) (h : exec i s = .next t) :
    execAll (i :: is) s = execAll is t := by rw [execAll, h]

/-- However the bytes heard are split into payloads, the context holds their concatenation and the trace counts its
whole blocks (40_sponge.md R57). -/
theorem Hears.execAll_updates {r : Nat} {suffix : Byte} {M : List Byte} {s : State} (h : Hears r suffix M s.sponge)
    (chunks : List (List Byte)) :
    ∃ t, execAll (chunks.map .spongeUpdate) s = .next t ∧ Hears r suffix (M ++ chunks.flatten) t.sponge ∧
      t.trace = s.trace ++ List.replicate ((M.length % r + chunks.flatten.length) / r) (.perm .sponge) := by
  have hr : 0 < r := by have := h.rate_bounds; omega
  induction chunks generalizing s M with
  | nil => exact ⟨s, rfl, by simpa using h, by simp [Nat.div_eq_of_lt (Nat.mod_lt M.length hr)]⟩
  | cons data chunks ih =>
    obtain ⟨t, ht, hears, htrace⟩ := h.update data
    obtain ⟨u, hu, hears', htrace'⟩ := ih hears
    refine ⟨u, ?_, by simpa using hears', ?_⟩
    · rw [List.map_cons, execAll_cons_of_next _ ht, hu]
    · have hcount : (M ++ data).length % r = (M.length % r + data.length) % r := by
        rw [List.length_append, Nat.mod_add_mod]
      rw [htrace', htrace, List.append_assoc, List.replicate_append_replicate, hcount, div_add_rest_div _ _ hr,
        List.flatten_cons, List.length_append, Nat.add_assoc]

/-- Settles O31: after SPONGE_INIT the context has heard the empty message, each payload is added to it, and what the
context then holds fixes its registers and the output. -/
theorem streamingEquivalence : Obligations.StreamingEquivalence := by
  intro s rb sf chunks n hok
  obtain ⟨s', hinit, hears, htrace⟩ := spongeInit_hears hok
  obtain ⟨t, hupdates, hears, htrace'⟩ := hears.execAll_updates chunks
  rw [List.nil_append] at hears
  obtain ⟨u, hfinish, hresponses⟩ := hears.finish n
  obtain ⟨hlo, hrest, hA⟩ := hears.message hears.phase
  rw [hears.rate] at hlo hrest hA
  obtain ⟨hr8, -⟩ := hears.rate_bounds
  refine ⟨length_padMessage sf _ (by omega), t, u, ?_, hlo, hrest, hA, ?_, hfinish, hresponses⟩
  · rw [execAll_cons_of_next _ hinit, hupdates]
  · rw [htrace', htrace, List.length_nil, Nat.zero_mod, Nat.zero_add]

end Sys2Proof.Machine
end

section
/-! PROOFS. The Duplex Engine's pad, `DUPLEX_INIT`, `DUPLEX_DUPLEX` and `DUPLEX_FORGET` (spec 41_duplex.md R60, R62,
R64, R70): the whole state each leaves. -/

namespace Sys2Proof.Machine

theorem State.Inv.duplex_legal {s : State} (h : s.Inv) (hp : s.duplex.phase = .ready) : s.duplex.legal = true := by
  obtain ⟨-, ⟨-, -, -, hready⟩, -⟩ := h
  exact (hready hp).1

/-- The legal values of 10_state.md R14, in a ready context. -/
theorem State.Inv.duplex_bounds {s : State} (h : s.Inv) (hp : s.duplex.phase = .ready) :
    8 ≤ s.duplex.rate ∧ s.duplex.rate ≤ 192 ∧ s.duplex.inputIndex ≤ s.duplex.rate - 1 ∧
      s.duplex.outputIndex ≤ s.duplex.rate := by
  obtain ⟨⟨hr8, hr192, -⟩, hi, ho⟩ := (DuplexCtx.legal_iff _).mp (h.duplex_legal hp)
  exact ⟨hr8, hr192, hi, ho⟩

/-- Where only the duplex was worked on, its context and the trace say the whole state. -/
theorem OnlyDuplex.eq_of_duplex_trace {s t : State} (h : OnlyDuplex s t) {x : DuplexCtx} {tr : List Event}
    (hx : t.duplex = x) (htr : t.trace = tr) : t = { s with duplex := x, trace := tr } := by
  obtain ⟨hsponge, -, -, -, hresponses, hinbox, hscript, hdraws, hresets⟩ := h
  cases t
  simp only at hx htr hsponge hresponses hinbox hscript hdraws hresets
  rw [hx, htr, hsponge, hresponses, hinbox, hscript, hdraws, hresets]

/-! `PadPermute`. -/

theorem isPadded_padXor (c : Config) {r at_ : Nat} (A : Lanes) (ha : at_ < 200) (hr : r - 1 < 200) :
    IsPadded c.dsDuplex r at_ A (padXor c r at_ A) := fun j _ => stateByte_padXor c r at_ A j ha hr

/-- `DS_DUPLEX` has bit 7 clear, whatever its low seven bits are (41_duplex.md R60; log 4). -/
theorem dsDuplex_and_terminator : Config.block.dsDuplex &&& 0x80 = 0 := by
  have h : ∀ low : BitVec 7, low.setWidth 8 &&& 0x80#8 = 0#8 := by decide
  exact h Config.dsDuplexLow

/-- Settles O34: within the invariant both pad offsets lie in the state, and `PadPermute` writes no other field. -/
theorem padPermuteResult : Obligations.PadPermuteResult := by
  refine ⟨dsDuplex_and_terminator, fun s hinv hp => ?_⟩
  obtain ⟨-, hr192, hi, -⟩ := hinv.duplex_bounds hp
  exact ⟨_, isPadded_padXor Config.block s.duplex.A (by omega) (by omega), rfl⟩

/-! `DUPLEX_INIT`. -/

theorem duplexInit_rejected {rb : BitVec 16} (s : State) (h : ConfigBad (.duplexInit rb) s) :
    duplexInit rb s = .next (s.respond ⟨Status.errConfig.word, []⟩) := by
  rw [duplexInit, if_pos ((duplexInitRejects_iff rb s).mpr h), fail_eq]

theorem duplexInit_accepted {rb : BitVec 16} (s : State) (h : ¬ConfigBad (.duplexInit rb) s) :
    duplexInit rb s =
      .next ((s.setDuplex ⟨Lanes.zero, rb.toNat / 8, 0, rb.toNat / 8, .ready⟩).respond ⟨Status.ok.word, []⟩) := by
  rw [duplexInit, if_neg (mt (duplexInitRejects_iff rb s).mp h), complete_eq]

/-- Settles O35: the operand check is the condition of 60_exceptions.md R101, and each branch is one response. -/
theorem duplexInitResult : Obligations.DuplexInitResult := by
  refine fun s rb => ⟨rfl, fun hbad => ?_, fun hok => ?_⟩
  · rw [exec_duplexInit, duplexInit_rejected s hbad]
    rfl
  · rw [exec_duplexInit, duplexInit_accepted s hok]
    exact ⟨_, rfl, fun i _ => laneAt_zero i, rfl, rfl, rfl, rfl⟩

/-! `DUPLEX_DUPLEX`. -/

/-- Fed bytes pending are misuse (60_exceptions.md R103). -/
theorem duplexDuplex_pending {c : Config} {x : List Byte} {n : Nat} {s : State} (hp : s.duplex.phase = .ready)
    (hl : s.duplex.legal = true) (hi : s.duplex.inputIndex ≠ 0) :
    duplexDuplex c x n s = .next (s.respond ⟨Status.errMisuse.word, []⟩) := by
  rw [duplexDuplex, onReady_run hp hl, if_pos hi, fail_eq]

theorem duplexDuplex_rejected {c : Config} {x : List Byte} {n : Nat} {s : State} (hp : s.duplex.phase = .ready)
    (hl : s.duplex.legal = true) (hi : s.duplex.inputIndex = 0)
    (hr : duplexDuplexRejects s.duplex.rate x.length n = true) :
    duplexDuplex c x n s = .next (s.respond ⟨Status.errConfig.word, []⟩) := by
  rw [duplexDuplex, onReady_run hp hl, if_neg (not_not_intro hi), if_pos hr, fail_eq]

theorem duplexDuplexRejects_eq_false {r inlen outlen : Nat} (hin : inlen ≤ r - 1) (hout : outlen ≤ r) :
    duplexDuplexRejects r inlen outlen = false := by
  simp [duplexDuplexRejects, hin, hout]

theorem readRun_zero_eq_map (A : Lanes) (k : Nat) : readRun A 0 k = (List.range k).map (stateByte A) := by
  simp [readRun]

/-- The bytes of the block a turn permutes: input, separator, terminator (41_duplex.md R64). -/
theorem stateByte_padXor_xorRun (c : Config) {r : Nat} (A : Lanes) {input : List Byte} (hin : input.length < 200)
    (hr : r - 1 < 200) (j : Nat) :
    stateByte (padXor c r input.length (xorRun A 0 input)) j =
      stateByte A j ^^^ (if j < input.length then input.getD j 0 else 0) ^^^
        (if j = input.length then c.dsDuplex else 0) ^^^ (if j = r - 1 then 0x80 else 0) := by
  rw [stateByte_padXor c _ _ _ _ hin hr, stateByte_xorRun _ _ _ _ (by omega)]
  simp

/-- Settles O36: each way through the checks is one response, and the turn that passes them permutes the block of
input, separator and terminator. -/
theorem duplexDuplexResult : Obligations.DuplexDuplexResult := by
  refine ⟨fun _ _ => rfl, fun s x n hinv => ⟨fun hmisuse => ?_, fun hp hi hbad => ?_, fun hp hi hin hout => ?_⟩⟩
  · by_cases hp : s.duplex.phase = .ready
    · have hi : s.duplex.inputIndex ≠ 0 := hmisuse.resolve_left (not_not_intro hp)
      rw [exec_duplexDuplex, duplexDuplex_pending hp (hinv.duplex_legal hp) hi]
      rfl
    · exact exec_wrongPhase (.duplexDuplex x n) s rfl nofun (fun _ => hp)
  · rw [exec_duplexDuplex,
      duplexDuplex_rejected hp (hinv.duplex_legal hp) hi ((duplexDuplexRejects_iff x n s).mpr hbad)]
    rfl
  · obtain ⟨-, hr192, -, -⟩ := hinv.duplex_bounds hp
    refine ⟨_, fun j _ => stateByte_padXor_xorRun Config.block s.duplex.A (by omega) (by omega) j, ?_⟩
    rw [exec_duplexDuplex,
      duplexDuplex_run hp (hinv.duplex_legal hp) hi (duplexDuplexRejects_eq_false hin hout), readRun_zero_eq_map]
    rfl

/-! `DUPLEX_FORGET`. -/

/-- The bytes of the wiped and padded block: the input index stands at the last byte, so separator and terminator both
meet there (41_duplex.md R70). -/
theorem stateByte_padXor_zeroRun (c : Config) {r : Nat} (A : Lanes) (hr : r - 1 < 200) (j : Nat) :
    stateByte (padXor c r (r - 1) (zeroRun A (r - 1))) j =
      if j < r - 1 then 0 else if j = r - 1 then stateByte A j ^^^ c.dsDuplex ^^^ 0x80 else stateByte A j := by
  rw [stateByte_padXor c _ _ _ _ hr hr, stateByte_zeroRun _ _ _ (by omega)]
  rcases Nat.lt_trichotomy j (r - 1) with hlt | heq | hgt
  · simp [hlt, Nat.ne_of_lt hlt]
  · simp [heq]
  · simp [Nat.not_lt_of_gt hgt, Nat.ne_of_gt hgt]

theorem forget_trace (c : Config) (s : State) :
    ((padPermute c (wipeBlock (padPermute c s))).setOutputIndex s.duplex.rate).trace =
      s.trace ++ [.perm .duplex, .perm .duplex] :=
  List.append_assoc s.trace [.perm .duplex] [.perm .duplex]

/-- Settles O42: the second pad meets the block wiped after the first permutation. -/
theorem duplexForgetResult : Obligations.DuplexForgetResult := by
  refine ⟨rfl, fun s hinv hp => ?_, fun s hp => exec_wrongPhase .duplexForget s rfl nofun (fun _ => hp)⟩
  obtain ⟨-, hr192, hi, -⟩ := hinv.duplex_bounds hp
  refine ⟨_, _, isPadded_padXor Config.block s.duplex.A (by omega) (by omega),
    fun j _ => stateByte_padXor_zeroRun Config.block _ (by omega) j, ?_⟩
  rw [exec_duplexForget, duplexForget_run hp (hinv.duplex_legal hp),
    (onlyDuplex_forget Config.block s).eq_of_duplex_trace rfl (forget_trace Config.block s)]
  rfl

end Sys2Proof.Machine
end

section
/-! PROOFS. The one-shot and the chunked form of a turn (spec 41_duplex.md R65): a fetch within one block, and a feed of
what there is room for. -/

namespace Sys2Proof.Machine

/-! A fetch within one block (41_duplex.md R68). -/

@[simp] theorem fetchLoop_none (c : Config) (bound : Nat) (s : State) : fetchLoop c bound 0 s = ([], s) := by
  cases bound <;> simp [fetchLoop]

theorem padIfSpent_of_lt (c : Config) {s : State} (h : s.duplex.outputIndex < s.duplex.rate) : padIfSpent c s = s := by
  rw [padIfSpent, if_neg (by omega)]

/-- Readable bytes are read, and nothing but the output index moves. -/
theorem fetchLoop_room (c : Config) (n : Nat) (s : State) (h : s.duplex.outputIndex + n ≤ s.duplex.rate) :
    fetchLoop c n n s =
      (readRun s.duplex.A s.duplex.outputIndex n, s.setOutputIndex (s.duplex.outputIndex + n)) := by
  cases n with
  | zero => rfl
  | succ m =>
    rw [fetchLoop, if_neg (Nat.succ_ne_zero m), padIfSpent_of_lt c (by omega)]
    have hk : min (s.duplex.rate - s.duplex.outputIndex) (m + 1) = m + 1 := by omega
    simp [hk]

/-- Bytes wanted of a used-up block are those of the block after its pad and permute. -/
theorem fetchLoop_spent (c : Config) {n : Nat} (s : State) (hn : 0 < n) (hr : 0 < s.duplex.rate)
    (h : s.duplex.outputIndex = s.duplex.rate) : fetchLoop c n n s = fetchLoop c n n (padPermute c s) := by
  cases n with
  | zero => omega
  | succ m =>
    have hspent : padIfSpent c s = padPermute c s := by rw [padIfSpent, if_pos (by omega)]
    have hfresh : padIfSpent c (padPermute c s) = padPermute c s := padIfSpent_of_lt c hr
    simp only [fetchLoop, hspent, hfresh, Nat.succ_ne_zero, if_false]

/-- At most one block wanted of a used-up block: one pad and permute, then its first bytes. -/
theorem fetchLoop_spent_block (c : Config) {n : Nat} (s : State) (hn : 0 < n) (hnr : n ≤ s.duplex.rate)
    (h : s.duplex.outputIndex = s.duplex.rate) :
    fetchLoop c n n s = (readRun (padPermute c s).duplex.A 0 n, (padPermute c s).setOutputIndex n) := by
  have hzero : (padPermute c s).duplex.outputIndex = 0 := rfl
  have hroom : (padPermute c s).duplex.outputIndex + n ≤ (padPermute c s).duplex.rate := by
    rw [hzero, Nat.zero_add]
    exact hnr
  rw [fetchLoop_spent c s hn (by omega) h, fetchLoop_room c n _ hroom, hzero, Nat.zero_add]

/-! The two forms. -/

/-- A feed of bytes for which there is room: a run of XORs, and nothing is readable (41_duplex.md R66). -/
theorem duplexFeed_room (c : Config) {bs : List Byte} {s : State} (hp : s.duplex.phase = .ready)
    (hl : s.duplex.legal = true) (hn : bs ≠ []) (h : s.duplex.inputIndex + bs.length ≤ s.duplex.rate - 1) :
    duplexFeed c bs s =
      .next { s with
        duplex := { s.duplex with
          A := xorRun s.duplex.A s.duplex.inputIndex bs
          inputIndex := s.duplex.inputIndex + bs.length
          outputIndex := s.duplex.rate }
        responses := s.responses ++ [⟨Status.ok.word, []⟩] } := by
  obtain ⟨hduplex, htrace⟩ := feedBytes_room c bs s hn h
  rw [duplexFeed_run hp hl, (onlyDuplex_feedBytes c bs s).eq_of_duplex_trace hduplex htrace]
  rfl

/-- A fetch of at most one block where nothing is readable: one pad and permute, then its first bytes (41_duplex.md
R68). -/
theorem duplexFetch_spent {c : Config} {n : Nat} {s : State} (hp : s.duplex.phase = .ready)
    (hl : s.duplex.legal = true) (hn : 0 < n) (hnr : n ≤ s.duplex.rate) (h : s.duplex.outputIndex = s.duplex.rate) :
    duplexFetch c n s =
      .next (((padPermute c s).setOutputIndex n).respond ⟨Status.ok.word, readRun (padPermute c s).duplex.A 0 n⟩) := by
  rw [duplexFetch_run hp hl, fetchLoop_spent_block c s hn hnr h]

/-- Settles O37: the feed leaves the input in an unpadded block with nothing readable, so the fetch pads and permutes
it as the one-shot turn does. -/
theorem oneShotAgreesWithChunked : Obligations.OneShotAgreesWithChunked := by
  refine ⟨fun s x n hinv hp hi hx hxr hn hnr => ?_, fun s hinv hp => ?_⟩
  · have hlegal := hinv.duplex_legal hp
    obtain ⟨hrate, -, -⟩ := (DuplexCtx.legal_iff _).mp hlegal
    have hfeed := duplexFeed_room Config.block hp hlegal (List.ne_nil_of_length_pos hx)
      (by rw [hi, Nat.zero_add]; exact hxr)
    rw [hi, Nat.zero_add] at hfeed
    refine ⟨_, _, _, _, duplexDuplex_run hp hlegal hi (duplexDuplexRejects_eq_false hxr hnr), hfeed,
      duplexFetch_spent hp ((DuplexCtx.legal_iff _).mpr ⟨hrate, hxr, le_rfl⟩) hn hnr rfl, rfl, ?_, ?_⟩
    · exact List.append_assoc s.responses [_] [_]
    · exact ⟨rfl, rfl, rfl, rfl, rfl, rfl, rfl⟩
  · have hlegal := hinv.duplex_legal hp
    refine ⟨duplexFeed_run hp hlegal, duplexFetch_run hp hlegal, fun hi x hxr => ?_⟩
    exact ⟨_, duplexDuplex_run hp hlegal hi (duplexDuplexRejects_eq_false hxr (Nat.zero_le _)), rfl⟩

end Sys2Proof.Machine
end

section
/-! PROOFS. `DUPLEX_RESEED` (spec 41_duplex.md R72, R74): the state after the iterations whose requests ENT meets, and
what is left when a request fails. -/

namespace Sys2Proof.Machine

/-! The iterations whose requests are met (41_duplex.md R72). -/

/-- The state once the reseed iterations that use `seeds` have been made; with no seed, where it began. -/
def seededState (c : Config) (s : State) (seeds : List (List Byte)) : State :=
  { s.afterRequests seeds.length with
    duplex := { s.duplex with
      A := reseedTurns c s.duplex.rate s.duplex.inputIndex s.duplex.A seeds
      inputIndex := if seeds = [] then s.duplex.inputIndex else s.duplex.rate - 1
      outputIndex := if seeds = [] then s.duplex.outputIndex else s.duplex.rate }
    trace := s.trace ++ reseedEvents s.duplex.rate seeds.length }

theorem seededState_nil (c : Config) (s : State) : seededState c s [] = s := by
  simp [seededState, reseedTurns, reseedEvents]

theorem reseedEvents_add (r j k : Nat) : reseedEvents r j ++ reseedEvents r k = reseedEvents r (j + k) := by
  rw [reseedEvents, reseedEvents, reseedEvents, ← List.flatten_append, List.replicate_append_replicate]

/-- The first seed, then the others from the state it leaves. -/
theorem seededState_cons (c : Config) (s : State) (e : List Byte) (es : List (List Byte)) :
    seededState c (seededState c s [e]) es = seededState c s (e :: es) := by
  cases es with
  | nil => exact seededState_nil c _
  | cons f fs =>
    show ({ (s.afterRequests 1).afterRequests (f :: fs).length with
      duplex := (seededState c s (e :: f :: fs)).duplex
      trace := s.trace ++ reseedEvents s.duplex.rate 1 ++ reseedEvents s.duplex.rate (f :: fs).length } : State) = _
    rw [afterRequests_afterRequests, List.append_assoc, reseedEvents_add, Nat.add_comm 1]
    rfl

theorem entAnswer_seededState (c : Config) (s : State) (seeds : List (List Byte)) (n k : Nat) :
    entAnswer c (seededState c s seeds) n k = entAnswer c s n (seeds.length + k) :=
  entAnswer_afterRequests c s n seeds.length k

/-- The iterations whose requests are met leave the seeded state, with the rest still to make. -/
theorem reseedLoop_seeds (c : Config) (iters : Nat) (s : State) (seeds : List (List Byte)) (hr : 0 < s.duplex.rate - 1)
    (hs : ∀ k < seeds.length, entAnswer c s (s.duplex.rate - 1) k = some (seeds.getD k [])) :
    reseedLoop c (seeds.length + iters) s = reseedLoop c iters (seededState c s seeds) := by
  induction seeds generalizing s with
  | nil => rw [seededState_nil, List.length_nil, Nat.zero_add]
  | cons e es ih =>
    have he : entAnswer c s (s.duplex.rate - 1) 0 = some e := hs 0 (Nat.succ_pos _)
    obtain ⟨t, hstep, ht⟩ := reseedLoop_seed c (es.length + iters) s e he (length_of_entAnswer he) hr
    obtain rfl : t = seededState c s [e] := ht
    have hrest : ∀ k < es.length, entAnswer c (seededState c s [e]) (s.duplex.rate - 1) k = some (es.getD k []) := by
      intro k hk
      rw [entAnswer_seededState, List.length_singleton, Nat.add_comm]
      exact hs (k + 1) (Nat.succ_lt_succ hk)
    rw [List.length_cons, Nat.add_right_comm, hstep, ih (seededState c s [e]) hr hrest, seededState_cons]

/-! The request that fails (41_duplex.md R74). -/

/-- The state left when the request after `seeds` fails. -/
theorem reseedLoop_fails (c : Config) {iters : Nat} {s : State} {seeds : List (List Byte)} (hr : 0 < s.duplex.rate - 1)
    (hlen : seeds.length < iters)
    (hs : ∀ k < seeds.length, entAnswer c s (s.duplex.rate - 1) k = some (seeds.getD k []))
    (hfail : entAnswer c s (s.duplex.rate - 1) seeds.length = none) :
    reseedLoop c iters s =
      (false,
        { s.afterRequests (seeds.length + 1) with
          duplex := padCtx c (seededState c s seeds).duplex
          trace := s.trace ++ reseedEvents s.duplex.rate (seeds.length + 1) }) := by
  obtain ⟨rest, rfl⟩ : ∃ rest, iters = seeds.length + (rest + 1) := ⟨iters - seeds.length - 1, by omega⟩
  have hnone : entAnswer c (seededState c s seeds) (s.duplex.rate - 1) 0 = none := by
    rw [entAnswer_seededState, Nat.add_zero, hfail]
  rw [reseedLoop_seeds c (rest + 1) s seeds hr hs, reseedLoop_fail c rest _ hnone]
  show (false, ({ (s.afterRequests seeds.length).afterRequests 1 with
    duplex := padCtx c (seededState c s seeds).duplex
    trace := s.trace ++ reseedEvents s.duplex.rate seeds.length ++ [.perm .duplex] ++ [.ent (s.duplex.rate - 1)] } :
      State)) = _
  rw [afterRequests_afterRequests, ← reseedEvents_add, List.append_assoc, List.append_assoc]
  rfl

theorem event_wf_of_mem_reseedEvents {r k : Nat} {e : Event} (hr8 : 8 ≤ r) (hr192 : r ≤ 192)
    (he : e ∈ reseedEvents r k) : e.Wf := by
  obtain ⟨turn, hturn, he⟩ := List.mem_flatten.mp he
  rw [List.eq_of_mem_replicate hturn] at he
  rcases List.mem_pair.mp he with rfl | rfl
  · trivial
  · exact ⟨by omega, by omega⟩

/-- Both indices 0 are legal at every legal rate (10_state.md R14). -/
theorem DuplexCtx.legal_of_indices_zero {x y : DuplexCtx} (h : x.legal = true) (hr : y.rate = x.rate)
    (hi : y.inputIndex = 0) (ho : y.outputIndex = 0) : y.legal = true := by
  obtain ⟨hrate, -, -⟩ := (DuplexCtx.legal_iff x).mp h
  rw [← hr] at hrate
  exact (DuplexCtx.legal_iff y).mpr ⟨hrate, by omega, by omega⟩

/-- A fetch from the start of the block reads its first bytes, without a permutation (41_duplex.md R68). -/
theorem duplexFetch_fresh (c : Config) {n : Nat} {s : State} (hp : s.duplex.phase = .ready)
    (hl : s.duplex.legal = true) (ho : s.duplex.outputIndex = 0) (hn : n ≤ s.duplex.rate) :
    duplexFetch c n s =
      .next ((s.setOutputIndex n).respond ⟨Status.ok.word, (List.range n).map (stateByte s.duplex.A)⟩) := by
  rw [duplexFetch_run hp hl, fetchLoop_room c n s (by omega), ho, Nat.zero_add, readRun_zero_eq_map]

/-- Settles O45: the iterations before the failing request leave the seeded state, the last one only pads and permutes;
what is left is legal with both indices 0, so the invariant holds and a fetch reads the block from its start. -/
theorem duplexReseedFails : Obligations.DuplexReseedFails := by
  intro s seeds hinv hp hlen hs hfail
  have hlegal := hinv.duplex_legal hp
  obtain ⟨hr8, hr192, -, -⟩ := hinv.duplex_bounds hp
  obtain ⟨hsponge, ⟨hrate, -, -, -⟩, hresponses, htrace⟩ := hinv
  have hleft : (padCtx Config.block (seededState Config.block s seeds).duplex).legal = true :=
    DuplexCtx.legal_of_indices_zero hlegal rfl rfl rfl
  refine ⟨_, _, rfl, rfl, ?_, ⟨hsponge, ?_, ?_, ?_⟩, fun n hn => duplexFetch_fresh Config.block hp hleft rfl hn⟩
  · rw [exec_duplexReseed, duplexReseed_run hp hlegal, reseedLoop_fails Config.block (by omega) hlen hs hfail]
    rfl
  · exact ⟨hrate, Nat.zero_lt_succ _, Nat.zero_lt_succ _, fun _ => ⟨hleft, fun h => absurd h (Nat.lt_irrefl 0)⟩⟩
  · rw [List.forall_mem_append, List.forall_mem_singleton]
    exact ⟨hresponses, by decide⟩
  · rw [List.forall_mem_append]
    exact ⟨htrace, fun e => event_wf_of_mem_reseedEvents hr8 hr192⟩

end Sys2Proof.Machine
end

section
/-! PROOFS. The collaborator `PERM` (spec 42_collaborators.md R80) and the toy permutations of the tests (R84): the
bytes of a state built from bytes, and the inverse of `P_rot1`. -/

namespace Sys2Proof.Machine

/-! The contract of `Permute` (42_collaborators.md R80). -/

theorem block_perm_bijective : Function.Bijective Config.block.perm := Config.permutation.bijective

/-- Settles O24: the block's `P` is a bijection by its type, and each `Permute` is one update of the lanes and one
event. -/
theorem permuteContract : Obligations.PermuteContract :=
  ⟨block_perm_bijective, fun _ => ⟨rfl, rfl⟩⟩

/-! The states built from their bytes (20_memory.md R21, the converse). -/

theorem stateByte_lanesOfBytes (bs : List Byte) {j : Nat} (hj : j < 200) :
    stateByte (lanesOfBytes bs) j = bs.getD j 0 := by
  have hlen : (bs.take 200).length ≤ 200 := List.length_take_le 200 bs
  rw [lanesOfBytes, stateByte_xorRun _ _ _ _ (by omega), stateByte_zero]
  by_cases hin : j < bs.length
  · simp [hin, hj]
  · simp [hin]

/-- The state whose byte `j` is `f j`. -/
theorem stateByte_lanesOfBytes_map (f : Nat → Byte) {j : Nat} (hj : j < 200) :
    stateByte (lanesOfBytes ((List.range 200).map f)) j = f j := by
  simp [stateByte_lanesOfBytes _ hj, hj]

/-! `P_rot1` and its inverse (42_collaborators.md R84(b)). -/

theorem stateByte_permRot1 (A : Lanes) {j : Nat} (hj : j < 200) :
    stateByte (permRot1 A) j = stateByte A ((j + 1) % 200) + 1 :=
  stateByte_lanesOfBytes_map _ hj

/-- The bytes rotate right by one place, from place 199 to place 0, and each shrinks by 1 modulo 256. -/
def permRot1Inv (A : Lanes) : Lanes :=
  lanesOfBytes ((List.range 200).map (fun j => stateByte A ((j + 199) % 200) - 1))

theorem stateByte_permRot1Inv (A : Lanes) {j : Nat} (hj : j < 200) :
    stateByte (permRot1Inv A) j = stateByte A ((j + 199) % 200) - 1 :=
  stateByte_lanesOfBytes_map _ hj

theorem permRot1Inv_permRot1 (A : Lanes) : permRot1Inv (permRot1 A) = A := by
  refine lanes_ext fun j hj => ?_
  have hplace : ((j + 199) % 200 + 1) % 200 = j := by omega
  rw [stateByte_permRot1Inv _ hj, stateByte_permRot1 _ (Nat.mod_lt _ (by decide)), hplace, BitVec.add_sub_cancel]

theorem permRot1_permRot1Inv (A : Lanes) : permRot1 (permRot1Inv A) = A := by
  refine lanes_ext fun j hj => ?_
  have hplace : ((j + 1) % 200 + 199) % 200 = j := by omega
  rw [stateByte_permRot1 _ hj, stateByte_permRot1Inv _ (Nat.mod_lt _ (by decide)), hplace, BitVec.sub_add_cancel]

/-- Settles O26: `P_rot1` byte by byte, and its two-sided inverse. -/
theorem toyPermutations : Obligations.ToyPermutations :=
  ⟨fun _ => rfl, fun A _ hj => stateByte_permRot1 A hj,
    Function.bijective_iff_has_inverse.mpr ⟨permRot1Inv, permRot1Inv_permRot1, permRot1_permRot1Inv⟩⟩

end Sys2Proof.Machine
end

section
/-! PROOFS. The failures (spec 60_exceptions.md R101, R103, R104, R106): the cause of every status a command answers,
each failure as the whole effect of its cause, and the illegal header. -/

namespace Sys2Proof.Machine

/-! From the status to its cause. -/

theorem Status.word_injective {a b : Status} (h : a.word = b.word) : a = b := by
  cases a <;> cases b <;> revert h <;> decide

/-- What the status of a command says of the command and the state it was given in: the operand condition behind
`ERR_CONFIG`, after the misuse checks have passed, and the misuse condition behind `ERR_MISUSE`; no command answers
`ERR_ILLEGAL`. -/
def StatusCause (i : Instr) (s : State) : Status → Prop
  | .ok | .errEntropy => True
  | .errConfig => ¬Misuse i s ∧ ConfigBad i s
  | .errMisuse => Misuse i s
  | .errIllegal => False

/-- From `s` to `t` the command `i` appended one response, whose status has its cause in `s`. -/
def AnswersWithCause (i : Instr) (s t : State) : Prop :=
  ∃ (u : State) (st : Status) (out : List Byte),
    u.responses = s.responses ∧ t = u.respond ⟨st.word, out⟩ ∧ StatusCause i s st

theorem AnswersWithCause.cause {i : Instr} {s t : State} (h : AnswersWithCause i s t) {st : Status} {out : List Byte}
    (hr : t.responses = s.responses ++ [⟨st.word, out⟩]) : StatusCause i s st := by
  obtain ⟨u, st', out', hu, rfl, hcause⟩ := h
  have hword : st.word = st'.word := congrArg Response.word (response_eq_of_respond hu hr)
  exact Status.word_injective hword ▸ hcause

theorem answersWithCause_fail {i : Instr} {s t : State} {st : Status} (ht : t = s.respond ⟨st.word, []⟩)
    (h : StatusCause i s st) : AnswersWithCause i s t := ⟨s, st, [], rfl, ht, h⟩

theorem answersWithCause_ok {i : Instr} {s t u : State} {out : List Byte} (ht : t = u.respond ⟨Status.ok.word, out⟩)
    (hu : u.responses = s.responses) : AnswersWithCause i s t := ⟨u, .ok, out, hu, ht, trivial⟩

/-- Every status a command answers has its cause. -/
theorem exec_answersWithCause {i : Instr} {s t : State} (h : exec i s = .next t) : AnswersWithCause i s t := by
  cases i with
  | spongeInit rb sf =>
    rcases spongeInit_next h with ⟨hbad, ht⟩ | ⟨_, ht⟩
    · exact answersWithCause_fail ht ⟨id, (spongeInitRejects_iff rb sf s).mp hbad⟩
    · exact answersWithCause_ok ht rfl
  | spongeUpdate d =>
    rcases spongeUpdate_next h with ⟨hp, ht⟩ | ⟨_, _, ht⟩
    · exact answersWithCause_fail ht hp
    · exact answersWithCause_ok ht (onlySponge_update _ d s).responses
  | spongeFinish n =>
    rcases spongeFinish_next h with ⟨hp, ht⟩ | ⟨_, _, ht⟩
    · exact answersWithCause_fail ht hp
    · exact answersWithCause_ok ht (onlySponge_squeeze_absorbPadded _ _ s).responses
  | duplexInit rb =>
    rcases duplexInit_next h with ⟨hbad, ht⟩ | ⟨_, ht⟩
    · exact answersWithCause_fail ht ⟨id, (duplexInitRejects_iff rb s).mp hbad⟩
    · exact answersWithCause_ok ht rfl
  | duplexDuplex x n =>
    rcases duplexDuplex_next h with ⟨hmisuse, ht⟩ | ⟨hp, _, hi, hbad, ht⟩ | ⟨_, _, _, _, ht⟩
    · exact answersWithCause_fail ht hmisuse
    · have hpassed : ¬Misuse (.duplexDuplex x n) s := not_or.mpr ⟨not_not_intro hp, not_not_intro hi⟩
      exact answersWithCause_fail ht ⟨hpassed, (duplexDuplexRejects_iff x n s).mp hbad⟩
    · exact answersWithCause_ok ht (onlyDuplex_oneShotTurn _ x _ s).responses
  | duplexFeed d =>
    rcases duplexFeed_next h with ⟨hp, ht⟩ | ⟨_, _, ht⟩
    · exact answersWithCause_fail ht hp
    · exact answersWithCause_ok ht (onlyDuplex_feedBytes _ d s).responses
  | duplexFetch n =>
    rcases duplexFetch_next h with ⟨hp, ht⟩ | ⟨_, _, ht⟩
    · exact answersWithCause_fail ht hp
    · exact answersWithCause_ok ht (onlyDuplex_fetchLoop _ _ _ s).responses
  | duplexForget =>
    rcases duplexForget_next h with ⟨hp, ht⟩ | ⟨_, _, ht⟩
    · exact answersWithCause_fail ht hp
    · exact answersWithCause_ok ht (onlyDuplex_forget _ s).responses
  | duplexReseed =>
    rcases duplexReseed_next h with ⟨hp, ht⟩ | ⟨_, hl, ht⟩
    · exact answersWithCause_fail ht hp
    · refine ⟨_, _, [], (onlyReseed_reseedLoop hl _).responses, ht, ?_⟩
      split <;> trivial

/-! From the cause to the effect. -/

theorem exec_misuse {i : Instr} {s : State} (hinv : s.Inv) (hm : Misuse i s) :
    exec i s = .next (s.respond ⟨Status.errMisuse.word, []⟩) := by
  cases i with
  | spongeInit _ _ | duplexInit _ => exact hm.elim
  | spongeUpdate _ | spongeFinish _ => exact exec_wrongPhase _ s rfl (fun _ => hm) nofun
  | duplexDuplex x n =>
    obtain ⟨-, hresult⟩ := duplexDuplexResult
    obtain ⟨hmisuse, -, -⟩ := hresult s x n hinv
    exact hmisuse hm
  | duplexFeed _ | duplexFetch _ | duplexForget | duplexReseed => exact exec_wrongPhase _ s rfl nofun (fun _ => hm)

theorem exec_configBad {i : Instr} {s : State} (hinv : s.Inv) (hm : ¬Misuse i s) (hbad : ConfigBad i s) :
    exec i s = .next (s.respond ⟨Status.errConfig.word, []⟩) := by
  cases i with
  | spongeInit _ _ => exact spongeInit_rejected s hbad
  | duplexInit _ => exact duplexInit_rejected s hbad
  | duplexDuplex x n =>
    obtain ⟨hp, hi⟩ := not_or.mp hm
    obtain ⟨-, hresult⟩ := duplexDuplexResult
    obtain ⟨-, hconfig, -⟩ := hresult s x n hinv
    exact hconfig (not_not.mp hp) (not_not.mp hi) hbad
  | spongeUpdate _ | spongeFinish _ | duplexFeed _ | duplexFetch _ | duplexForget | duplexReseed => exact hbad.elim

/-- Settles O20: the checks answer every misuse before anything is changed, and the cause of status 3 is misuse. -/
theorem misuseCauses : Obligations.MisuseCauses := fun _ _ hinv =>
  ⟨exec_misuse hinv, fun _ _ h hr => (exec_answersWithCause h).cause (st := .errMisuse) hr⟩

/-- Settles O21: once the misuse checks have passed, the operand checks answer before anything is changed, and the cause
of status 1 is an operand condition met after them. -/
theorem configErrorCauses : Obligations.ConfigErrorCauses := fun _ _ hinv =>
  ⟨exec_configBad hinv, fun _ _ h hr => (exec_answersWithCause h).cause (st := .errConfig) hr⟩

/-! The illegal header (60_exceptions.md R104). -/

theorem step_illegal {s : State} {m : Message} {rest : List HostInput} (h : s.inbox = .command m :: rest)
    (hm : decodeHeader m.header = none) :
    step s = .next ((s.setInbox rest).respond ⟨Status.errIllegal.word, []⟩) := by
  rw [step_command h, decode_eq_illegal_of_decodeHeader hm]
  rfl

/-- A message with a legal header that gives a next state ran its command. -/
theorem step_legal_next {s t : State} {m : Message} {rest : List HostInput} {op : Op}
    (h : s.inbox = .command m :: rest) (hm : decodeHeader m.header = some op) (ht : step s = .next t) :
    exec (assemble op m.header m.payload) (s.setInbox rest) = .next t := by
  rw [step_command h, decode_of_fits (decodeHeader_eq_some.mp hm)] at ht
  by_cases hlen : m.payload.length = payloadLength op m.header
  · rwa [if_pos hlen] at ht
  · rw [if_neg hlen] at ht
    cases ht

/-- Settles O5: a header that selects no row is answered by the response alone, and one that selects a
row runs a command, none of which answers status 4. -/
theorem illegalHeaderAnswered : Obligations.IllegalHeaderAnswered := by
  refine fun s m rest h => ⟨fun hnone => step_illegal h (decodeHeader_eq_none_iff.mpr hnone), fun t out ht hr => ?_⟩
  cases hm : decodeHeader m.header with
  | none => exact decodeHeader_eq_none_iff.mp hm
  | some op => exact ((exec_answersWithCause (step_legal_next h hm ht)).cause (st := .errIllegal) hr).elim

end Sys2Proof.Machine
end

section
/-! PROOFS. The codec (spec 30_encoding.md R41 to R45): encoding and decoding are inverse on the well-formed
commands. -/

namespace Sys2Proof

/-- The header of every well-formed command is selected by the row of its mnemonic and announces its payload. -/
theorem matchesRow (i : Instr) : Laws.MatchesRow.Statement i := by
  cases i with
  | spongeInit rb sf => exact Laws.MatchesRow.spongeInit rb sf
  | spongeUpdate data => exact Laws.MatchesRow.spongeUpdate data
  | spongeFinish n => exact Laws.MatchesRow.spongeFinish n
  | duplexInit rb => exact Laws.MatchesRow.duplexInit rb
  | duplexDuplex x n => exact Laws.MatchesRow.duplexDuplex x n
  | duplexFeed data => exact Laws.MatchesRow.duplexFeed data
  | duplexFetch n => exact Laws.MatchesRow.duplexFetch n
  | duplexForget => exact Laws.MatchesRow.duplexForget
  | duplexReseed => exact Laws.MatchesRow.duplexReseed

/-- The operands read back from the encoded header and the payload are the command's own (30_encoding.md R42). -/
theorem assemble_encode (i : Instr) : assemble i.op (encode i).header (encode i).payload = i := by
  cases i <;> simp [assemble, Instr.op, encode, encodeHeader, Instr.payload]

/-- Settles O2: the encoded header fits the row of the command's mnemonic and announces the payload, and the fields it
was built from are the operands. -/
theorem encodedCommandDecodes : Obligations.EncodedCommandDecodes := by
  intro i hwf
  obtain ⟨row, hmem, hop, hselects, hlen⟩ := matchesRow i hwf
  have hfits := (selects_iff hmem _).mp hselects
  rw [hop] at hfits hlen
  exact (decode_eq_ok_iff_of_fits hfits).mpr ⟨hlen.symm, assemble_encode i⟩

/-- A message that decodes has a legal header, the payload it announces, and the command assembled from the two. -/
theorem decode_eq_ok {m : Message} {i : Instr} (h : decode m = .ok i) :
    ∃ op, headerFits op m.header ∧ m.payload.length = payloadLength op m.header ∧
      assemble op m.header m.payload = i := by
  cases hm : decodeHeader m.header with
  | none =>
    rw [decode_eq_illegal_of_decodeHeader hm] at h
    cases h
  | some op =>
    have hfits := decodeHeader_eq_some.mp hm
    exact ⟨op, hfits, (decode_eq_ok_iff_of_fits hfits).mp h⟩

/-- A payload of the announced length fits the field that announces it (30_encoding.md R42). -/
theorem wf_assemble {op : Op} {h : BitVec 64} {payload : List Byte} (hlen : payload.length = payloadLength op h) :
    (assemble op h payload).wf = true := by
  cases op with
  | spongeUpdate | duplexFeed => exact decide_eq_true (hlen ▸ (headerLen32 h).isLt)
  | duplexDuplex => exact decide_eq_true (hlen ▸ (headerArg16 h).isLt)
  | spongeInit | spongeFinish | duplexInit | duplexFetch | duplexForget | duplexReseed => rfl

/-- The header of the assembled command is the header it was assembled from: the row fixes every field that is no
operand, and the payload has the announced length. -/
theorem encodeHeader_assemble {op : Op} {h : BitVec 64} {payload : List Byte} (hfits : headerFits op h)
    (hlen : payload.length = payloadLength op h) : encodeHeader (assemble op h payload) = h := by
  conv_rhs => rw [← mkHeader_fields h]
  cases op <;> simp_all [headerFits, payloadLength, assemble, encodeHeader]

theorem payload_assemble {op : Op} {h : BitVec 64} {payload : List Byte} (hlen : payload.length = payloadLength op h) :
    (assemble op h payload).payload = payload := by
  cases op with
  | spongeUpdate | duplexDuplex | duplexFeed => rfl
  | spongeInit | spongeFinish | duplexInit | duplexFetch | duplexForget | duplexReseed =>
    exact (List.length_eq_zero_iff.mp hlen).symm

/-- Settles O3: a decoded command is assembled from the header's fields and the payload, so encoding it puts every bit
back. -/
theorem decodedMessageReencodes : Obligations.DecodedMessageReencodes := by
  intro m i h
  obtain ⟨op, hfits, hlen, rfl⟩ := decode_eq_ok h
  exact ⟨wf_assemble hlen, by rw [encode, encodeHeader_assemble hfits hlen, payload_assemble hlen]⟩

/-- Settles O1: each sample is the encoding of its command. -/
theorem sampleWordsDecode : Obligations.SampleWordsDecode :=
  ⟨encodedCommandDecodes (.spongeInit 1088 0x06) rfl, encodedCommandDecodes (.spongeUpdate [0x61, 0x62, 0x63]) rfl,
    encodedCommandDecodes (.spongeFinish 32) rfl, encodedCommandDecodes (.duplexInit 1536) rfl,
    encodedCommandDecodes (.duplexDuplex [1, 2, 3, 4, 5, 6, 7] 8) rfl,
    encodedCommandDecodes (.duplexFeed [0xa1, 0xa2, 0xa3]) rfl, encodedCommandDecodes (.duplexFetch 17) rfl,
    encodedCommandDecodes .duplexForget rfl, encodedCommandDecodes .duplexReseed rfl⟩

end Sys2Proof
end

section
/-! PROOFS. What a step does with a payload of another length than announced (spec 30_encoding.md R45). -/

namespace Sys2Proof.Machine

/-- A step is refused on a message with a legal header exactly when the payload is not of the announced length. -/
theorem step_refused_iff_of_fits {s : State} {m : Message} {rest : List HostInput} {op : Op}
    (h : s.inbox = .command m :: rest) (hfits : headerFits op m.header) :
    step s = .refused .notACommandMessage ↔ m.payload.length ≠ payloadLength op m.header := by
  rw [step_command h, decode_of_fits hfits]
  by_cases hlen : m.payload.length = payloadLength op m.header
  · simp [hlen, exec_ne_refused]
  · simp [hlen]

/-- Settles O6: an illegal header is answered, and a legal one announces the bits its row names. -/
theorem wrongPayloadLengthRefused : Obligations.WrongPayloadLengthRefused := by
  intro s m rest h
  cases hm : decodeHeader m.header with
  | none => simp [step_illegal h hm]
  | some op =>
    rw [step_refused_iff_of_fits h (decodeHeader_eq_some.mp hm)]
    simp only [Option.some.injEq, exists_eq_left']
    cases op with
    | spongeUpdate | duplexFeed => rw [payloadLength, toNat_headerLen32]
    | duplexDuplex => rw [payloadLength, toNat_headerArg16]
    | spongeInit | spongeFinish | duplexInit | duplexFetch | duplexForget | duplexReseed => rfl

end Sys2Proof.Machine
end

section
/-! PROOFS. `DUPLEX_FEED` and `DUPLEX_FETCH` on a legal context (spec 41_duplex.md R66 to R69): the whole state each
loop leaves, from what it does to the context and the trace. -/

namespace Sys2Proof.Machine

theorem DuplexCtx.legal_bounds {x : DuplexCtx} (h : x.legal = true) :
    8 ≤ x.rate ∧ x.rate ≤ 192 ∧ x.inputIndex ≤ x.rate - 1 ∧ x.outputIndex ≤ x.rate := by
  obtain ⟨⟨hr8, hr192, -⟩, hi, ho⟩ := x.legal_iff.mp h
  exact ⟨hr8, hr192, hi, ho⟩

/-! `DUPLEX_FEED`. -/

/-- The context once `data` has been fed: byte by byte, and then nothing is readable; a feed of nothing leaves it
(41_duplex.md R66). -/
def fedCtx (c : Config) (x : DuplexCtx) (data : List Byte) : DuplexCtx :=
  if data = [] then x else { data.foldl (feedByte c) x with outputIndex := x.rate }

/-- How many permutations a feed makes (41_duplex.md R67). -/
def feedPerms (x : DuplexCtx) (data : List Byte) : Nat :=
  if data = [] then 0 else (x.inputIndex + data.length - 1) / (x.rate - 1)

/-- A feed leaves the fed context, its permutations in the trace, and nothing else changed. -/
theorem feedBytes_eq (c : Config) (data : List Byte) {s : State} (hl : s.duplex.legal = true) :
    feedBytes c data s =
      { s with
        duplex := fedCtx c s.duplex data
        trace := s.trace ++ List.replicate (feedPerms s.duplex data) (.perm .duplex) } := by
  rw [fedCtx, feedPerms]
  split
  · subst data
    simp [feedBytes]
  · rename_i hne
    obtain ⟨hr8, -, hi, -⟩ := s.duplex.legal_bounds hl
    obtain ⟨hduplex, hrest⟩ := feedLoop_spec c data.length data s (by omega) hi le_rfl
    obtain ⟨-, htrace⟩ := hrest hne
    refine (onlyDuplex_feedBytes c data s).eq_of_duplex_trace ?_ ?_ <;>
      rw [feedBytes, if_neg (mt List.length_eq_zero_iff.mp hne)]
    · rw [State.setOutputIndex_duplex, hduplex]
    · rw [State.setOutputIndex_trace, htrace]

/-- What a feed keeps of the registers. -/
theorem fedCtx_frame (c : Config) (x : DuplexCtx) (data : List Byte) :
    (fedCtx c x data).rate = x.rate ∧ (fedCtx c x data).phase = x.phase := by
  have hfold : (data.foldl (feedByte c) x).rate = x.rate ∧ (data.foldl (feedByte c) x).phase = x.phase := by
    induction data generalizing x with
    | nil => exact ⟨rfl, rfl⟩
    | cons b bs ih => simpa using ih (feedByte c x b)
  rw [fedCtx]
  split
  · exact ⟨rfl, rfl⟩
  · exact hfold

/-- The indices a feed of at least one byte leaves (41_duplex.md R67). The loop's law is about a state; any one with the
context `x` serves. -/
theorem fedCtx_indices (c : Config) {data : List Byte} {x : DuplexCtx} (hl : x.legal = true) (hne : data ≠ []) :
    (fedCtx c x data).inputIndex = (x.inputIndex + data.length - 1) % (x.rate - 1) + 1 ∧
    (fedCtx c x data).outputIndex = x.rate := by
  obtain ⟨hr8, -, hi, -⟩ := x.legal_bounds hl
  obtain ⟨hduplex, hrest⟩ :=
    feedLoop_spec c data.length data (State.reset.setDuplex x) (Nat.sub_pos_of_lt (by simp; omega)) hi le_rfl
  obtain ⟨hindex, -⟩ := hrest hne
  rw [hduplex] at hindex
  rw [fedCtx, if_neg hne]
  exact ⟨hindex, rfl⟩

/-! `DUPLEX_FETCH`. -/

/-- How many permutations a fetch makes (41_duplex.md R69). -/
def fetchPerms (x : DuplexCtx) (n : Nat) : Nat := if n = 0 then 0 else (x.outputIndex + n - 1) / x.rate

/-- A fetch leaves the context of fetching byte by byte, its permutations in the trace, and nothing else changed. -/
theorem fetchLoop_eq (c : Config) (n : Nat) {s : State} (hl : s.duplex.legal = true) :
    fetchLoop c n n s =
      ((fetchBytes c n s.duplex).1,
        { s with
          duplex := (fetchBytes c n s.duplex).2
          trace := s.trace ++ List.replicate (fetchPerms s.duplex n) (.perm .duplex) }) := by
  rw [fetchPerms]
  split
  · subst n
    simp [fetchBytes]
  · obtain ⟨hr8, -, -, ho⟩ := s.duplex.legal_bounds hl
    obtain ⟨hbytes, -, hrest⟩ := fetchLoop_spec c n n s (by omega) ho le_rfl
    obtain ⟨-, -, htrace⟩ := hrest (by omega)
    rw [← hbytes]
    exact Prod.ext rfl ((onlyDuplex_fetchLoop c n n s).eq_of_duplex_trace rfl htrace)

/-- The number of bytes fetched, the closed forms of the indices, and what a fetch keeps (41_duplex.md R69). -/
theorem fetchBytes_registers (c : Config) {n : Nat} {x : DuplexCtx} (hl : x.legal = true) (hn : n ≠ 0) :
    (fetchBytes c n x).1.length = n ∧
    (fetchBytes c n x).2.outputIndex = (x.outputIndex + n - 1) % x.rate + 1 ∧
    (fetchBytes c n x).2.inputIndex = (if fetchPerms x n = 0 then x.inputIndex else 0) ∧
    (fetchBytes c n x).2.rate = x.rate ∧ (fetchBytes c n x).2.phase = x.phase := by
  obtain ⟨hr8, -, -, ho⟩ := x.legal_bounds hl
  obtain ⟨-, hrate, hphase, -⟩ := onlyDuplex_fetchLoop c n n (State.reset.setDuplex x)
  obtain ⟨hbytes, hlen, hrest⟩ :=
    fetchLoop_spec c n n (State.reset.setDuplex x) (Nat.lt_of_lt_of_le (by decide) hr8) ho le_rfl
  obtain ⟨hout, hin, -⟩ := hrest (Nat.pos_of_ne_zero hn)
  rw [State.setDuplex_duplex] at hbytes hrate hphase hout hin
  rw [← hbytes, fetchPerms, if_neg hn]
  exact ⟨hlen, hout, hin, hrate, hphase⟩

/-! The two commands. -/

/-- Settles O38: a feed of at least one byte is the fed context, whose index has a closed form; one of nothing is the
response alone. -/
theorem duplexFeedResult : Obligations.DuplexFeedResult := by
  refine ⟨fun _ => rfl, fun s data hinv hp hlen => ?_, fun s hinv hp => duplexFeed_run hp (hinv.duplex_legal hp),
    fun s data hp => exec_wrongPhase (.duplexFeed data) s rfl nofun (fun _ => hp)⟩
  have hlegal := hinv.duplex_legal hp
  have hne : data ≠ [] := List.ne_nil_of_length_pos hlen
  obtain ⟨hindex, -⟩ := fedCtx_indices Config.block hlegal hne
  obtain ⟨hrate, hphase⟩ := fedCtx_frame Config.block s.duplex data
  refine ⟨fedCtx Config.block s.duplex data, if_neg hne, hindex, hrate, hphase.trans hp, ?_⟩
  rw [exec_duplexFeed, duplexFeed_run hp hlegal, feedBytes_eq Config.block data hlegal, feedPerms, if_neg hne]
  rfl

/-- Settles O40: a fetch of at least one byte is that of fetching byte by byte, whose indices have closed forms; one of
nothing is the response alone. -/
theorem duplexFetchResult : Obligations.DuplexFetchResult := by
  refine ⟨fun _ => rfl, fun s n hinv hp hn => ?_, fun s hinv hp => duplexFetch_run hp (hinv.duplex_legal hp),
    fun s n hp => exec_wrongPhase (.duplexFetch n) s rfl nofun (fun _ => hp)⟩
  have hlegal := hinv.duplex_legal hp
  have hn0 : n.toNat ≠ 0 := Nat.ne_of_gt hn
  obtain ⟨hlen, hout, hin, hrate, hphase⟩ := fetchBytes_registers Config.block hlegal hn0
  rw [fetchPerms, if_neg hn0] at hin
  refine ⟨_, _, rfl, hlen, hout, hin, hrate, hphase.trans hp, ?_⟩
  rw [exec_duplexFetch, duplexFetch_run hp hlegal, fetchLoop_eq Config.block n.toNat hlegal, fetchPerms, if_neg hn0]
  rfl

end Sys2Proof.Machine
end

section
/-! PROOFS. The collaborator requests of every command (spec 40_sponge.md R59, 41_duplex.md R77) and the status each may
answer with (60_exceptions.md R100). -/

namespace Sys2Proof.Machine

/-- The engine whose context a command works on. -/
def Instr.engine (i : Instr) : Engine := if isSpongeCommand i then .sponge else .duplex

/-- What a status says of the command that answered with it and of the requests `ev` it made: those of its row where it
succeeded, none where a check failed, and those up to the failing one where ENT failed. -/
def StatusRequests (i : Instr) (s : State) (ev : List Event) : Status → Prop
  | .ok =>
    ev = if i = .duplexReseed then reseedEvents s.duplex.rate (200 / s.duplex.rate)
      else List.replicate (permCount i s) (.perm (Instr.engine i))
  | .errConfig => ev = [] ∧ ((∃ a b, i = .spongeInit a b) ∨ (∃ a, i = .duplexInit a) ∨ ∃ d n, i = .duplexDuplex d n)
  | .errEntropy =>
    i = .duplexReseed ∧ ∃ k, 1 ≤ k ∧ k ≤ 200 / s.duplex.rate ∧ ev = reseedEvents s.duplex.rate k
  | .errMisuse => ev = [] ∧ isInitCommand i = false
  | .errIllegal => False

/-- From `s` to `t` the command `i` appended one response, and the trace gained the requests its status tells. -/
def AnswersWithRequests (i : Instr) (s t : State) : Prop :=
  ∃ (st : Status) (out : List Byte) (ev : List Event),
    t.responses = s.responses ++ [⟨st.word, out⟩] ∧ t.trace = s.trace ++ ev ∧ StatusRequests i s ev st

theorem answersWithRequests_config {i : Instr} {s t : State} (ht : t = s.respond ⟨Status.errConfig.word, []⟩)
    (hi : (∃ a b, i = .spongeInit a b) ∨ (∃ a, i = .duplexInit a) ∨ ∃ d n, i = .duplexDuplex d n) :
    AnswersWithRequests i s t :=
  ⟨.errConfig, [], [], by rw [ht, State.respond_responses], by rw [ht, State.respond_trace, List.append_nil], rfl, hi⟩

theorem answersWithRequests_misuse {i : Instr} {s t : State} (ht : t = s.respond ⟨Status.errMisuse.word, []⟩)
    (hi : isInitCommand i = false) : AnswersWithRequests i s t :=
  ⟨.errMisuse, [], [], by rw [ht, State.respond_responses], by rw [ht, State.respond_trace, List.append_nil], rfl, hi⟩

theorem answersWithRequests_ok {i : Instr} {s t u : State} {out : List Byte} (ht : t = u.respond ⟨Status.ok.word, out⟩)
    (hi : i ≠ .duplexReseed) (hu : u.responses = s.responses)
    (htr : u.trace = s.trace ++ List.replicate (permCount i s) (.perm (Instr.engine i))) : AnswersWithRequests i s t :=
  ⟨.ok, out, _, by rw [ht, State.respond_responses, hu], by rw [ht, State.respond_trace, htr], (if_neg hi).symm⟩

theorem max_one_outBlocks (r n : Nat) (hr : 0 < r) : max 1 (outBlocks r n) = if n ≤ r then 1 else outBlocks r n := by
  by_cases hn : n ≤ r
  · rcases Nat.eq_zero_or_pos n with rfl | hpos
    · simp [outBlocks_zero]
    · simp [hn, outBlocks_short hpos hn]
  · have := outBlocks_pos (n := n) hr (by omega)
    rw [if_neg hn]
    omega

theorem permCount_duplexFeed (data : List Byte) (s : State) :
    permCount (.duplexFeed data) s = feedPerms s.duplex data := by
  simp only [permCount, feedPerms, List.length_eq_zero_iff]

theorem permCount_duplexFetch (n : BitVec 32) (s : State) :
    permCount (.duplexFetch n) s = fetchPerms s.duplex n.toNat := rfl

/-- Every command that gives a next state answers with a status that tells its requests. -/
theorem exec_answersWithRequests {i : Instr} {s t : State} (h : exec i s = .next t) : AnswersWithRequests i s t := by
  cases i with
  | spongeInit rb sf =>
    rcases spongeInit_next h with ⟨_, ht⟩ | ⟨_, ht⟩
    · exact answersWithRequests_config ht (.inl ⟨rb, sf, rfl⟩)
    · exact answersWithRequests_ok ht nofun rfl (List.append_nil _).symm
  | spongeUpdate d =>
    rcases spongeUpdate_next h with ⟨_, ht⟩ | ⟨_, hl, ht⟩
    · exact answersWithRequests_misuse ht rfl
    · obtain ⟨⟨hr8, hr200, -⟩, hlo, -⟩ := (SpongeCtx.legal_iff _).mp hl
      obtain ⟨_, -, htrace, -⟩ := spongeUpdateState_spec Config.block d s (by omega) hr200 hlo
      exact answersWithRequests_ok ht nofun (onlySponge_update _ d s).responses htrace
  | spongeFinish n =>
    rcases spongeFinish_next h with ⟨_, ht⟩ | ⟨_, hl, ht⟩
    · exact answersWithRequests_misuse ht rfl
    · obtain ⟨⟨hr8, hr200, -⟩, hlo, -⟩ := (SpongeCtx.legal_iff _).mp hl
      obtain ⟨-, -, htrace⟩ := squeeze_absorbPadded_spec Config.block n.toNat s (by omega) hr200 hlo
      rw [max_one_outBlocks _ _ (by omega)] at htrace
      exact answersWithRequests_ok ht nofun (onlySponge_squeeze_absorbPadded _ _ s).responses htrace
  | duplexInit rb =>
    rcases duplexInit_next h with ⟨_, ht⟩ | ⟨_, ht⟩
    · exact answersWithRequests_config ht (.inr (.inl ⟨rb, rfl⟩))
    · exact answersWithRequests_ok ht nofun rfl (List.append_nil _).symm
  | duplexDuplex x n =>
    rcases duplexDuplex_next h with ⟨_, ht⟩ | ⟨_, _, _, _, ht⟩ | ⟨_, _, _, _, ht⟩
    · exact answersWithRequests_misuse ht rfl
    · exact answersWithRequests_config ht (.inr (.inr ⟨x, n, rfl⟩))
    · exact answersWithRequests_ok ht nofun (onlyDuplex_oneShotTurn _ x _ s).responses (oneShotTurn_trace _ x _ s)
  | duplexFeed d =>
    rcases duplexFeed_next h with ⟨_, ht⟩ | ⟨_, hl, ht⟩
    · exact answersWithRequests_misuse ht rfl
    · refine answersWithRequests_ok ht nofun (onlyDuplex_feedBytes _ d s).responses ?_
      rw [feedBytes_eq _ d hl, permCount_duplexFeed]
      rfl
  | duplexFetch n =>
    rcases duplexFetch_next h with ⟨_, ht⟩ | ⟨_, hl, ht⟩
    · exact answersWithRequests_misuse ht rfl
    · refine answersWithRequests_ok ht nofun (onlyDuplex_fetchLoop _ _ _ s).responses ?_
      rw [fetchLoop_eq _ n.toNat hl, permCount_duplexFetch]
      rfl
  | duplexForget =>
    rcases duplexForget_next h with ⟨_, ht⟩ | ⟨_, _, ht⟩
    · exact answersWithRequests_misuse ht rfl
    · exact answersWithRequests_ok ht nofun (onlyDuplex_forget _ s).responses (forget_trace _ s)
  | duplexReseed =>
    rcases duplexReseed_next h with ⟨_, ht⟩ | ⟨_, hl, ht⟩
    · exact answersWithRequests_misuse ht rfl
    · obtain ⟨hr8, -⟩ := s.duplex.legal_bounds hl
      obtain ⟨honly, hmet, hfailed⟩ := reseedLoop_cases Config.block (200 / s.duplex.rate) s (by omega)
      cases hb : (reseedLoop Config.block (200 / s.duplex.rate) s).1 with
      | true =>
        rw [hb] at ht
        obtain ⟨htrace, -⟩ := hmet hb
        exact ⟨.ok, [], _, by rw [ht]; exact congrArg (· ++ _) honly.responses, by rw [ht]; exact htrace, rfl⟩
      | false =>
        rw [hb] at ht
        obtain ⟨⟨k, hk1, hk, htrace⟩, -⟩ := hfailed hb
        exact ⟨.errEntropy, [], _, by rw [ht]; exact congrArg (· ++ _) honly.responses, by rw [ht]; exact htrace, rfl,
          k, hk1, hk, rfl⟩

/-- The requests a response tells of (40_sponge.md R59, 41_duplex.md R77). -/
theorem exec_requests {i : Instr} {s t : State} {r : Response} (h : exec i s = .next t)
    (hr : t.responses = s.responses ++ [r]) :
    ∃ (st : Status) (ev : List Event), r.word = st.word ∧ t.trace = s.trace ++ ev ∧ StatusRequests i s ev st := by
  obtain ⟨st, out, ev, hr', htrace, hreq⟩ := exec_answersWithRequests h
  obtain rfl : r = ⟨st.word, out⟩ := by simpa [hr] using hr'
  exact ⟨st, ev, rfl, htrace, hreq⟩

/-- Settles O27: a status tells the requests its command made. -/
theorem collaboratorRequests : Obligations.CollaboratorRequests := by
  intro i s t r _ h hr
  obtain ⟨st, ev, hword, htrace, hreq⟩ := exec_requests h hr
  rw [hword, htrace]
  refine ⟨fun hfail => ?_, fun hentropy => ?_, fun hok => ?_⟩
  · rcases hfail with hw | hw
    · obtain rfl : st = .errConfig := Status.word_injective hw
      obtain ⟨rfl, -⟩ := hreq
      exact List.append_nil _
    · obtain rfl : st = .errMisuse := Status.word_injective hw
      obtain ⟨rfl, -⟩ := hreq
      exact List.append_nil _
  · obtain rfl : st = .errEntropy := Status.word_injective hentropy
    obtain ⟨-, k, hk1, hk, rfl⟩ := hreq
    exact ⟨k, hk1, hk, rfl⟩
  · obtain rfl : st = .ok := Status.word_injective hok
    exact congrArg (s.trace ++ ·) hreq

/-- Settles O19: each status with the commands it comes from; the form of the response says the rest. -/
theorem statusCodesByCommand : Obligations.StatusCodesByCommand := by
  refine ⟨fun i s t r h hr => ?_, fun _ => rfl⟩
  obtain ⟨st, ev, hword, -, hreq⟩ := exec_requests h hr
  obtain ⟨r', hr', -, -, hout⟩ := exec_answersInFormat h
  obtain rfl : r' = r := by simpa [hr'] using hr
  refine ⟨fun hw => ?_, fun hw => ?_, fun hw => ?_, ?_, hout⟩
  · obtain rfl : st = .errConfig := Status.word_injective (hword.symm.trans hw)
    exact hreq.2
  · obtain rfl : st = .errEntropy := Status.word_injective (hword.symm.trans hw)
    exact hreq.1
  · obtain rfl : st = .errMisuse := Status.word_injective (hword.symm.trans hw)
    exact hreq.2
  · rw [hword]
    cases st with
    | ok | errConfig | errEntropy | errMisuse => decide
    | errIllegal => exact hreq.elim

/-! What the trace gains, whatever the status. -/

/-- A command that is no reseed asks PERM alone, for its own context. -/
theorem exec_trace_perms {i : Instr} {s t : State} (h : exec i s = .next t) (hi : i ≠ .duplexReseed) :
    ∃ k, t.trace = s.trace ++ List.replicate k (.perm (Instr.engine i)) := by
  obtain ⟨st, _, ev, -, htrace, hreq⟩ := exec_answersWithRequests h
  cases st with
  | ok => exact ⟨permCount i s, by rw [htrace, hreq, if_neg hi]⟩
  | errConfig | errMisuse =>
    obtain ⟨rfl, -⟩ := hreq
    exact ⟨0, htrace⟩
  | errEntropy => exact absurd hreq.1 hi
  | errIllegal => exact hreq.elim

/-- A reseed asks PERM and ENT in turn, and asks nothing on an uninitialised context. -/
theorem reseed_trace {s t : State} (h : exec .duplexReseed s = .next t) :
    ∃ k, t.trace = s.trace ++ reseedEvents s.duplex.rate k := by
  obtain ⟨st, _, ev, -, htrace, hreq⟩ := exec_answersWithRequests h
  cases st with
  | ok => exact ⟨_, by rw [htrace, hreq, if_pos rfl]⟩
  | errConfig | errMisuse =>
    obtain ⟨rfl, -⟩ := hreq
    exact ⟨0, htrace⟩
  | errEntropy =>
    obtain ⟨-, k, -, -, rfl⟩ := hreq
    exact ⟨k, htrace⟩
  | errIllegal => exact hreq.elim

/-- An event of a reseed is a permutation of `D` or a request to ENT. -/
theorem mem_reseedEvents {r k : Nat} {e : Event} (h : e ∈ reseedEvents r k) :
    e = .perm .duplex ∨ e = .ent (r - 1) := by
  obtain ⟨turn, hturn, he⟩ := List.mem_flatten.mp h
  rw [List.eq_of_mem_replicate hturn] at he
  exact List.mem_pair.mp he

/-- A duplex command never asks for a permutation of `S`. -/
theorem exec_duplex_trace {i : Instr} {s t : State} (hd : isSpongeCommand i = false) (h : exec i s = .next t) :
    ∃ ev, t.trace = s.trace ++ ev ∧ ∀ e ∈ ev, e ≠ .perm .sponge := by
  by_cases hi : i = .duplexReseed
  · subst hi
    obtain ⟨k, htrace⟩ := reseed_trace h
    exact ⟨_, htrace, fun e he => by rcases mem_reseedEvents he with rfl | rfl <;> nofun⟩
  · obtain ⟨k, htrace⟩ := exec_trace_perms h hi
    refine ⟨_, htrace, fun e he => ?_⟩
    rw [List.eq_of_mem_replicate he, Instr.engine, hd]
    nofun

end Sys2Proof.Machine
end

section
/-! PROOFS. What a command keeps of the state (spec 10_state.md R15 and section 4, 20_memory.md R34). -/

namespace Sys2Proof.Machine

theorem exec_responses {i : Instr} {s t : State} (h : exec i s = .next t) : ∃ r, t.responses = s.responses ++ [r] := by
  obtain ⟨r, hr, -⟩ := exec_answersInFormat h
  exact ⟨r, hr⟩

/-- A sponge command touches, besides its response, the sponge context and the trace. -/
theorem exec_sponge_onlySponge {i : Instr} {s t : State} (hi : isSpongeCommand i = true) (h : exec i s = .next t) :
    ∃ u x q, OnlySponge s u ∧ t = (u.setSponge x).respond q := by
  cases i with
  | spongeInit rb sf =>
    rcases spongeInit_next h with ⟨_, ht⟩ | ⟨_, ht⟩
    · exact ⟨s, s.sponge, _, .refl s, ht⟩
    · exact ⟨s, _, _, .refl s, ht⟩
  | spongeUpdate d =>
    obtain ⟨u, q, hu, ht⟩ := spongeUpdate_onlySponge h
    exact ⟨u, u.sponge, q, hu, ht⟩
  | spongeFinish n =>
    rcases spongeFinish_next h with ⟨_, ht⟩ | ⟨_, _, ht⟩
    · exact ⟨s, s.sponge, _, .refl s, ht⟩
    · exact ⟨_, _, _, onlySponge_squeeze_absorbPadded _ _ s, ht⟩
  | duplexInit _ | duplexDuplex _ _ | duplexFeed _ | duplexFetch _ | duplexForget | duplexReseed => cases hi

/-- What a duplex command, the init included, leaves of the rest of the state. -/
theorem exec_duplex_frame {i : Instr} {s t : State} (hd : isSpongeCommand i = false) (h : exec i s = .next t) :
    t.sponge = s.sponge ∧ t.inbox = s.inbox ∧ t.resetDraws = s.resetDraws := by
  by_cases hi : isInitCommand i = true
  · cases i with
    | duplexInit rb => rcases duplexInit_next h with ⟨_, rfl⟩ | ⟨_, rfl⟩ <;> exact ⟨rfl, rfl, rfl⟩
    | spongeInit _ _ => cases hd
    | spongeUpdate _ | spongeFinish _ | duplexDuplex _ _ | duplexFeed _ | duplexFetch _ | duplexForget
    | duplexReseed => cases hi
  · obtain ⟨u, q, hu, rfl⟩ := exec_duplex_onlyReseed hd (by simpa using hi) h
    exact ⟨hu.sponge, hu.inbox, hu.resetDraws⟩

theorem exec_sponge_frame {i : Instr} {s t : State} (hi : isSpongeCommand i = true) (h : exec i s = .next t) :
    t.duplex = s.duplex ∧ t.entScript = s.entScript ∧ t.entDraws = s.entDraws ∧
      t.inbox = s.inbox ∧ t.resetDraws = s.resetDraws := by
  obtain ⟨u, x, q, hu, rfl⟩ := exec_sponge_onlySponge hi h
  exact ⟨hu.duplex, hu.entScript, hu.entDraws, hu.inbox, hu.resetDraws⟩

/-- No command touches the host's queue or the counter of reset events. -/
theorem exec_environment {i : Instr} {s t : State} (h : exec i s = .next t) :
    t.inbox = s.inbox ∧ t.resetDraws = s.resetDraws := by
  cases hi : isSpongeCommand i with
  | true =>
    obtain ⟨-, -, -, hrest⟩ := exec_sponge_frame hi h
    exact hrest
  | false => exact (exec_duplex_frame hi h).2

/-- Settles O46: the frame of each engine, and the requests on its own context. -/
theorem commandsKeepToTheirContext : Obligations.CommandsKeepToTheirContext := by
  intro i s t h
  obtain ⟨hinbox, hdraws⟩ := exec_environment h
  refine ⟨fun hi => ?_, fun hi => ⟨(exec_duplex_frame hi h).1, exec_duplex_trace hi h⟩, hinbox, hdraws,
    exec_responses h⟩
  obtain ⟨hduplex, hscript, hent, -⟩ := exec_sponge_frame hi h
  have hne : i ≠ .duplexReseed := by rintro rfl; cases hi
  obtain ⟨k, htrace⟩ := exec_trace_perms h hne
  rw [Instr.engine, hi] at htrace
  exact ⟨hduplex, hscript, hent, _, htrace, fun e he => List.eq_of_mem_replicate he⟩

/-- A sponge command that is no init writes neither rate nor suffix. -/
theorem exec_sponge_configuration {i : Instr} {s t : State} (hs : isSpongeCommand i = true)
    (hi : isInitCommand i = false) (h : exec i s = .next t) :
    t.sponge.rate = s.sponge.rate ∧ t.sponge.suffix = s.sponge.suffix := by
  cases i with
  | spongeInit _ _ => cases hi
  | spongeUpdate d =>
    obtain ⟨u, q, hu, rfl⟩ := spongeUpdate_onlySponge h
    exact ⟨hu.rate, hu.suffix⟩
  | spongeFinish n =>
    rcases spongeFinish_next h with ⟨_, rfl⟩ | ⟨_, _, rfl⟩
    · exact ⟨rfl, rfl⟩
    · have hframe := onlySponge_squeeze_absorbPadded Config.block n.toNat s
      exact ⟨hframe.rate, hframe.suffix⟩
  | duplexInit _ | duplexDuplex _ _ | duplexFeed _ | duplexFetch _ | duplexForget | duplexReseed => cases hs

/-- Settles O49: the other engine's registers are in the frame, and the command's own loops write neither rate nor
suffix. -/
theorem ratesAndSuffixWrittenByInitOnly : Obligations.RatesAndSuffixWrittenByInitOnly := by
  intro i s t hi h
  cases hs : isSpongeCommand i with
  | true =>
    obtain ⟨hrate, hsuffix⟩ := exec_sponge_configuration hs hi h
    exact ⟨hrate, hsuffix, congrArg DuplexCtx.rate (exec_sponge_frame hs h).1⟩
  | false =>
    obtain ⟨u, q, hu, rfl⟩ := exec_duplex_onlyReseed hs hi h
    exact ⟨congrArg SpongeCtx.rate hu.sponge, congrArg SpongeCtx.suffix hu.sponge, hu.rate⟩

end Sys2Proof.Machine
end

section
/-! PROOFS. The step (spec 20_memory.md R29, R31): what it can do, and the host inputs that carry no whole command
(30_encoding.md R44, 70_reset_and_hazards.md R120). -/

namespace Sys2Proof.Machine

/-! What a step can do. -/

theorem step_idle {s : State} (h : s.inbox = []) : step s = .next s := by rw [step, fetch, h]

theorem step_decoded {s : State} {m : Message} {rest : List HostInput} {i : Instr} (h : s.inbox = .command m :: rest)
    (hm : decode m = .ok i) : step s = exec i (s.setInbox rest) := by
  rw [step_command h, hm]

/-- Everything a step can do when it gives a next state: idle, run a decoded command, answer an illegal header, or end
in the reset event. -/
theorem step_next_cases {s t : State} (h : step s = .next t) :
    (s.inbox = [] ∧ t = s) ∨
    (∃ m rest i, s.inbox = .command m :: rest ∧ decode m = .ok i ∧ exec i (s.setInbox rest) = .next t) ∨
    (∃ m rest, s.inbox = .command m :: rest ∧ decode m = .error .illegal ∧
      t = (s.setInbox rest).respond ⟨Status.errIllegal.word, []⟩) ∨
    (∃ u : State, u.inbox = s.inbox.tail ∧ t = resetEvent Config.block u) := by
  cases hq : s.inbox with
  | nil =>
    rw [step_idle hq] at h
    cases h
    exact .inl ⟨rfl, rfl⟩
  | cons input rest =>
    cases input with
    | command m =>
      rw [step_command hq] at h
      split at h
      · exact .inr (.inl ⟨m, rest, _, rfl, ‹_›, h⟩)
      · cases h
        exact .inr (.inr (.inl ⟨m, rest, rfl, ‹_›, rfl⟩))
      · cases h
    | reset =>
      rw [step_reset hq] at h
      cases h
      exact .inr (.inr (.inr ⟨s.setInbox rest, rfl, rfl⟩))
    | resetDuring m requests =>
      rw [step_resetDuring hq] at h
      split at h
      · obtain ⟨u, -, rfl⟩ := abandon_next h
        exact .inr (.inr (.inr ⟨(s.setInbox rest).afterRequests _, rfl, rfl⟩))
      · cases h
        exact .inr (.inr (.inr ⟨s.setInbox rest, rfl, rfl⟩))
      · split at h <;> cases h
        exact .inr (.inr (.inr ⟨s.setInbox rest, rfl, rfl⟩))

/-- Settles O9: a command keeps the rest of the queue, and so does the reset event. -/
theorem stepTakesOneInput : Obligations.StepTakesOneInput := by
  intro s t h
  rcases step_next_cases h with ⟨hq, rfl⟩ | ⟨m, rest, i, hq, -, hexec⟩ | ⟨m, rest, hq, -, rfl⟩ | ⟨u, hu, rfl⟩
  · rw [hq, List.tail_nil]
  · rw [hq, List.tail_cons, (exec_environment hexec).1, State.setInbox_inbox]
  · rw [hq, List.tail_cons, State.respond_inbox, State.setInbox_inbox]
  · exact hu

/-- Settles O7: the message leaves the queue, and the decoded command runs on what is left. -/
theorem stepRunsDecodedCommand : Obligations.StepRunsDecodedCommand := fun _ _ _ _ h hm => step_decoded h hm

/-- Settles O8: with an empty queue there is nothing to fetch. -/
theorem idleKeepsState : Obligations.IdleKeepsState := fun _ h => step_idle h

/-! Reset. -/

/-- Settles O10: the step is the reset event on the rest of the queue. -/
theorem resetInputUninitialises : Obligations.ResetInputUninitialises := by
  intro s rest h
  obtain ⟨hlo, hsr, hdr, hin, hout⟩ := resetEvent_widths Config.block (s.setInbox rest)
  exact ⟨_, step_reset h, rfl, rfl, rfl, rfl, hlo, hsr, hdr, hin, hout, rfl, rfl, rfl⟩

/-- Settles O14 by the definition of the reset state. -/
theorem resetStateTags : Obligations.ResetStateTags := ⟨rfl, rfl, rfl, rfl⟩

/-- Settles O15: every count is 0 and both contexts are uninitialised. -/
theorem resetMeetsInvariant : Obligations.ResetMeetsInvariant :=
  ⟨⟨Nat.zero_lt_succ _, Nat.zero_lt_succ _, fun h => absurd rfl h⟩,
    ⟨Nat.zero_lt_succ _, Nat.zero_lt_succ _, Nat.zero_lt_succ _, nofun⟩, nofun, nofun⟩

theorem partlyDelivered_of_fits {m : Message} {op : Op} (hfits : headerFits op m.header) :
    partlyDelivered m = decide (m.payload.length < payloadLength op m.header) := by
  rw [partlyDelivered, decodeHeader_eq_some.mpr hfits]

/-- Settles O13: an illegal header and a payload still short leave the reset event, and an overlong payload is
refused. -/
theorem resetDropsPartialMessage : Obligations.ResetDropsPartialMessage := by
  intro s m requests rest h
  have hplain : step { s with inbox := .reset :: rest } = .next (resetEvent Config.block (s.setInbox rest)) :=
    step_reset rfl
  rw [step_resetDuring h, hplain]
  refine ⟨fun hm => ?_, fun op hm => ⟨fun hshort => ?_, fun hlong => ?_⟩⟩
  · rw [decode_eq_illegal_of_decodeHeader hm]
  · have hfits := decodeHeader_eq_some.mp hm
    rw [decode_of_fits hfits, partlyDelivered_of_fits hfits, if_neg (Nat.ne_of_lt hshort), decide_eq_true hshort]
    rfl
  · have hfits := decodeHeader_eq_some.mp hm
    rw [decode_of_fits hfits, partlyDelivered_of_fits hfits, if_neg (Nat.ne_of_gt hlong),
      decide_eq_false (Nat.not_lt_of_gt hlong)]
    rfl

/-! The entropy source. -/

/-- Settles O25: whether the answer is fixed in advance or free, it has the requested length. -/
theorem entFillAnswersExactly : Obligations.EntFillAnswersExactly := by
  intro s n
  obtain ⟨honly, hduplex, htrace, hlen⟩ := entFill_only Config.block n s
  exact ⟨hlen, htrace, honly.sponge, hduplex, honly.responses⟩

end Sys2Proof.Machine
end

section
/-! PROOFS. The invariant of the machine (spec 10_state.md R13, R16): every command keeps it and completes in it, and so
does every step (60_exceptions.md R108). -/

namespace Sys2Proof.Machine

/-! The invariant from legal registers. -/

theorem SpongeCtx.inv_of_legal {x : SpongeCtx} (h : x.legal = true) : x.Inv := by
  obtain ⟨⟨-, hr200, -⟩, hl, -⟩ := x.legal_iff.mp h
  exact ⟨by omega, by omega, fun _ => h⟩

theorem DuplexCtx.inv_of_legal {x : DuplexCtx} (h : x.legal = true) (hio : 0 < x.inputIndex → x.outputIndex = x.rate) :
    x.Inv := by
  obtain ⟨hr8, hr192, hi, ho⟩ := x.legal_bounds h
  exact ⟨by omega, by omega, by omega, fun _ => ⟨h, hio⟩⟩

/-- Legal indices at an unchanged rate are legal. -/
theorem DuplexCtx.legal_of_indices {x y : DuplexCtx} (h : x.legal = true) (hr : y.rate = x.rate)
    (hi : y.inputIndex ≤ x.rate - 1) (ho : y.outputIndex ≤ x.rate) : y.legal = true := by
  obtain ⟨hrate, -, -⟩ := x.legal_iff.mp h
  rw [← hr] at hrate hi ho
  exact y.legal_iff.mpr ⟨hrate, hi, ho⟩

/-! The sponge context. -/

theorem spongeInit_legal {rb : BitVec 16} {sf : Byte} (h : spongeInitRejects rb sf = false) :
    SpongeCtx.legal ⟨Lanes.zero, Buffer.zero, 0, rb.toNat / 8, sf, .absorbing⟩ = true := by
  simp only [spongeInitRejects, Bool.or_eq_false_iff, decide_eq_false_iff_not, not_not] at h
  obtain ⟨⟨⟨hne, hle⟩, hmod⟩, hsf⟩ := h
  simp only [SpongeCtx.legal_iff]
  exact ⟨by omega, by omega, hsf⟩

theorem updateState_legal (c : Config) (d : List Byte) {s : State} (hl : s.sponge.legal = true) :
    (if d.length = 0 then s else spongeUpdateState c d s).sponge.legal = true := by
  obtain ⟨hr, hlo, hsf⟩ := (SpongeCtx.legal_iff _).mp hl
  obtain ⟨buf, hsponge, -, -⟩ := spongeUpdateState_spec c d s (by omega) hr.2.1 hlo
  rw [hsponge]
  exact (SpongeCtx.legal_iff _).mpr ⟨hr, Nat.mod_lt _ (by omega), hsf⟩

theorem finishState_legal (c : Config) (n : Nat) {s : State} (hl : s.sponge.legal = true) :
    (squeeze c n n (absorbPadded c s)).2.sponge.legal = true := by
  obtain ⟨hr, hlo, hsf⟩ := (SpongeCtx.legal_iff _).mp hl
  obtain ⟨-, hsponge, -⟩ := squeeze_absorbPadded_spec c n s (by omega) hr.2.1 hlo
  rw [hsponge]
  exact (SpongeCtx.legal_iff _).mpr ⟨hr, hlo, hsf⟩

theorem exec_sponge_keepsInv {i : Instr} {s t : State} (hs : isSpongeCommand i = true) (hinv : s.sponge.Inv)
    (h : exec i s = .next t) : t.sponge.Inv := by
  cases i with
  | spongeInit rb sf =>
    rcases spongeInit_next h with ⟨_, rfl⟩ | ⟨hok, rfl⟩
    · exact hinv
    · exact SpongeCtx.inv_of_legal (spongeInit_legal hok)
  | spongeUpdate d =>
    rcases spongeUpdate_next h with ⟨_, rfl⟩ | ⟨_, hl, rfl⟩
    · exact hinv
    · exact SpongeCtx.inv_of_legal (updateState_legal Config.block d hl)
  | spongeFinish n =>
    rcases spongeFinish_next h with ⟨_, rfl⟩ | ⟨_, hl, rfl⟩
    · exact hinv
    · have hlegal := finishState_legal Config.block n.toNat hl
      exact SpongeCtx.inv_of_legal hlegal
  | duplexInit _ | duplexDuplex _ _ | duplexFeed _ | duplexFetch _ | duplexForget | duplexReseed => cases hs

/-! The duplex context. -/

theorem duplexInit_inv {rb : BitVec 16} (h : duplexInitRejects rb = false) :
    DuplexCtx.Inv ⟨Lanes.zero, rb.toNat / 8, 0, rb.toNat / 8, .ready⟩ := by
  simp only [duplexInitRejects, Bool.or_eq_false_iff, decide_eq_false_iff_not, not_not] at h
  obtain ⟨⟨hlt, hgt⟩, hmod⟩ := h
  refine DuplexCtx.inv_of_legal ?_ nofun
  simp only [DuplexCtx.legal_iff]
  omega

theorem fedCtx_inv (c : Config) (data : List Byte) {x : DuplexCtx} (hl : x.legal = true)
    (hio : 0 < x.inputIndex → x.outputIndex = x.rate) : (fedCtx c x data).Inv := by
  by_cases hne : data = []
  · rw [fedCtx, if_pos hne]
    exact DuplexCtx.inv_of_legal hl hio
  · obtain ⟨hr8, -⟩ := x.legal_bounds hl
    obtain ⟨hin, hout⟩ := fedCtx_indices c hl hne
    obtain ⟨hrate, -⟩ := fedCtx_frame c x data
    have hlt : (x.inputIndex + data.length - 1) % (x.rate - 1) < x.rate - 1 := Nat.mod_lt _ (by omega)
    exact DuplexCtx.inv_of_legal (DuplexCtx.legal_of_indices hl hrate (by omega) hout.le)
      fun _ => hout.trans hrate.symm

/-- A fetch of at least one byte leaves no pending input: where it permuted nothing there was none before. -/
theorem fetchBytes_inv (c : Config) (n : Nat) {x : DuplexCtx} (hl : x.legal = true)
    (hio : 0 < x.inputIndex → x.outputIndex = x.rate) : (fetchBytes c n x).2.Inv := by
  by_cases hn : n = 0
  · subst hn
    exact DuplexCtx.inv_of_legal hl hio
  · obtain ⟨hr8, -, hi, -⟩ := x.legal_bounds hl
    obtain ⟨-, hout, hin, hrate, -⟩ := fetchBytes_registers c hl hn
    have hlt : (x.outputIndex + n - 1) % x.rate < x.rate := Nat.mod_lt _ (by omega)
    have hzero : (fetchBytes c n x).2.inputIndex = 0 := by
      rw [hin]
      split
      · rename_i hnone
        rw [fetchPerms, if_neg hn, Nat.div_eq_zero_iff] at hnone
        omega
      · rfl
    exact DuplexCtx.inv_of_legal (DuplexCtx.legal_of_indices hl hrate (by omega) (by omega)) (by omega)

theorem reseedLoop_inv (c : Config) {s : State} (hl : s.duplex.legal = true) :
    (reseedLoop c (200 / s.duplex.rate) s).2.duplex.Inv := by
  obtain ⟨hr8, hr192, -⟩ := s.duplex.legal_bounds hl
  obtain ⟨honly, hmet, hfailed⟩ := reseedLoop_cases c (200 / s.duplex.rate) s (by omega)
  cases hb : (reseedLoop c (200 / s.duplex.rate) s).1 with
  | true =>
    obtain ⟨-, hindices⟩ := hmet hb
    obtain ⟨hin, hout⟩ := hindices (Nat.div_pos (by omega) (by omega))
    exact DuplexCtx.inv_of_legal (DuplexCtx.legal_of_indices hl honly.rate hin.le hout.le)
      fun _ => hout.trans honly.rate.symm
  | false =>
    obtain ⟨-, hin, hout⟩ := hfailed hb
    exact DuplexCtx.inv_of_legal (DuplexCtx.legal_of_indices_zero hl honly.rate hin hout) (by omega)

theorem exec_duplex_keepsInv {i : Instr} {s t : State} (hd : isSpongeCommand i = false) (hinv : s.duplex.Inv)
    (h : exec i s = .next t) : t.duplex.Inv := by
  obtain ⟨-, -, -, hready⟩ := id hinv
  cases i with
  | spongeInit _ _ | spongeUpdate _ | spongeFinish _ => cases hd
  | duplexInit rb =>
    rcases duplexInit_next h with ⟨_, rfl⟩ | ⟨hok, rfl⟩
    · exact hinv
    · exact duplexInit_inv hok
  | duplexDuplex x n =>
    rcases duplexDuplex_next h with ⟨_, rfl⟩ | ⟨_, _, _, _, rfl⟩ | ⟨_, hl, _, hr, rfl⟩
    · exact hinv
    · exact hinv
    · obtain ⟨-, hout⟩ : ¬x.length > s.duplex.rate - 1 ∧ ¬n.toNat > s.duplex.rate := by
        simpa [duplexDuplexRejects] using hr
      exact DuplexCtx.inv_of_legal (DuplexCtx.legal_of_indices hl rfl (Nat.zero_le _) (Nat.le_of_not_lt hout)) nofun
  | duplexFeed d =>
    rcases duplexFeed_next h with ⟨_, rfl⟩ | ⟨hp, hl, rfl⟩
    · exact hinv
    · rw [feedBytes_eq Config.block d hl]
      exact fedCtx_inv Config.block d hl (hready hp).2
  | duplexFetch n =>
    rcases duplexFetch_next h with ⟨_, rfl⟩ | ⟨hp, hl, rfl⟩
    · exact hinv
    · rw [fetchLoop_eq Config.block n.toNat hl]
      exact fetchBytes_inv Config.block n.toNat hl (hready hp).2
  | duplexForget =>
    rcases duplexForget_next h with ⟨_, rfl⟩ | ⟨_, hl, rfl⟩
    · exact hinv
    · exact DuplexCtx.inv_of_legal (DuplexCtx.legal_of_indices hl rfl (Nat.zero_le _) le_rfl) nofun
  | duplexReseed =>
    rcases duplexReseed_next h with ⟨_, rfl⟩ | ⟨_, hl, rfl⟩
    · exact hinv
    · exact reseedLoop_inv Config.block hl

/-! Every command. -/

/-- Every request of a command is one the collaborators allow: a reseed asks only a legal context's rate. -/
theorem exec_trace_wf {i : Instr} {s t : State} (hinv : s.Inv) (h : exec i s = .next t) : ∀ e ∈ t.trace, e.Wf := by
  obtain ⟨-, -, -, htrace⟩ := id hinv
  by_cases hi : i = .duplexReseed
  · subst hi
    by_cases hp : s.duplex.phase = .ready
    · obtain ⟨k, hk⟩ := reseed_trace h
      obtain ⟨hr8, hr192, -⟩ := hinv.duplex_bounds hp
      rw [hk, List.forall_mem_append]
      exact ⟨htrace, fun e => event_wf_of_mem_reseedEvents hr8 hr192⟩
    · rw [exec_misuse (i := .duplexReseed) hinv hp] at h
      cases h
      exact htrace
  · obtain ⟨k, hk⟩ := exec_trace_perms h hi
    rw [hk, List.forall_mem_append]
    exact ⟨htrace, fun e he => by rw [List.eq_of_mem_replicate he]; trivial⟩

theorem exec_keepsInv {i : Instr} {s t : State} (hinv : s.Inv) (h : exec i s = .next t) : t.Inv := by
  obtain ⟨hsponge, hduplex, hresponses, -⟩ := id hinv
  obtain ⟨r, hr, hword, -, hout⟩ := exec_answersInFormat h
  have hresponses' : ∀ r ∈ t.responses, r.Wf := by
    rw [hr, List.forall_mem_append, List.forall_mem_singleton]
    exact ⟨hresponses, hword, hout⟩
  cases hs : isSpongeCommand i with
  | true =>
    have hduplex' : t.duplex.Inv := (exec_sponge_frame hs h).1 ▸ hduplex
    exact ⟨exec_sponge_keepsInv hs hsponge h, hduplex', hresponses', exec_trace_wf hinv h⟩
  | false =>
    have hsponge' : t.sponge.Inv := (exec_duplex_frame hs h).1 ▸ hsponge
    exact ⟨hsponge', exec_duplex_keepsInv hs hduplex h, hresponses', exec_trace_wf hinv h⟩

/-- The reset event leaves the invariant, whatever the state and the free values. -/
theorem resetEvent_inv (c : Config) (s : State) : (resetEvent c s).Inv := by
  obtain ⟨hlo, hsr, hdr, hin, hout⟩ := resetEvent_widths c s
  exact ⟨⟨hlo, hsr, fun h => absurd rfl h⟩, ⟨hdr, hin, hout, nofun⟩, nofun, nofun⟩

/-- Settles O16, by what a step can do: a command keeps the invariant, the answer to an illegal header is a well-formed
response, and a reset installs values of the registers' widths. -/
theorem stepKeepsInvariant : Obligations.StepKeepsInvariant := by
  intro s t hinv h
  rcases step_next_cases h with ⟨-, rfl⟩ | ⟨m, rest, i, -, -, hexec⟩ | ⟨m, rest, -, -, rfl⟩ | ⟨u, -, rfl⟩
  · exact hinv
  · exact exec_keepsInv (s := s.setInbox rest) hinv hexec
  · obtain ⟨hsponge, hduplex, hresponses, htrace⟩ := hinv
    refine ⟨hsponge, hduplex, ?_, htrace⟩
    rw [State.respond_responses, List.forall_mem_append, List.forall_mem_singleton]
    exact ⟨hresponses, by decide⟩
  · exact resetEvent_inv Config.block u

/-! Completion. -/

/-- Within the invariant the phase check is passed or answered. -/
theorem onAbsorbing_completes {s : State} {body : State → Outcome} (hinv : s.Inv) (hbody : ∃ t, body s = .next t) :
    ∃ t, onAbsorbing s body = .next t := by
  by_cases hp : s.sponge.phase = .absorbing
  · rwa [onAbsorbing_run hp (hinv.sponge_legal (by simp [hp]))]
  · exact ⟨_, onAbsorbing_misuse hp⟩

theorem onReady_completes {s : State} {body : State → Outcome} (hinv : s.Inv) (hbody : ∃ t, body s = .next t) :
    ∃ t, onReady s body = .next t := by
  by_cases hp : s.duplex.phase = .ready
  · rwa [onReady_run hp (hinv.duplex_legal hp)]
  · exact ⟨_, onReady_misuse hp⟩

theorem exec_completes (i : Instr) {s : State} (hinv : s.Inv) : ∃ t, exec i s = .next t := by
  cases i with
  | spongeInit rb sf =>
    rw [exec_spongeInit, spongeInit]
    split <;> exact ⟨_, rfl⟩
  | spongeUpdate d =>
    rw [exec_spongeUpdate, spongeUpdate]
    refine onAbsorbing_completes hinv ?_
    split <;> exact ⟨_, rfl⟩
  | spongeFinish n =>
    rw [exec_spongeFinish, spongeFinish]
    exact onAbsorbing_completes hinv ⟨_, rfl⟩
  | duplexInit rb =>
    rw [exec_duplexInit, duplexInit]
    split <;> exact ⟨_, rfl⟩
  | duplexDuplex x n =>
    rw [exec_duplexDuplex, duplexDuplex]
    refine onReady_completes hinv ?_
    split
    · exact ⟨_, rfl⟩
    · split <;> exact ⟨_, rfl⟩
  | duplexFeed d =>
    rw [exec_duplexFeed, duplexFeed]
    exact onReady_completes hinv ⟨_, rfl⟩
  | duplexFetch n =>
    rw [exec_duplexFetch, duplexFetch]
    exact onReady_completes hinv ⟨_, rfl⟩
  | duplexForget =>
    rw [exec_duplexForget, duplexForget]
    exact onReady_completes hinv ⟨_, rfl⟩
  | duplexReseed =>
    rw [exec_duplexReseed, duplexReseed]
    refine onReady_completes hinv ?_
    split <;> exact ⟨_, rfl⟩

/-- Settles O17: within the invariant no check faults, and what completes answers once and keeps the invariant. -/
theorem everyCommandCompletes : Obligations.EveryCommandCompletes := by
  intro i s hinv
  obtain ⟨t, h⟩ := exec_completes i hinv
  obtain ⟨r, hr⟩ := exec_responses h
  exact ⟨t, r, h, hr, exec_keepsInv hinv h⟩

end Sys2Proof.Machine
end

section
/-! PROOFS. Feeds and fetches in two parts (spec 41_duplex.md R67, R69), and what `DUPLEX_FORGET` leaves no trace of
(R71). -/

namespace Sys2Proof.Machine

/-! Feeding in two parts. -/

/-- The output index is not read by feeding; a pad on the way clears it. -/
theorem feedByte_outputIndex (c : Config) (x : DuplexCtx) (o : Nat) (b : Byte) :
    ∃ o', feedByte c { x with outputIndex := o } b = { feedByte c x b with outputIndex := o' } := by
  by_cases h : x.inputIndex = x.rate - 1
  · exact ⟨0, by simp [feedByte, padCtx, h]⟩
  · exact ⟨o, by simp [feedByte, h]⟩

theorem foldl_feedByte_outputIndex (c : Config) (data : List Byte) (x : DuplexCtx) (o r : Nat) :
    { data.foldl (feedByte c) { x with outputIndex := o } with outputIndex := r } =
      { data.foldl (feedByte c) x with outputIndex := r } := by
  induction data generalizing x o with
  | nil => rfl
  | cons b bs ih =>
    obtain ⟨o', hb⟩ := feedByte_outputIndex c x o b
    rw [List.foldl_cons, List.foldl_cons, hb, ih]

theorem fedCtx_append (c : Config) (x : DuplexCtx) (a b : List Byte) :
    fedCtx c (fedCtx c x a) b = fedCtx c x (a ++ b) := by
  obtain ⟨hrate, -⟩ := fedCtx_frame c x a
  by_cases ha : a = []
  · simp [fedCtx, ha]
  · by_cases hb : b = []
    · simp [fedCtx, hb]
    · rw [fedCtx, if_neg hb, hrate]
      simp only [fedCtx, ha, List.append_eq_nil_iff, false_and, if_false]
      rw [foldl_feedByte_outputIndex, List.foldl_append]

theorem feedPerms_append (c : Config) {x : DuplexCtx} (hl : x.legal = true) (a b : List Byte) :
    feedPerms x a + feedPerms (fedCtx c x a) b = feedPerms x (a ++ b) := by
  obtain ⟨hr8, -⟩ := x.legal_bounds hl
  by_cases ha : a = []
  · simp [feedPerms, fedCtx, ha]
  · by_cases hb : b = []
    · simp [feedPerms, hb]
    · have ha0 : 0 < a.length := List.length_pos_iff.mpr ha
      obtain ⟨hin, -⟩ := fedCtx_indices c hl ha
      obtain ⟨hrate, -⟩ := fedCtx_frame c x a
      have hsecond : (x.inputIndex + a.length - 1) % (x.rate - 1) + 1 + b.length - 1 =
          (x.inputIndex + a.length - 1) % (x.rate - 1) + b.length := by omega
      have hboth : x.inputIndex + (a.length + b.length) - 1 = x.inputIndex + a.length - 1 + b.length := by omega
      simp only [feedPerms, ha, hb, List.append_eq_nil_iff, false_and, if_false, hin, hrate, List.length_append]
      rw [hsecond, hboth, div_add_rest_div _ _ (by omega)]

theorem exec_duplexFeed_ready (data : List Byte) {s : State} (hinv : s.Inv) (hp : s.duplex.phase = .ready) :
    ∃ t, exec (.duplexFeed data) s = .next t ∧ t.duplex = fedCtx Config.block s.duplex data ∧
      t.trace = s.trace ++ List.replicate (feedPerms s.duplex data) (.perm .duplex) := by
  have hl := hinv.duplex_legal hp
  refine ⟨_, duplexFeed_run hp hl, ?_⟩
  rw [feedBytes_eq Config.block data hl]
  exact ⟨rfl, rfl⟩

/-- Settles O39: feeding the second part from the fed context is feeding the concatenation, and the permutations add
up. -/
theorem feedComposes : Obligations.FeedComposes := by
  intro s a b hinv hp
  obtain ⟨t, ht, htd, htt⟩ := exec_duplexFeed_ready a hinv hp
  have htp : t.duplex.phase = .ready := by rw [htd, (fedCtx_frame _ _ _).2, hp]
  obtain ⟨u, hu, hud, hut⟩ := exec_duplexFeed_ready b (exec_keepsInv hinv ht) htp
  obtain ⟨v, hv, hvd, hvt⟩ := exec_duplexFeed_ready (a ++ b) hinv hp
  refine ⟨t, u, v, ht, hu, hv, by rw [hud, htd, fedCtx_append, hvd], ?_⟩
  rw [hut, htt, htd, hvt, List.append_assoc, List.replicate_append_replicate,
    feedPerms_append Config.block (hinv.duplex_legal hp)]

/-! Fetching in two parts. -/

theorem fetchBytes_phase (c : Config) (n : Nat) {x : DuplexCtx} (hl : x.legal = true) :
    (fetchBytes c n x).2.phase = x.phase := by
  by_cases hn : n = 0
  · rw [hn, fetchBytes]
  · obtain ⟨-, -, -, -, hphase⟩ := fetchBytes_registers c hl hn
    exact hphase

theorem fetchPerms_add (c : Config) {x : DuplexCtx} (hl : x.legal = true) (a b : Nat) :
    fetchPerms x a + fetchPerms (fetchBytes c a x).2 b = fetchPerms x (a + b) := by
  obtain ⟨hr8, -⟩ := x.legal_bounds hl
  by_cases ha : a = 0
  · simp [fetchPerms, fetchBytes, ha]
  · by_cases hb : b = 0
    · simp [fetchPerms, hb]
    · obtain ⟨-, hout, -, hrate, -⟩ := fetchBytes_registers c hl ha
      have hsecond : (x.outputIndex + a - 1) % x.rate + 1 + b - 1 = (x.outputIndex + a - 1) % x.rate + b := by omega
      have hboth : x.outputIndex + (a + b) - 1 = x.outputIndex + a - 1 + b := by omega
      simp only [fetchPerms, ha, hb, Nat.add_eq_zero_iff, false_and, if_false, hout, hrate]
      rw [hsecond, hboth, div_add_rest_div _ _ (by omega)]

theorem exec_duplexFetch_ready (n : BitVec 32) {s : State} (hinv : s.Inv) (hp : s.duplex.phase = .ready) :
    ∃ t, exec (.duplexFetch n) s = .next t ∧ t.duplex = (fetchBytes Config.block n.toNat s.duplex).2 ∧
      t.trace = s.trace ++ List.replicate (fetchPerms s.duplex n.toNat) (.perm .duplex) ∧
      t.responses = s.responses ++ [⟨0, (fetchBytes Config.block n.toNat s.duplex).1⟩] := by
  have hl := hinv.duplex_legal hp
  refine ⟨_, duplexFetch_run hp hl, ?_⟩
  rw [fetchLoop_eq Config.block n.toNat hl]
  exact ⟨rfl, rfl, rfl⟩

/-- Settles O41: fetching the second part from the context the first left is fetching the sum, and the permutations add
up. -/
theorem fetchComposes : Obligations.FetchComposes := by
  intro s a b n hinv hp hsum
  have hl := hinv.duplex_legal hp
  obtain ⟨t, ht, htd, htt, htr⟩ := exec_duplexFetch_ready a hinv hp
  have htp : t.duplex.phase = .ready := by rw [htd, fetchBytes_phase _ _ hl, hp]
  obtain ⟨u, hu, hud, hut, hur⟩ := exec_duplexFetch_ready b (exec_keepsInv hinv ht) htp
  obtain ⟨v, hv, hvd, hvt, hvr⟩ := exec_duplexFetch_ready n hinv hp
  rw [htd] at hud hut hur
  rw [← hsum, fetchBytes_add] at hvd hvr
  refine ⟨t, u, v, _, _, ht, hu, hv, ?_, hvr, hud.trans hvd.symm, ?_⟩
  · rw [hur, htr, List.append_assoc]
    rfl
  · rw [hut, htt, hvt, List.append_assoc, List.replicate_append_replicate, fetchPerms_add Config.block hl, hsum]

/-! Forgetting. -/

theorem isPadded_unique {ds : Byte} {r at_ : Nat} {A X Y : Lanes} (hX : IsPadded ds r at_ A X)
    (hY : IsPadded ds r at_ A Y) : X = Y := lanes_ext fun j hj => (hX j hj).trans (hY j hj).symm

/-- Settles O43: the bytes of the block that the second permutation takes are zero below `r - 1` and those of the first
permutation's output from there on. -/
theorem forgetErasesRateBlock : Obligations.ForgetErasesRateBlock := by
  intro s t X Y hs ht hsp htp hrate hX hY hagree
  obtain ⟨-, hresult, -⟩ := duplexForgetResult
  obtain ⟨X', W, hX', hW, hexec⟩ := hresult s hs hsp
  obtain ⟨Y', V, hY', hV, hexec'⟩ := hresult t ht htp
  obtain rfl := isPadded_unique hX hX'
  obtain rfl := isPadded_unique hY hY'
  have hWV : W = V := by
    refine lanes_ext fun j hj => ?_
    rw [hW j hj, hV j hj, ← hrate]
    by_cases hlt : j < s.duplex.rate - 1
    · rw [if_pos hlt, if_pos hlt]
    · rw [if_neg hlt, if_neg hlt, hagree j hj (Nat.le_of_not_lt hlt)]
  refine ⟨_, _, hexec, hexec', ?_⟩
  simp only [hWV, hrate, hsp, htp]

end Sys2Proof.Machine
end

section
/-! PROOFS. `DUPLEX_RESEED` where ENT meets every request (spec 41_duplex.md R72), and the reset that cuts a command
(70_reset_and_hazards.md R120(a)). -/

namespace Sys2Proof.Machine

/-- Settles O44: with as many seeds as iterations, and at least one, the loop ends in the seeded state. -/
theorem duplexReseedSucceeds : Obligations.DuplexReseedSucceeds := by
  refine ⟨rfl, fun s seeds hinv hp hlen hseeds => ?_, fun s hp => exec_wrongPhase .duplexReseed s rfl nofun (fun _ => hp)⟩
  obtain ⟨hr8, hr192, -, -⟩ := hinv.duplex_bounds hp
  have hturns : 0 < 200 / s.duplex.rate := Nat.div_pos (by omega) (by omega)
  have hne : seeds ≠ [] := by
    rintro rfl
    exact absurd hlen (Nat.ne_of_lt hturns)
  have hloop : reseedLoop Config.block (200 / s.duplex.rate) s = (true, seededState Config.block s seeds) := by
    rw [← hlen]
    exact reseedLoop_seeds Config.block 0 s seeds (by omega) hseeds
  rw [exec_duplexReseed, duplexReseed_run hp (hinv.duplex_legal hp), hloop, ← hlen, seededState, if_neg hne, if_neg hne]
  rfl

/-! Reset during a command. -/

/-- A reset that cuts a command ends in the reset event, with ENT's answers to the requests made used up. -/
theorem step_resetDuring_decoded {s t : State} {m : Message} {requests : Nat} {rest : List HostInput} {i : Instr}
    (h : s.inbox = .resetDuring m requests :: rest) (hm : decode m = .ok i) (ht : exec i (s.setInbox rest) = .next t) :
    step s = .next (resetEvent Config.block
      ((s.setInbox rest).afterRequests (entRequests (requestsMade requests (s.setInbox rest) t)))) := by
  rw [step_resetDuring h, hm]
  exact abandon_of_next ht requests

theorem entRequests_requestsMade_le (requests : Nat) (s t : State) :
    entRequests (requestsMade requests s t) ≤ requests :=
  List.countP_le_length.trans (List.length_take_le _ _)

/-- A command that is no reseed asks ENT nothing. -/
theorem entRequests_requestsMade_eq_zero {i : Instr} {s t : State} (h : exec i s = .next t) (hi : i ≠ .duplexReseed)
    (requests : Nat) : entRequests (requestsMade requests s t) = 0 := by
  obtain ⟨k, htrace⟩ := exec_trace_perms h hi
  rw [requestsMade_of_trace htrace, entRequests_perms]

/-- Settles O11: the command would have completed, so the step is the reset event after the answers to the requests
made. -/
theorem resetAbandonsCommand : Obligations.ResetAbandonsCommand := by
  intro s m requests rest i hinv h hm
  obtain ⟨t, ht⟩ := exec_completes i (s := s.setInbox rest) hinv
  exact ⟨_, _, step_resetDuring_decoded h hm ht, rfl, rfl, rfl, rfl, resetEvent_inv _ _, rfl,
    entRequests_requestsMade_le requests _ _, fun hi => entRequests_requestsMade_eq_zero ht hi requests, rfl, rfl⟩

/-- A reset that cuts a reseed which alone would have asked ENT `k` times. -/
theorem step_resetDuring_reseed {s t : State} {m : Message} {requests : Nat} {rest : List HostInput} {k : Nat}
    (h : s.inbox = .resetDuring m requests :: rest) (hm : decode m = .ok .duplexReseed)
    (ht : exec .duplexReseed (s.setInbox rest) = .next t) (htrace : t.trace = s.trace ++ reseedEvents s.duplex.rate k) :
    ∃ u, step s = .next u ∧ u.trace = [] ∧ u.entScript = (s.afterRequests (min (requests / 2) k)).entScript ∧
      u.entDraws = (s.afterRequests (min (requests / 2) k)).entDraws := by
  have hcount : entRequests (requestsMade requests (s.setInbox rest) t) = min (requests / 2) k := by
    rw [requestsMade_of_trace (s := s.setInbox rest) htrace, entRequests_take_reseedEvents]
  refine ⟨_, step_resetDuring_decoded h hm ht, rfl, ?_⟩
  rw [hcount]
  exact ⟨rfl, rfl⟩

/-- Settles O12: how often the reseed alone would have asked is what its run from the same state traced. -/
theorem resetCutsReseed : Obligations.ResetCutsReseed := by
  intro s m requests rest hinv h hm
  have hinv' : (s.setInbox rest).Inv := hinv
  obtain ⟨-, hmet, hmisuse⟩ := duplexReseedSucceeds
  refine ⟨fun hp => ?_, fun seeds hp hseeds => ⟨fun hlen => ?_, fun hlen hfail => ?_⟩⟩
  · have hnone := step_resetDuring_reseed (k := 0) h hm (hmisuse (s.setInbox rest) hp) (List.append_nil _).symm
    rwa [Nat.min_zero, State.afterRequests_zero] at hnone
  · rw [hlen]
    exact step_resetDuring_reseed h hm (hmet (s.setInbox rest) seeds hinv' hp hlen hseeds) rfl
  · obtain ⟨x, t, -, rfl, hexec, -⟩ := duplexReseedFails (s.setInbox rest) seeds hinv' hp hlen hseeds hfail
    exact step_resetDuring_reseed h hm hexec rfl

end Sys2Proof.Machine
end

section
/-! PROOFS. The message a sponge has heard, kept by every step (spec 10_state.md R13), and what is read out of it
(40_sponge.md R58, 30_encoding.md R48). -/

namespace Sys2Proof.Machine

/-! The message heard. -/

theorem heardAfter_of_duplex {i : Instr} (hd : isSpongeCommand i = false) (M : List Byte) : heardAfter i M = M := by
  cases i with
  | spongeInit _ _ | spongeUpdate _ | spongeFinish _ => cases hd
  | duplexInit _ | duplexDuplex _ _ | duplexFeed _ | duplexFetch _ | duplexForget | duplexReseed => rfl

theorem holdsMessage_of_phase_ne {M : List Byte} {x : SpongeCtx} (h : x.phase ≠ .absorbing) : HoldsMessage M x :=
  fun hp => absurd hp h

theorem State.Inv.hears {s : State} {M : List Byte} (hinv : s.Inv) (hp : s.sponge.phase = .absorbing)
    (hM : HoldsMessage M s.sponge) : Hears s.sponge.rate s.sponge.suffix M s.sponge :=
  ⟨hp, hinv.sponge_legal (by simp [hp]), rfl, rfl, hM⟩

/-- Every command keeps what an absorbing context holds of the message heard (10_state.md R13(d), (e)). -/
theorem exec_keepsMessage {i : Instr} {s t : State} {M : List Byte} (hinv : s.Inv) (hM : HoldsMessage M s.sponge)
    (h : exec i s = .next t) : HoldsMessage (heardAfter i M) t.sponge := by
  cases hs : isSpongeCommand i with
  | false =>
    rw [heardAfter_of_duplex hs, (exec_duplex_frame hs h).1]
    exact hM
  | true =>
    cases i with
    | spongeInit rb sf =>
      rcases spongeInit_next h with ⟨hbad, rfl⟩ | ⟨hok, -⟩
      · rw [heardAfter, if_pos hbad]
        exact hM
      · have hgood : ¬ConfigBad (.spongeInit rb sf) s := by
          rw [← spongeInitRejects_iff, hok]
          exact Bool.false_ne_true
        obtain ⟨t', ht', hears, -⟩ := spongeInit_hears hgood
        cases ht'.symm.trans h
        rw [heardAfter, hok]
        exact hears.message
    | spongeUpdate d =>
      by_cases hp : s.sponge.phase = .absorbing
      · obtain ⟨t', ht', hears, -⟩ := (hinv.hears hp hM).update d
        cases ht'.symm.trans h
        exact hears.message
      · rw [exec_misuse (i := .spongeUpdate d) hinv hp] at h
        cases h
        exact holdsMessage_of_phase_ne hp
    | spongeFinish n =>
      rcases spongeFinish_next h with ⟨hp, rfl⟩ | ⟨_, _, rfl⟩
      · exact holdsMessage_of_phase_ne hp
      · exact holdsMessage_of_phase_ne nofun
    | duplexInit _ | duplexDuplex _ _ | duplexFeed _ | duplexFetch _ | duplexForget | duplexReseed => cases hs

/-- Settles O32, by what a step can do: a command keeps the message, idling and an illegal header leave the context, and
after a reset no context absorbs. -/
theorem stepKeepsHeldMessage : Obligations.StepKeepsHeldMessage := by
  intro s t M hinv hM h
  rcases step_next_cases h with ⟨hq, rfl⟩ | ⟨m, rest, i, hq, hm, hexec⟩ | ⟨m, rest, hq, hm, rfl⟩ | ⟨u, -, rfl⟩
  · rw [hq]
    exact hM
  · simp only [hq, heardFrom, hm]
    exact exec_keepsMessage (s := s.setInbox rest) hinv hM hexec
  · simp only [hq, heardFrom, hm]
    exact hM
  · exact holdsMessage_of_phase_ne nofun

/-! Squeezing a shorter and a longer output. -/

theorem length_squeezed (P : Lanes → Lanes) {r : Nat} (T : Lanes) (n : Nat) (hr : 0 < r) :
    (squeezed P r T n).length = n := by
  induction n using Nat.strong_induction_on generalizing T with
  | _ n ih =>
    by_cases hn : n ≤ r
    · rw [squeezed_short P T hn, length_readRun]
    · rw [squeezed_long P T hr (by omega), List.length_append, length_readRun, ih (n - r) (by omega)]
      omega

/-- A longer output begins with the shorter one (40_sponge.md R58). -/
theorem take_squeezed (P : Lanes → Lanes) {r : Nat} (T : Lanes) {m n : Nat} (hr : 0 < r) (hmn : m ≤ n) :
    (squeezed P r T n).take m = squeezed P r T m := by
  induction m using Nat.strong_induction_on generalizing T n with
  | _ m ih =>
    by_cases hm : m ≤ r
    · rw [squeezed_short P T hm]
      by_cases hn : n ≤ r
      · rw [squeezed_short P T hn, readRun_take _ _ _ _ hmn]
      · rw [squeezed_long P T hr (by omega), List.take_append_of_le_length (by rwa [length_readRun]),
          readRun_take _ _ _ _ hm]
    · rw [squeezed_long P T hr (n := n) (by omega), squeezed_long P T hr (n := m) (by omega), List.take_append,
        length_readRun, List.take_of_length_le (by rw [length_readRun]; omega),
        ih (m - r) (by omega) (P T) (by omega)]

/-- Settles O33: both outputs are squeezed from the lanes of one padded block. -/
theorem xofPrefix : Obligations.XofPrefix := by
  intro s m n hinv hp hmn
  obtain ⟨⟨hr8, -, -⟩, -⟩ := (SpongeCtx.legal_iff _).mp (hinv.sponge_legal (by simp [hp]))
  have hr : 0 < s.sponge.rate := by omega
  obtain ⟨-, hfinish, -⟩ := spongeFinishResult
  obtain ⟨B, T, buf, rfl, -, rfl, -, hm⟩ := hfinish s m hinv hp
  obtain ⟨B', T', buf', rfl, -, rfl, -, hn⟩ := hfinish s n hinv hp
  exact ⟨_, _, _, _, hm, rfl, hn, rfl, length_squeezed _ _ _ hr, length_squeezed _ _ _ hr,
    (take_squeezed _ _ hr (Nat.le_of_lt hmn)).symm⟩

/-! The pseudo-commands (30_encoding.md R48). -/

theorem spongeInit_answersOk {rb : BitVec 16} {sf : Byte} {s t : State} (hok : ¬ConfigBad (.spongeInit rb sf) s)
    (h : exec (.spongeInit rb sf) s = .next t) : t.responses = s.responses ++ [⟨0, []⟩] := by
  cases (spongeInit_accepted s hok).symm.trans h
  rfl

theorem Hears.update_answersOk {r : Nat} {suffix : Byte} {M data : List Byte} {s t : State}
    (hears : Hears r suffix M s.sponge) (h : exec (.spongeUpdate data) s = .next t) :
    t.responses = s.responses ++ [⟨0, []⟩] := by
  cases (spongeUpdate_run hears.phase hears.legal).symm.trans h
  exact congrArg (· ++ _) (onlySponge_update Config.block data s).responses

/-- The three commands of a hash pseudo-command compute the sponge function (40_sponge.md R57). -/
theorem execAll_hash {rb : BitVec 16} {sf : Byte} (s : State) (M : List Byte) (n : BitVec 32)
    (hok : ¬ConfigBad (.spongeInit rb sf) s) :
    ∃ u, execAll [.spongeInit rb sf, .spongeUpdate M, .spongeFinish n] s = .next u ∧
      u.responses =
        s.responses ++ [⟨0, []⟩, ⟨0, []⟩, ⟨0, spongeZ Config.block.perm (rb.toNat / 8) sf M n.toNat⟩] := by
  obtain ⟨s₁, h₁, hears, -⟩ := spongeInit_hears hok
  obtain ⟨s₂, h₂, hears', -⟩ := hears.update M
  obtain ⟨u, h₃, hout⟩ := hears'.finish n
  refine ⟨u, ?_, ?_⟩
  · rw [execAll_cons_of_next _ h₁, execAll_cons_of_next _ h₂, execAll_cons_of_next _ h₃, execAll]
  · rw [hout, hears.update_answersOk h₂, spongeInit_answersOk hok h₁]
    simp

/-- Settles O54: the parameters of each hash pass the operand check, whose state plays no part. -/
theorem hashPseudoCommands : Obligations.HashPseudoCommands := by
  intro s M n
  have h136 : ¬ConfigBad (.spongeInit 1088 0x06) s := by simp [ConfigBad]
  have h72 : ¬ConfigBad (.spongeInit 576 0x06) s := by simp [ConfigBad]
  have h104 : ¬ConfigBad (.spongeInit 832 0x06) s := by simp [ConfigBad]
  have h168 : ¬ConfigBad (.spongeInit 1344 0x1F) s := by simp [ConfigBad]
  have h136x : ¬ConfigBad (.spongeInit 1088 0x1F) s := by simp [ConfigBad]
  exact ⟨execAll_hash s M 32 h136, execAll_hash s M 64 h72, execAll_hash s M 48 h104, execAll_hash s M n h168,
    execAll_hash s M n h136x⟩

/-- Settles O53: each wipe is an init, which zeroes its context and asks no collaborator. -/
theorem wipeClearsBothContexts : Obligations.WipeClearsBothContexts := by
  intro s
  have hsponge := execAll_cons_of_next (i := .spongeInit 64 0) (s := s) [.duplexInit 64]
    (spongeInit_accepted (rb := 64) (sf := 0) s (by simp [ConfigBad]))
  have hduplex (u : State) := execAll_cons_of_next (i := .duplexInit 64) (s := u) []
    (duplexInit_accepted (rb := 64) u (by simp [ConfigBad]))
  exact ⟨_, hsponge.trans (hduplex _), fun i _ => ⟨laneAt_zero i, laneAt_zero i⟩, fun j _ => bufByte_zero j,
    rfl, rfl, rfl, rfl, rfl, rfl, rfl, rfl, rfl⟩

end Sys2Proof.Machine
end

section
/-! PROOFS. The capacity bytes (spec 20_memory.md R26): what a command leaves that asks for no permutation. -/

namespace Sys2Proof.Machine

theorem append_replicate_eq_self {tr : List Event} {k : Nat} {e : Event} (h : tr ++ List.replicate k e = tr) : k = 0 := by
  simpa using h

/-- A sponge command that is no init and permutes nothing leaves every lane: what it heard fits in the buffer. -/
theorem exec_sponge_lanes {i : Instr} {s t : State} (hs : isSpongeCommand i = true) (hi : isInitCommand i = false)
    (h : exec i s = .next t) (htrace : t.trace = s.trace) : t.sponge.A = s.sponge.A := by
  cases i with
  | spongeInit _ _ => cases hi
  | spongeUpdate d =>
    rcases spongeUpdate_next h with ⟨_, rfl⟩ | ⟨_, hl, rfl⟩
    · rfl
    · obtain ⟨⟨hr8, hr200, -⟩, hlo, -⟩ := (SpongeCtx.legal_iff _).mp hl
      obtain ⟨_, hsponge, htr, -⟩ := spongeUpdateState_spec Config.block d s (by omega) hr200 hlo
      have hnone := append_replicate_eq_self (htr.symm.trans htrace)
      have hshort : s.sponge.leftover + d.length < s.sponge.rate := (Nat.div_eq_zero_iff_lt (by omega)).mp hnone
      rw [State.respond_sponge, hsponge]
      exact absorbAll_short _ _ (by rwa [List.length_append, length_readBuf])
  | spongeFinish n =>
    rcases spongeFinish_next h with ⟨_, rfl⟩ | ⟨_, hl, rfl⟩
    · rfl
    · obtain ⟨⟨hr8, hr200, -⟩, hlo, -⟩ := (SpongeCtx.legal_iff _).mp hl
      obtain ⟨-, -, htr⟩ := squeeze_absorbPadded_spec Config.block n.toNat s (by omega) hr200 hlo
      have hnone := append_replicate_eq_self (htr.symm.trans htrace)
      omega
  | duplexInit _ | duplexDuplex _ _ | duplexFeed _ | duplexFetch _ | duplexForget | duplexReseed => cases hs

/-- A feed that permutes nothing writes below the last byte of the rate block (41_duplex.md R66). -/
theorem stateByte_fedCtx (c : Config) {data : List Byte} {x : DuplexCtx} (hl : x.legal = true)
    (hnone : feedPerms x data = 0) {j : Nat} (hj : x.rate ≤ j) : stateByte (fedCtx c x data).A j = stateByte x.A j := by
  obtain ⟨hr8, hr192, hi, -⟩ := x.legal_bounds hl
  by_cases hd : data = []
  · rw [fedCtx, if_pos hd]
  · rw [feedPerms, if_neg hd, Nat.div_eq_zero_iff_lt (by omega)] at hnone
    have hroom : x.inputIndex + data.length ≤ x.rate - 1 := by omega
    rw [fedCtx, if_neg hd, foldl_feedByte_room c data x hroom, stateByte_xorRun _ _ _ _ (by omega), if_neg (by omega)]
    exact BitVec.xor_zero

/-- A fetch that permutes nothing reads only (41_duplex.md R68). -/
theorem fetchBytes_lanes (c : Config) {n : Nat} {x : DuplexCtx} (hl : x.legal = true) (hnone : fetchPerms x n = 0) :
    (fetchBytes c n x).2.A = x.A := by
  obtain ⟨hr8, -, -, ho⟩ := x.legal_bounds hl
  by_cases hn : n = 0
  · rw [hn, fetchBytes]
  · rw [fetchPerms, if_neg hn, Nat.div_eq_zero_iff_lt (by omega)] at hnone
    rw [fetchBytes_room c n x (by omega)]

theorem append_reseedEvents_ne_self (tr : List Event) (r : Nat) {k : Nat} (hk : 1 ≤ k) :
    tr ++ reseedEvents r k ≠ tr := by
  obtain ⟨j, rfl⟩ : ∃ j, k = j + 1 := ⟨k - 1, by omega⟩
  simp [reseedEvents, List.replicate_succ]

/-- A reseed on a legal context permutes at least once (41_duplex.md R73). -/
theorem reseedLoop_trace_ne (c : Config) {s : State} (hl : s.duplex.legal = true) :
    (reseedLoop c (200 / s.duplex.rate) s).2.trace ≠ s.trace := by
  obtain ⟨hr8, hr192, -⟩ := s.duplex.legal_bounds hl
  obtain ⟨-, hmet, hfailed⟩ := reseedLoop_cases c (200 / s.duplex.rate) s (by omega)
  cases hb : (reseedLoop c (200 / s.duplex.rate) s).1 with
  | true =>
    rw [(hmet hb).1]
    exact append_reseedEvents_ne_self _ _ (Nat.div_pos (by omega) (by omega))
  | false =>
    obtain ⟨⟨k, hk, -, htr⟩, -⟩ := hfailed hb
    rw [htr]
    exact append_reseedEvents_ne_self _ _ hk

/-- A duplex command that is no init and permutes nothing leaves the capacity bytes. -/
theorem exec_duplex_capacity {i : Instr} {s t : State} (hd : isSpongeCommand i = false) (hi : isInitCommand i = false)
    (h : exec i s = .next t) (htrace : t.trace = s.trace) {j : Nat} (hj : s.duplex.rate ≤ j) :
    stateByte t.duplex.A j = stateByte s.duplex.A j := by
  cases i with
  | spongeInit _ _ | spongeUpdate _ | spongeFinish _ => cases hd
  | duplexInit _ => cases hi
  | duplexDuplex x n =>
    rcases duplexDuplex_next h with ⟨_, rfl⟩ | ⟨_, _, _, _, rfl⟩ | ⟨_, _, _, _, rfl⟩
    · rfl
    · rfl
    · simp at htrace
  | duplexFeed d =>
    rcases duplexFeed_next h with ⟨_, rfl⟩ | ⟨_, hl, rfl⟩
    · rfl
    · rw [feedBytes_eq Config.block d hl] at htrace ⊢
      exact stateByte_fedCtx Config.block hl (append_replicate_eq_self htrace) hj
  | duplexFetch n =>
    rcases duplexFetch_next h with ⟨_, rfl⟩ | ⟨_, hl, rfl⟩
    · rfl
    · rw [fetchLoop_eq Config.block n.toNat hl] at htrace ⊢
      rw [← fetchBytes_lanes Config.block hl (append_replicate_eq_self htrace)]
      rfl
  | duplexForget =>
    rcases duplexForget_next h with ⟨_, rfl⟩ | ⟨_, _, rfl⟩
    · rfl
    · rw [State.respond_trace, forget_trace] at htrace
      simp at htrace
  | duplexReseed =>
    rcases duplexReseed_next h with ⟨_, rfl⟩ | ⟨_, hl, rfl⟩
    · rfl
    · exact absurd htrace (reseedLoop_trace_ne Config.block hl)

/-- Settles O50: the command's own context by the two lemmas above, the other one by the frame. -/
theorem capacityUntouchedWithoutPermute : Obligations.CapacityUntouchedWithoutPermute := by
  intro i s t _ hi h htrace
  cases hs : isSpongeCommand i with
  | true =>
    have hlanes := exec_sponge_lanes hs hi h htrace
    obtain ⟨hduplex, -⟩ := exec_sponge_frame hs h
    exact ⟨fun _ j _ _ => by rw [hlanes], fun _ j _ _ => by rw [hduplex]⟩
  | false =>
    obtain ⟨hsponge, -⟩ := exec_duplex_frame hs h
    exact ⟨fun _ j _ _ => by rw [hsponge], fun _ j _ hj => exec_duplex_capacity hs hi h htrace hj⟩

end Sys2Proof.Machine
end

section
/-! PROOFS. The context each command leaves, as a function of its own context and the entropy answers (spec 40_sponge.md
R53, R55, 41_duplex.md R64, R70, R72). -/

namespace Sys2Proof.Machine

/-! The Sponge Engine. -/

/-- Byte `j` of the buffer once `data` has been taken: the new leftover, then the top-up, then stale bytes (40_sponge.md
R53). -/
def updatedByte (x : SpongeCtx) (data : List Byte) (j : Nat) : Byte :=
  if j < (x.leftover + data.length) % x.rate then
    (readBuf x.buf x.leftover ++ data).getD ((x.leftover + data.length) / x.rate * x.rate + j) 0
  else if 0 < x.leftover ∧ x.leftover ≤ j ∧ j < x.rate ∧ j < x.leftover + data.length then data.getD (j - x.leftover) 0
  else bufByte x.buf j

/-- The sponge context after `SPONGE_UPDATE <data>`. -/
def updatedCtx (c : Config) (x : SpongeCtx) (data : List Byte) : SpongeCtx :=
  { x with
    A := absorbAll c.perm x.rate x.A (readBuf x.buf x.leftover ++ data)
    buf := Vector.ofFn fun j : Fin 200 => updatedByte x data j
    leftover := (x.leftover + data.length) % x.rate }

theorem bufByte_ofFn (f : Nat → Byte) {j : Nat} (hj : j < 200) : bufByte (Vector.ofFn fun k : Fin 200 => f k) j = f j := by
  simp [bufByte, hj]

theorem spongeUpdate_eq (c : Config) (data : List Byte) {s : State} (hp : s.sponge.phase = .absorbing)
    (hl : s.sponge.legal = true) :
    spongeUpdate c data s =
      .next (({ s with
        sponge := updatedCtx c s.sponge data
        trace := s.trace ++ List.replicate ((s.sponge.leftover + data.length) / s.sponge.rate) (.perm .sponge) } :
          State).respond ⟨Status.ok.word, []⟩) := by
  obtain ⟨⟨hr8, hr200, -⟩, hlo, -⟩ := (SpongeCtx.legal_iff _).mp hl
  obtain ⟨buf, hsponge, htrace, hbuf⟩ := spongeUpdateState_spec c data s (by omega) hr200 hlo
  obtain rfl : buf = Vector.ofFn fun j : Fin 200 => updatedByte s.sponge data j :=
    buffer_ext fun j hj => (hbuf j hj).trans (bufByte_ofFn (updatedByte s.sponge data) hj).symm
  rw [spongeUpdate_run hp hl, (onlySponge_update c data s).eq_of_sponge_trace hsponge htrace]
  rfl

/-- The sponge context after `SPONGE_FINISH n`. -/
def finishedCtx (c : Config) (x : SpongeCtx) (n : Nat) : SpongeCtx :=
  { x with
    A := c.perm^[outBlocks x.rate n - 1] (paddedLanes c.perm x)
    buf := padBuffer x
    phase := .finished }

theorem spongeFinish_eq (c : Config) (n : Nat) {s : State} (hp : s.sponge.phase = .absorbing)
    (hl : s.sponge.legal = true) :
    spongeFinish c n s =
      .next (({ s with
        sponge := finishedCtx c s.sponge n
        trace := s.trace ++ List.replicate (max 1 (outBlocks s.sponge.rate n)) (.perm .sponge) } : State).respond
          ⟨Status.ok.word, squeezed c.perm s.sponge.rate (paddedLanes c.perm s.sponge) n⟩) := by
  obtain ⟨⟨hr8, hr200, -⟩, hlo, -⟩ := (SpongeCtx.legal_iff _).mp hl
  obtain ⟨hout, hsponge, htrace⟩ := squeeze_absorbPadded_spec c n s (by omega) hr200 hlo
  rw [spongeFinish_run hp hl, hout, (onlySponge_squeeze_absorbPadded c n s).eq_of_sponge_trace hsponge htrace]
  rfl

/-! The Duplex Engine. -/

theorem duplexFeed_eq (c : Config) (data : List Byte) {s : State} (hp : s.duplex.phase = .ready)
    (hl : s.duplex.legal = true) :
    duplexFeed c data s =
      .next (({ s with
        duplex := fedCtx c s.duplex data
        trace := s.trace ++ List.replicate (feedPerms s.duplex data) (.perm .duplex) } : State).respond
          ⟨Status.ok.word, []⟩) := by
  rw [duplexFeed_run hp hl, feedBytes_eq c data hl]

theorem duplexFetch_eq (c : Config) (n : Nat) {s : State} (hp : s.duplex.phase = .ready)
    (hl : s.duplex.legal = true) :
    duplexFetch c n s =
      .next (({ s with
        duplex := (fetchBytes c n s.duplex).2
        trace := s.trace ++ List.replicate (fetchPerms s.duplex n) (.perm .duplex) } : State).respond
          ⟨Status.ok.word, (fetchBytes c n s.duplex).1⟩) := by
  rw [duplexFetch_run hp hl, fetchLoop_eq c n hl]

/-- The duplex context after the turn of `DUPLEX_DUPLEX` (41_duplex.md R64). -/
def turnedCtx (c : Config) (x : DuplexCtx) (input : List Byte) (outlen : Nat) : DuplexCtx :=
  { x with
    A := c.perm (padXor c x.rate input.length (xorRun x.A 0 input))
    inputIndex := 0
    outputIndex := outlen }

theorem duplexDuplex_eq (c : Config) {input : List Byte} {n : Nat} {s : State} (hp : s.duplex.phase = .ready)
    (hl : s.duplex.legal = true) (hi : s.duplex.inputIndex = 0)
    (hr : duplexDuplexRejects s.duplex.rate input.length n = false) :
    duplexDuplex c input n s =
      .next (({ s with
        duplex := turnedCtx c s.duplex input n
        trace := s.trace ++ [.perm .duplex] } : State).respond
          ⟨Status.ok.word, readRun (turnedCtx c s.duplex input n).A 0 n⟩) := duplexDuplex_run hp hl hi hr

/-- The duplex context after `DUPLEX_FORGET` (41_duplex.md R70): pad and permute, wipe, pad and permute. -/
def forgottenCtx (c : Config) (x : DuplexCtx) : DuplexCtx :=
  { padCtx c
      { padCtx c x with A := zeroRun (padCtx c x).A (x.rate - 1), inputIndex := x.rate - 1 } with
    outputIndex := x.rate }

theorem duplexForget_eq (c : Config) {s : State} (hp : s.duplex.phase = .ready) (hl : s.duplex.legal = true) :
    duplexForget c s =
      .next (({ s with
        duplex := forgottenCtx c s.duplex
        trace := s.trace ++ [.perm .duplex, .perm .duplex] } : State).respond ⟨Status.ok.word, []⟩) := by
  rw [duplexForget_run hp hl, (onlyDuplex_forget c s).eq_of_duplex_trace rfl (forget_trace c s)]
  rfl

/-! `DUPLEX_RESEED`: how many of its requests ENT meets, and with what. -/

/-- Of `iters` coming requests for `n` bytes ENT meets all, or some first ones and not the next. -/
theorem exists_met_requests (c : Config) (s : State) (n iters : Nat) :
    ∃ m, (∀ k < m, (entAnswer c s n k).isSome = true) ∧
      (m = iters ∨ m < iters ∧ (entAnswer c s n m).isSome = false) := by
  induction iters with
  | zero => exact ⟨0, nofun, .inl rfl⟩
  | succ iters ih =>
    obtain ⟨m, hmet, rfl | ⟨hlt, hnone⟩⟩ := ih
    · cases hnext : (entAnswer c s n m).isSome with
      | true =>
        refine ⟨m + 1, fun k hk => ?_, .inl rfl⟩
        rcases Nat.lt_succ_iff_lt_or_eq.mp hk with h | rfl
        · exact hmet k h
        · exact hnext
      | false => exact ⟨m, hmet, .inr ⟨Nat.lt_succ_self m, hnext⟩⟩
    · exact ⟨m, hmet, .inr ⟨Nat.lt_succ_of_lt hlt, hnone⟩⟩

/-- The seeds ENT gives to the next `m` requests, all of which it meets. -/
def seedsGiven (c : Config) (s : State) (n m : Nat) : List (List Byte) :=
  (List.range m).map fun k => (entAnswer c s n k).getD []

@[simp] theorem length_seedsGiven (c : Config) (s : State) (n m : Nat) : (seedsGiven c s n m).length = m := by
  simp [seedsGiven]

theorem entAnswer_eq_seedsGiven {c : Config} {s : State} {n m : Nat} (h : ∀ k < m, (entAnswer c s n k).isSome = true) :
    ∀ k < (seedsGiven c s n m).length, entAnswer c s n k = some ((seedsGiven c s n m).getD k []) := by
  intro k hk
  rw [length_seedsGiven] at hk
  obtain ⟨e, he⟩ := Option.isSome_iff_exists.mp (h k hk)
  simp [seedsGiven, hk, he]

/-- The state left when the request after the first `m` fails (41_duplex.md R74). -/
def failedState (c : Config) (s : State) (seeds : List (List Byte)) : State :=
  { s.afterRequests (seeds.length + 1) with
    duplex := padCtx c (seededState c s seeds).duplex
    trace := s.trace ++ reseedEvents s.duplex.rate (seeds.length + 1) }

/-- A reseed on a legal context whose requests are all met (41_duplex.md R72). -/
theorem duplexReseed_met (c : Config) {s : State} (hp : s.duplex.phase = .ready) (hl : s.duplex.legal = true)
    (hmet : ∀ k < 200 / s.duplex.rate, (entAnswer c s (s.duplex.rate - 1) k).isSome = true) :
    duplexReseed c s =
      .next ((seededState c s (seedsGiven c s (s.duplex.rate - 1) (200 / s.duplex.rate))).respond
        ⟨Status.ok.word, []⟩) := by
  obtain ⟨hr8, -⟩ := s.duplex.legal_bounds hl
  have hloop := reseedLoop_seeds c 0 s _ (by omega) (entAnswer_eq_seedsGiven hmet)
  rw [length_seedsGiven, Nat.add_zero] at hloop
  rw [duplexReseed_run hp hl, hloop]
  rfl

/-- A reseed on a legal context one of whose requests, after the first `m`, is not met (41_duplex.md R74). -/
theorem duplexReseed_unmet (c : Config) {s : State} {m : Nat} (hp : s.duplex.phase = .ready)
    (hl : s.duplex.legal = true) (hmet : ∀ k < m, (entAnswer c s (s.duplex.rate - 1) k).isSome = true)
    (hlt : m < 200 / s.duplex.rate) (hnone : (entAnswer c s (s.duplex.rate - 1) m).isSome = false) :
    duplexReseed c s =
      .next ((failedState c s (seedsGiven c s (s.duplex.rate - 1) m)).respond ⟨Status.errEntropy.word, []⟩) := by
  obtain ⟨hr8, -⟩ := s.duplex.legal_bounds hl
  have hfail : entAnswer c s (s.duplex.rate - 1) (seedsGiven c s (s.duplex.rate - 1) m).length = none := by
    simpa using hnone
  rw [duplexReseed_run hp hl,
    reseedLoop_fails c (by omega) (by rwa [length_seedsGiven]) (entAnswer_eq_seedsGiven hmet) hfail]
  rfl

end Sys2Proof.Machine
end

section
/-! PROOFS. Two runs side by side: what is needed of two states for a command on each to give related answers and the same
requests, command by command. Of a relation `R` between the states left, only what it says of the command's own context
remains to be shown. -/

namespace Sys2Proof.Machine

/-- `o` and `o'` are what two commands answer in `s` and in `t`. Where the first completes, so does the second; the
states they leave are related by `R`, their responses by `Q`, and they made the same requests. -/
def Lockstep (R : State → State → Prop) (Q : Response → Response → Prop) (s t : State) (o o' : Outcome) : Prop :=
  ∀ s', o = .next s' →
    ∃ (t' : State) (q r : Response) (ev : List Event), o' = .next t' ∧ R s' t' ∧ Q q r ∧
      s'.responses = s.responses ++ [q] ∧ t'.responses = t.responses ++ [r] ∧
      s'.trace = s.trace ++ ev ∧ t'.trace = t.trace ++ ev

/-! What the commands read to decide what they do. -/

/-- Two sponge contexts with the same phase and, while absorbing, the same rate, leftover and suffix. -/
def SpongeCtx.SameRegisters (x y : SpongeCtx) : Prop :=
  x.phase = y.phase ∧
    (x.phase = .absorbing → x.rate = y.rate ∧ x.leftover = y.leftover ∧ x.suffix = y.suffix)

theorem SpongeCtx.SameRegisters.legal_eq {x y : SpongeCtx} (h : x.SameRegisters y) (hp : x.phase = .absorbing) :
    x.legal = y.legal := by
  obtain ⟨hrate, hlo, hsf⟩ := h.2 hp
  rw [SpongeCtx.legal, SpongeCtx.legal, hrate, hlo, hsf]

/-- Two duplex contexts with the same phase, rate and indices. -/
def DuplexCtx.SameRegisters (x y : DuplexCtx) : Prop :=
  x.phase = y.phase ∧ x.rate = y.rate ∧ x.inputIndex = y.inputIndex ∧ x.outputIndex = y.outputIndex

theorem DuplexCtx.SameRegisters.legal_eq {x y : DuplexCtx} (h : x.SameRegisters y) : x.legal = y.legal := by
  obtain ⟨-, hrate, hin, hout⟩ := h
  rw [DuplexCtx.legal, DuplexCtx.legal, hrate, hin, hout]

theorem DuplexCtx.SameRegisters.feedPerms_eq {x y : DuplexCtx} (h : x.SameRegisters y) {d e : List Byte}
    (hlen : d.length = e.length) : feedPerms x d = feedPerms y e := by
  obtain ⟨-, hrate, hin, -⟩ := h
  simp only [feedPerms, ← List.length_eq_zero_iff, hrate, hin, hlen]

theorem DuplexCtx.SameRegisters.fetchPerms_eq {x y : DuplexCtx} (h : x.SameRegisters y) (n : Nat) :
    fetchPerms x n = fetchPerms y n := by
  obtain ⟨-, hrate, -, hout⟩ := h
  simp only [fetchPerms, hrate, hout]

/-! The commands. -/

section

variable {R : State → State → Prop} {Q : Response → Response → Prop} {s t : State}

theorem lockstep_respond {u v : State} {q r : Response} {ev : List Event} (hR : R (u.respond q) (v.respond r))
    (hQ : Q q r) (hu : u.responses = s.responses) (hv : v.responses = t.responses) (hut : u.trace = s.trace ++ ev)
    (hvt : v.trace = t.trace ++ ev) : Lockstep R Q s t (.next (u.respond q)) (.next (v.respond r)) := by
  rintro _ ⟨⟩
  exact ⟨_, q, r, ev, rfl, hR, hQ, congrArg (· ++ _) hu, congrArg (· ++ _) hv, hut, hvt⟩

theorem Lockstep.mono {R' : State → State → Prop} {o o' : Outcome} (h : Lockstep R Q s t o o')
    (hR : ∀ s' t', R s' t' → R' s' t') : Lockstep R' Q s t o o' := by
  intro s' ho
  obtain ⟨t', q, r, ev, ho', hst, hrest⟩ := h s' ho
  exact ⟨t', q, r, ev, ho', hR s' t' hst, hrest⟩

/-! The relation is kept by a response to both, and a response is related to itself: so much holds of every `R` and `Q`
below, and settles the commands that fail. -/

variable (hst : ∀ q, R (s.respond q) (t.respond q)) (hQ : ∀ q, Q q q)

include hst hQ

/-- Two commands that fail with the same response. -/
theorem lockstep_fail (q : Response) :
    Lockstep R Q s t (.next (s.respond q)) (.next (t.respond q)) :=
  lockstep_respond (hst q) (hQ q) rfl rfl (List.append_nil _).symm (List.append_nil _).symm

/-! The Sponge Engine. -/

theorem lockstep_onAbsorbing {body body' : State → Outcome} (hreg : s.sponge.SameRegisters t.sponge)
    (hrun : s.sponge.phase = .absorbing → t.sponge.phase = .absorbing → s.sponge.legal = true → t.sponge.legal = true →
      Lockstep R Q s t (onAbsorbing s body) (onAbsorbing t body')) :
    Lockstep R Q s t (onAbsorbing s body) (onAbsorbing t body') := by
  intro s' h
  rcases onAbsorbing_cases h with ⟨hp, ho⟩ | ⟨hp, hl, -⟩ | ⟨_, _, ho⟩
  · rw [onAbsorbing_misuse (hreg.1 ▸ hp)]
    exact lockstep_fail hst hQ _ s' ho.symm
  · exact hrun hp (hreg.1 ▸ hp) hl (hreg.legal_eq hp ▸ hl) s' h
  · cases ho

theorem lockstep_spongeInit {rb : BitVec 16} {sf : Byte}
    (hok : ∀ x q, R ((s.setSponge x).respond q) ((t.setSponge x).respond q)) :
    Lockstep R Q s t (spongeInit rb sf s) (spongeInit rb sf t) := by
  by_cases hbad : ConfigBad (.spongeInit rb sf) s
  · rw [spongeInit_rejected s hbad, spongeInit_rejected t hbad]
    exact lockstep_fail hst hQ _
  · rw [spongeInit_accepted s hbad, spongeInit_accepted t hbad]
    exact lockstep_respond (hok _ _) (hQ _) rfl rfl (List.append_nil _).symm (List.append_nil _).symm

theorem lockstep_spongeUpdate {c : Config} {d e : List Byte} (hreg : s.sponge.SameRegisters t.sponge)
    (hlen : d.length = e.length)
    (hrun : s.sponge.phase = .absorbing → s.sponge.legal = true → ∀ tr tr' q,
      R (({ s with sponge := updatedCtx c s.sponge d, trace := tr } : State).respond q)
        (({ t with sponge := updatedCtx c t.sponge e, trace := tr' } : State).respond q)) :
    Lockstep R Q s t (spongeUpdate c d s) (spongeUpdate c e t) := by
  refine lockstep_onAbsorbing hst hQ hreg fun hp hp' hl hl' => ?_
  change Lockstep R Q s t (spongeUpdate c d s) (spongeUpdate c e t)
  obtain ⟨hrate, hlo, -⟩ := hreg.2 hp
  rw [spongeUpdate_eq c d hp hl, spongeUpdate_eq c e hp' hl', hrate, hlo, hlen]
  exact lockstep_respond (hrun hp hl _ _ _) (hQ _) rfl rfl rfl rfl

theorem lockstep_spongeFinish {c : Config} {n : Nat} (hreg : s.sponge.SameRegisters t.sponge)
    (hrun : s.sponge.phase = .absorbing → ∀ tr tr' q r,
      R (({ s with sponge := finishedCtx c s.sponge n, trace := tr } : State).respond q)
        (({ t with sponge := finishedCtx c t.sponge n, trace := tr' } : State).respond r))
    (hout : s.sponge.phase = .absorbing → s.sponge.legal = true →
      Q ⟨Status.ok.word, squeezed c.perm s.sponge.rate (paddedLanes c.perm s.sponge) n⟩
        ⟨Status.ok.word, squeezed c.perm t.sponge.rate (paddedLanes c.perm t.sponge) n⟩) :
    Lockstep R Q s t (spongeFinish c n s) (spongeFinish c n t) := by
  refine lockstep_onAbsorbing hst hQ hreg fun hp hp' hl hl' => ?_
  change Lockstep R Q s t (spongeFinish c n s) (spongeFinish c n t)
  obtain ⟨hrate, -, -⟩ := hreg.2 hp
  rw [spongeFinish_eq c n hp hl, spongeFinish_eq c n hp' hl']
  exact lockstep_respond (hrun hp _ _ _ _) (hout hp hl) rfl rfl rfl (by rw [hrate])

/-! The Duplex Engine. -/

theorem lockstep_onReady {body body' : State → Outcome} (hreg : s.duplex.SameRegisters t.duplex)
    (hrun : s.duplex.phase = .ready → t.duplex.phase = .ready → s.duplex.legal = true → t.duplex.legal = true →
      Lockstep R Q s t (onReady s body) (onReady t body')) :
    Lockstep R Q s t (onReady s body) (onReady t body') := by
  intro s' h
  rcases onReady_cases h with ⟨hp, ho⟩ | ⟨hp, hl, -⟩ | ⟨_, _, ho⟩
  · rw [onReady_misuse (hreg.1 ▸ hp)]
    exact lockstep_fail hst hQ _ s' ho.symm
  · exact hrun hp (hreg.1 ▸ hp) hl (hreg.legal_eq ▸ hl) s' h
  · cases ho

theorem lockstep_duplexInit {rb : BitVec 16}
    (hok : ∀ x q, R ((s.setDuplex x).respond q) ((t.setDuplex x).respond q)) :
    Lockstep R Q s t (duplexInit rb s) (duplexInit rb t) := by
  by_cases hbad : ConfigBad (.duplexInit rb) s
  · rw [duplexInit_rejected s hbad, duplexInit_rejected t hbad]
    exact lockstep_fail hst hQ _
  · rw [duplexInit_accepted s hbad, duplexInit_accepted t hbad]
    exact lockstep_respond (hok _ _) (hQ _) rfl rfl (List.append_nil _).symm (List.append_nil _).symm

/-- The checks of `DUPLEX_DUPLEX` read the registers and the lengths alone. -/
theorem lockstep_duplexDuplex {c : Config} {d e : List Byte} {n : Nat} (hreg : s.duplex.SameRegisters t.duplex)
    (hlen : d.length = e.length)
    (hrun : ∀ tr tr' q r, R (({ s with duplex := turnedCtx c s.duplex d n, trace := tr } : State).respond q)
      (({ t with duplex := turnedCtx c t.duplex e n, trace := tr' } : State).respond r))
    (hout : Q ⟨Status.ok.word, readRun (turnedCtx c s.duplex d n).A 0 n⟩
      ⟨Status.ok.word, readRun (turnedCtx c t.duplex e n).A 0 n⟩) :
    Lockstep R Q s t (duplexDuplex c d n s) (duplexDuplex c e n t) := by
  refine lockstep_onReady hst hQ hreg fun hp hp' hl hl' => ?_
  change Lockstep R Q s t (duplexDuplex c d n s) (duplexDuplex c e n t)
  obtain ⟨-, hrate, hin, -⟩ := hreg
  by_cases hi : s.duplex.inputIndex = 0
  · cases hr : duplexDuplexRejects s.duplex.rate d.length n with
    | true =>
      rw [duplexDuplex_rejected hp hl hi hr, duplexDuplex_rejected hp' hl' (hin ▸ hi) (by rw [← hrate, ← hlen, hr])]
      exact lockstep_fail hst hQ _
    | false =>
      rw [duplexDuplex_eq c hp hl hi hr, duplexDuplex_eq c hp' hl' (hin ▸ hi) (by rw [← hrate, ← hlen, hr])]
      exact lockstep_respond (hrun _ _ _ _) hout rfl rfl rfl rfl
  · rw [duplexDuplex_pending hp hl hi, duplexDuplex_pending hp' hl' (hin ▸ hi)]
    exact lockstep_fail hst hQ _

theorem lockstep_duplexFeed {c : Config} {d e : List Byte} (hreg : s.duplex.SameRegisters t.duplex)
    (hlen : d.length = e.length)
    (hrun : s.duplex.legal = true → t.duplex.legal = true → ∀ tr tr' q,
      R (({ s with duplex := fedCtx c s.duplex d, trace := tr } : State).respond q)
        (({ t with duplex := fedCtx c t.duplex e, trace := tr' } : State).respond q)) :
    Lockstep R Q s t (duplexFeed c d s) (duplexFeed c e t) := by
  refine lockstep_onReady hst hQ hreg fun hp hp' hl hl' => ?_
  change Lockstep R Q s t (duplexFeed c d s) (duplexFeed c e t)
  rw [duplexFeed_eq c d hp hl, duplexFeed_eq c e hp' hl', hreg.feedPerms_eq hlen]
  exact lockstep_respond (hrun hl hl' _ _ _) (hQ _) rfl rfl rfl rfl

theorem lockstep_duplexFetch {c : Config} {n : Nat} (hreg : s.duplex.SameRegisters t.duplex)
    (hrun : s.duplex.legal = true → t.duplex.legal = true → ∀ tr tr' q r,
      R (({ s with duplex := (fetchBytes c n s.duplex).2, trace := tr } : State).respond q)
        (({ t with duplex := (fetchBytes c n t.duplex).2, trace := tr' } : State).respond r))
    (hout : s.duplex.legal = true → t.duplex.legal = true →
      Q ⟨Status.ok.word, (fetchBytes c n s.duplex).1⟩ ⟨Status.ok.word, (fetchBytes c n t.duplex).1⟩) :
    Lockstep R Q s t (duplexFetch c n s) (duplexFetch c n t) := by
  refine lockstep_onReady hst hQ hreg fun hp hp' hl hl' => ?_
  change Lockstep R Q s t (duplexFetch c n s) (duplexFetch c n t)
  rw [duplexFetch_eq c n hp hl, duplexFetch_eq c n hp' hl', hreg.fetchPerms_eq n]
  exact lockstep_respond (hrun hl hl' _ _ _ _) (hout hl hl') rfl rfl rfl rfl

theorem lockstep_duplexForget {c : Config} (hreg : s.duplex.SameRegisters t.duplex)
    (hrun : ∀ tr tr' q, R (({ s with duplex := forgottenCtx c s.duplex, trace := tr } : State).respond q)
      (({ t with duplex := forgottenCtx c t.duplex, trace := tr' } : State).respond q)) :
    Lockstep R Q s t (duplexForget c s) (duplexForget c t) := by
  refine lockstep_onReady hst hQ hreg fun hp hp' hl hl' => ?_
  change Lockstep R Q s t (duplexForget c s) (duplexForget c t)
  rw [duplexForget_eq c hp hl, duplexForget_eq c hp' hl']
  exact lockstep_respond (hrun _ _ _) (hQ _) rfl rfl rfl rfl

/-- A reseed branches on which requests are met, and on no seed. -/
theorem lockstep_duplexReseed {c : Config} (hreg : s.duplex.SameRegisters t.duplex)
    (hmet : ∀ n k, (entAnswer c s n k).isSome = (entAnswer c t n k).isSome)
    (hseeded : ∀ m q, R ((seededState c s (seedsGiven c s (s.duplex.rate - 1) m)).respond q)
      ((seededState c t (seedsGiven c t (s.duplex.rate - 1) m)).respond q))
    (hfailed : ∀ m q, R ((failedState c s (seedsGiven c s (s.duplex.rate - 1) m)).respond q)
      ((failedState c t (seedsGiven c t (s.duplex.rate - 1) m)).respond q)) :
    Lockstep R Q s t (duplexReseed c s) (duplexReseed c t) := by
  refine lockstep_onReady hst hQ hreg fun hp hp' hl hl' => ?_
  change Lockstep R Q s t (duplexReseed c s) (duplexReseed c t)
  obtain ⟨-, hrate, -, -⟩ := hreg
  obtain ⟨m, hsome, hend⟩ := exists_met_requests c s (s.duplex.rate - 1) (200 / s.duplex.rate)
  have hsome' : ∀ k < m, (entAnswer c t (t.duplex.rate - 1) k).isSome = true := by simpa only [hmet, hrate] using hsome
  rcases hend with rfl | ⟨hlt, hnone⟩
  · rw [duplexReseed_met c hp hl hsome, duplexReseed_met c hp' hl' (by rwa [← hrate] at hsome' ⊢), ← hrate]
    exact lockstep_respond (hseeded _ _) (hQ _) rfl rfl rfl (by simp [seededState, hrate])
  · have hnone' : (entAnswer c t (t.duplex.rate - 1) m).isSome = false := by rwa [← hmet, ← hrate]
    rw [duplexReseed_unmet c hp hl hsome hlt hnone, duplexReseed_unmet c hp' hl' hsome' (hrate ▸ hlt) hnone', ← hrate]
    exact lockstep_respond (hfailed _ _) (hQ _) rfl rfl rfl (by simp [failedState, hrate])

end

end Sys2Proof.Machine
end

section
/-! PROOFS. The two engines do not influence each other (spec 20_memory.md R34): a command run on two states that agree
on its own context gives the same in both. -/

namespace Sys2Proof.Machine

theorem SpongeCtx.SameRegisters.of_eq {x y : SpongeCtx} (h : x = y) : x.SameRegisters y := by
  subst h
  exact ⟨rfl, fun _ => ⟨rfl, rfl, rfl⟩⟩

theorem DuplexCtx.SameRegisters.of_eq {x y : DuplexCtx} (h : x = y) : x.SameRegisters y := by
  subst h
  exact ⟨rfl, rfl, rfl, rfl⟩

/-- The sponge contexts are equal; all else may differ. -/
def SameSponge (s t : State) : Prop := s.sponge = t.sponge

/-- The duplex contexts and the entropy answers to come are equal; all else may differ. -/
def SameDuplex (s t : State) : Prop := s.duplex = t.duplex ∧ s.entScript = t.entScript ∧ s.entDraws = t.entDraws

theorem exec_sponge_independent {i : Instr} {s t : State} (hi : isSpongeCommand i = true) (h : SameSponge s t) :
    Lockstep SameSponge Eq s t (exec i s) (exec i t) := by
  have hreg : s.sponge.SameRegisters t.sponge := .of_eq h
  have hst : ∀ q, SameSponge (s.respond q) (t.respond q) := fun _ => h
  cases i with
  | spongeInit rb sf => exact lockstep_spongeInit hst (fun _ => rfl) fun _ _ => rfl
  | spongeUpdate d =>
    exact lockstep_spongeUpdate hst (fun _ => rfl) hreg rfl
      fun _ _ _ _ _ => congrArg (updatedCtx Config.block · d) h
  | spongeFinish n =>
    exact lockstep_spongeFinish hst (fun _ => rfl) hreg
      (fun _ _ _ _ _ => congrArg (finishedCtx Config.block · n.toNat) h)
      fun _ _ => by rw [show s.sponge = t.sponge from h]
  | duplexInit _ | duplexDuplex _ _ | duplexFeed _ | duplexFetch _ | duplexForget | duplexReseed => cases hi

theorem SameDuplex.afterRequests {s t : State} (h : SameDuplex s t) (k : Nat) :
    SameDuplex (s.afterRequests k) (t.afterRequests k) := by
  obtain ⟨hduplex, hscript, hdraws⟩ := h
  exact ⟨hduplex, by simp [hscript], by simp [hscript, hdraws]⟩

theorem SameDuplex.entAnswer_eq {s t : State} (h : SameDuplex s t) (c : Config) (n k : Nat) :
    entAnswer c s n k = entAnswer c t n k := by
  obtain ⟨-, hscript, hdraws⟩ := h
  rw [entAnswer, entAnswer, hscript, hdraws]

theorem SameDuplex.seededState {s t : State} (h : SameDuplex s t) (c : Config) (seeds : List (List Byte)) :
    SameDuplex (seededState c s seeds) (seededState c t seeds) := by
  refine ⟨?_, (h.afterRequests seeds.length).2⟩
  simp only [Machine.seededState, h.1]

theorem SameDuplex.failedState {s t : State} (h : SameDuplex s t) (c : Config) (seeds : List (List Byte)) :
    SameDuplex (failedState c s seeds) (failedState c t seeds) :=
  ⟨congrArg (padCtx c) (h.seededState c seeds).1, (h.afterRequests (seeds.length + 1)).2⟩

theorem exec_duplex_independent {i : Instr} {s t : State} (hi : isSpongeCommand i = false) (h : SameDuplex s t) :
    Lockstep SameDuplex Eq s t (exec i s) (exec i t) := by
  obtain ⟨hduplex, hent⟩ := id h
  have hreg : s.duplex.SameRegisters t.duplex := .of_eq hduplex
  have hst : ∀ q, SameDuplex (s.respond q) (t.respond q) := fun _ => h
  cases i with
  | spongeInit _ _ | spongeUpdate _ | spongeFinish _ => cases hi
  | duplexInit rb => exact lockstep_duplexInit hst (fun _ => rfl) fun _ _ => ⟨rfl, hent⟩
  | duplexDuplex x n =>
    exact lockstep_duplexDuplex hst (fun _ => rfl) hreg rfl
      (fun _ _ _ _ => ⟨congrArg (turnedCtx Config.block · x n.toNat) hduplex, hent⟩) (by rw [hduplex])
  | duplexFeed d =>
    exact lockstep_duplexFeed hst (fun _ => rfl) hreg rfl
      fun _ _ _ _ _ => ⟨congrArg (fedCtx Config.block · d) hduplex, hent⟩
  | duplexFetch n =>
    exact lockstep_duplexFetch hst (fun _ => rfl) hreg
      (fun _ _ _ _ _ _ => ⟨congrArg (fun x => (fetchBytes Config.block n.toNat x).2) hduplex, hent⟩)
      fun _ _ => by rw [hduplex]
  | duplexForget =>
    exact lockstep_duplexForget hst (fun _ => rfl) hreg
      fun _ _ _ => ⟨congrArg (forgottenCtx Config.block) hduplex, hent⟩
  | duplexReseed =>
    have hgiven : ∀ n m, seedsGiven Config.block s n m = seedsGiven Config.block t n m := fun n m => by
      simp only [seedsGiven, h.entAnswer_eq]
    refine lockstep_duplexReseed hst (fun _ => rfl) hreg (fun n k => by rw [h.entAnswer_eq])
      (fun m q => ?_) (fun m q => ?_) <;> rw [hgiven]
    · exact h.seededState Config.block _
    · exact h.failedState Config.block _

/-- Settles O47: in each engine every command is a function of its own context and, for the duplex, of the entropy
answers to come. -/
theorem enginesIndependent : Obligations.EnginesIndependent := by
  intro i s t s' h hexec
  cases hi : isSpongeCommand i with
  | true =>
    rw [if_pos hi] at h
    obtain ⟨t', q, r, ev, ht', hR, rfl, hrest⟩ := exec_sponge_independent hi h s' hexec
    obtain ⟨hs, ht, hse, hte⟩ := hrest
    exact ⟨t', q, ev, ht', hs, ht, hse, hte, hR⟩
  | false =>
    rw [if_neg (by simp [hi])] at h
    obtain ⟨t', q, r, ev, ht', hR, rfl, hrest⟩ := exec_duplex_independent hi h s' hexec
    obtain ⟨hs, ht, hse, hte⟩ := hrest
    exact ⟨t', q, ev, ht', hs, ht, hse, hte, hR⟩

end Sys2Proof.Machine
end

section
/-! PROOFS. What no response depends on (spec 70_reset_and_hazards.md R120(c), 40_sponge.md R56, 10_state.md R20(a)): the
registers of an uninitialised engine, a finished sponge, and stale buffer bytes. -/

namespace Sys2Proof.Machine

/-! The relation `Agree` by engine. -/

/-- The part of `Agree` about the sponge: the phase and, while absorbing, all but the stale buffer bytes. -/
def AgreeSponge (s t : State) : Prop :=
  s.sponge.phase = t.sponge.phase ∧
    (s.sponge.phase = .absorbing →
      s.sponge.A = t.sponge.A ∧ s.sponge.leftover = t.sponge.leftover ∧ s.sponge.rate = t.sponge.rate ∧
      s.sponge.suffix = t.sponge.suffix ∧ ∀ j < s.sponge.leftover, bufByte s.sponge.buf j = bufByte t.sponge.buf j)

/-- The part of `Agree` about the duplex and the entropy source. -/
def AgreeDuplex (s t : State) : Prop :=
  s.duplex.phase = t.duplex.phase ∧ (s.duplex.phase = .ready → s.duplex = t.duplex) ∧
    s.entScript = t.entScript ∧ s.entDraws = t.entDraws

theorem agree_iff {s t : State} :
    Agree s t ↔ AgreeSponge s t ∧ AgreeDuplex s t ∧ s.trace = t.trace ∧ s.responses = t.responses ∧
      s.inbox = t.inbox ∧ s.resetDraws = t.resetDraws := by
  constructor
  · rintro ⟨hsp, hs, hdp, hd, htrace, hresponses, hinbox, hscript, hdraws, hresets⟩
    exact ⟨⟨hsp, hs⟩, ⟨hdp, hd, hscript, hdraws⟩, htrace, hresponses, hinbox, hresets⟩
  · rintro ⟨⟨hsp, hs⟩, ⟨hdp, hd, hscript, hdraws⟩, htrace, hresponses, hinbox, hresets⟩
    exact ⟨hsp, hs, hdp, hd, htrace, hresponses, hinbox, hscript, hdraws, hresets⟩

/-! The sponge commands. -/

theorem readBuf_congr {a b : Buffer} {k : Nat} (h : ∀ j < k, bufByte a j = bufByte b j) : readBuf a k = readBuf b k :=
  List.map_congr_left fun j hj => h j (List.mem_range.mp hj)

theorem AgreeSponge.sameRegisters {s t : State} (h : AgreeSponge s t) : s.sponge.SameRegisters t.sponge := by
  refine ⟨h.1, fun hp => ?_⟩
  obtain ⟨-, hlo, hrate, hsf, -⟩ := h.2 hp
  exact ⟨hrate, hlo, hsf⟩

/-- Below the leftover an update leaves the bytes of what the context had heard and the payload. -/
theorem bufByte_updatedCtx (c : Config) (x : SpongeCtx) (data : List Byte) {j : Nat}
    (hj : j < (updatedCtx c x data).leftover) (h200 : j < 200) :
    bufByte (updatedCtx c x data).buf j =
      (readBuf x.buf x.leftover ++ data).getD ((x.leftover + data.length) / x.rate * x.rate + j) 0 :=
  (bufByte_ofFn (updatedByte x data) h200).trans (if_pos hj)

/-- The sponge commands read nothing of the sponge context beyond what `AgreeSponge` fixes. -/
theorem exec_sponge_agree {i : Instr} {s t : State} (hi : isSpongeCommand i = true) (h : AgreeSponge s t) :
    Lockstep AgreeSponge Eq s t (exec i s) (exec i t) := by
  have hreg := h.sameRegisters
  have hst : ∀ q, AgreeSponge (s.respond q) (t.respond q) := fun _ => h
  have hread : s.sponge.phase = .absorbing →
      readBuf s.sponge.buf s.sponge.leftover = readBuf t.sponge.buf t.sponge.leftover := fun hp => by
    obtain ⟨-, hlo, -, -, hbuf⟩ := h.2 hp
    rw [readBuf_congr hbuf, hlo]
  cases i with
  | spongeInit rb sf =>
    exact lockstep_spongeInit hst (fun _ => rfl) fun _ _ => ⟨rfl, fun _ => ⟨rfl, rfl, rfl, rfl, fun _ _ => rfl⟩⟩
  | spongeUpdate d =>
    refine lockstep_spongeUpdate hst (fun _ => rfl) hreg rfl fun hp hl _ _ _ => ⟨h.1, fun _ => ?_⟩
    obtain ⟨hA, hlo, hrate, hsf, -⟩ := h.2 hp
    obtain ⟨⟨hr8, hr200, -⟩, -⟩ := (SpongeCtx.legal_iff _).mp hl
    have hleftover : (updatedCtx Config.block s.sponge d).leftover = (updatedCtx Config.block t.sponge d).leftover := by
      simp only [updatedCtx, hlo, hrate]
    have hlt : (updatedCtx Config.block s.sponge d).leftover < s.sponge.rate := Nat.mod_lt _ (by omega)
    refine ⟨?_, hleftover, hrate, hsf, fun j hj => ?_⟩
    · show absorbAll _ _ _ _ = absorbAll _ _ _ _
      rw [hread hp, hA, hrate]
    · change j < (updatedCtx Config.block s.sponge d).leftover at hj
      show bufByte (updatedCtx Config.block s.sponge d).buf j = bufByte (updatedCtx Config.block t.sponge d).buf j
      rw [bufByte_updatedCtx _ _ _ hj (by omega), bufByte_updatedCtx _ _ _ (hleftover ▸ hj) (by omega), hread hp, hlo,
        hrate]
  | spongeFinish n =>
    refine lockstep_spongeFinish hst (fun _ => rfl) hreg (fun _ _ _ _ _ => ⟨rfl, nofun⟩) fun hp _ => ?_
    obtain ⟨hA, -, hrate, hsf, -⟩ := h.2 hp
    rw [paddedLanes, paddedLanes, hread hp, hA, hrate, hsf]
  | duplexInit _ | duplexDuplex _ _ | duplexFeed _ | duplexFetch _ | duplexForget | duplexReseed => cases hi

/-! The duplex commands. -/

/-- A ready context is fixed by `AgreeDuplex`; on an uninitialised one only the init does more than fail. -/
theorem exec_duplex_agree {i : Instr} {s t : State} (hi : isSpongeCommand i = false) (h : AgreeDuplex s t) :
    Lockstep AgreeDuplex Eq s t (exec i s) (exec i t) := by
  obtain ⟨hphase, hready, hent⟩ := id h
  have hst : ∀ q, AgreeDuplex (s.respond q) (t.respond q) := fun _ => h
  by_cases hp : s.duplex.phase = .ready
  · exact (exec_duplex_independent hi ⟨hready hp, hent⟩).mono
      fun s' t' ⟨hduplex, hent'⟩ => ⟨congrArg DuplexCtx.phase hduplex, fun _ => hduplex, hent'⟩
  · cases hinit : isInitCommand i with
    | false =>
      rw [exec_wrongPhase i s hinit (by simp [hi]) (fun _ => hp),
        exec_wrongPhase i t hinit (by simp [hi]) (fun _ => hphase ▸ hp)]
      exact lockstep_fail hst (fun _ => rfl) _
    | true =>
      cases i with
      | duplexInit rb => exact lockstep_duplexInit hst (fun _ => rfl) fun _ _ => ⟨rfl, fun _ => rfl, hent⟩
      | spongeInit _ _ => cases hi
      | spongeUpdate _ | spongeFinish _ | duplexDuplex _ _ | duplexFeed _ | duplexFetch _ | duplexForget
      | duplexReseed => cases hinit

theorem exec_agree {i : Instr} {s t s' : State} (h : Agree s t) (hexec : exec i s = .next s') :
    ∃ t', exec i t = .next t' ∧ Agree s' t' := by
  obtain ⟨hsponge, hduplex, htrace, hresponses, hinbox, hresets⟩ := agree_iff.mp h
  have henv : ∀ {t'}, exec i t = .next t' → s'.inbox = t'.inbox ∧ s'.resetDraws = t'.resetDraws := fun ht' => by
    obtain ⟨hsq, hsr⟩ := exec_environment hexec
    obtain ⟨htq, htr⟩ := exec_environment ht'
    exact ⟨by rw [hsq, htq, hinbox], by rw [hsr, htr, hresets]⟩
  cases hi : isSpongeCommand i with
  | true =>
    obtain ⟨t', q, _, ev, ht', hR, rfl, hrs, hrt, hes, het⟩ := exec_sponge_agree hi hsponge s' hexec
    obtain ⟨hsd, hss, hsn, -⟩ := exec_sponge_frame hi hexec
    obtain ⟨htd, hts, htn, -⟩ := exec_sponge_frame hi ht'
    have hduplex' : AgreeDuplex s' t' := by
      rw [AgreeDuplex, hsd, hss, hsn, htd, hts, htn]
      exact hduplex
    exact ⟨t', ht', agree_iff.mpr ⟨hR, hduplex', by rw [hes, het, htrace], by rw [hrs, hrt, hresponses], henv ht'⟩⟩
  | false =>
    obtain ⟨t', q, _, ev, ht', hR, rfl, hrs, hrt, hes, het⟩ := exec_duplex_agree hi hduplex s' hexec
    have hsponge' : AgreeSponge s' t' := by
      rw [AgreeSponge, (exec_duplex_frame hi hexec).1, (exec_duplex_frame hi ht').1]
      exact hsponge
    exact ⟨t', ht', agree_iff.mpr ⟨hsponge', hR, by rw [hes, het, htrace], by rw [hrs, hrt, hresponses], henv ht'⟩⟩

/-! The step. -/

theorem Agree.setInbox {s t : State} (h : Agree s t) (rest : List HostInput) :
    Agree (s.setInbox rest) (t.setInbox rest) := by
  obtain ⟨hsponge, hduplex, htrace, hresponses, -, hresets⟩ := agree_iff.mp h
  exact agree_iff.mpr ⟨hsponge, hduplex, htrace, hresponses, rfl, hresets⟩

theorem Agree.respond {s t : State} (h : Agree s t) (q : Response) : Agree (s.respond q) (t.respond q) := by
  obtain ⟨hsponge, hduplex, htrace, hresponses, hinbox, hresets⟩ := agree_iff.mp h
  exact agree_iff.mpr ⟨hsponge, hduplex, htrace, congrArg (· ++ [q]) hresponses, hinbox, hresets⟩

theorem Agree.afterRequests {s t : State} (h : Agree s t) (k : Nat) :
    Agree (s.afterRequests k) (t.afterRequests k) := by
  obtain ⟨hsponge, ⟨hdp, hd, hscript, hdraws⟩, hrest⟩ := agree_iff.mp h
  exact agree_iff.mpr ⟨hsponge, ⟨hdp, hd, by simp [hscript], by simp [hscript, hdraws]⟩, hrest⟩

/-- After a reset event both engines are uninitialised, and the free values come from the same counter. -/
theorem Agree.resetEvent {s t : State} (h : Agree s t) (c : Config) : Agree (resetEvent c s) (resetEvent c t) := by
  obtain ⟨-, ⟨-, -, hscript, hdraws⟩, -, -, hinbox, hresets⟩ := agree_iff.mp h
  exact agree_iff.mpr ⟨⟨rfl, nofun⟩, ⟨rfl, nofun, hscript, hdraws⟩, rfl, rfl, hinbox, congrArg (· + 1) hresets⟩

theorem abandon_agree {i : Instr} {requests : Nat} {s t s' : State} (h : Agree s t)
    (hs : abandon i requests s = .next s') : ∃ t', abandon i requests t = .next t' ∧ Agree s' t' := by
  obtain ⟨u, hu, rfl⟩ := abandon_next hs
  obtain ⟨v, hv, huv⟩ := exec_agree h hu
  have hmade : requestsMade requests s u = requestsMade requests t v := by
    obtain ⟨-, -, htrace, -⟩ := agree_iff.mp h
    obtain ⟨-, -, htrace', -⟩ := agree_iff.mp huv
    rw [requestsMade, requestsMade, htrace, htrace']
  refine ⟨_, abandon_of_next hv requests, ?_⟩
  rw [hmade]
  exact (h.afterRequests _).resetEvent Config.block

/-- Settles O51: both steps take the same input; a command keeps the relation by its engine, and a reset event makes
both engines uninitialised. -/
theorem unspecifiedRegistersUnobservable : Obligations.UnspecifiedRegistersUnobservable := by
  intro s t s' h hs
  obtain ⟨-, -, -, -, hinbox, -⟩ := agree_iff.mp h
  cases hq : s.inbox with
  | nil =>
    rw [step_idle hq] at hs
    cases hs
    exact ⟨t, step_idle (hinbox ▸ hq), h⟩
  | cons input rest =>
    have hq' : t.inbox = input :: rest := hinbox ▸ hq
    have hrest := h.setInbox rest
    cases input with
    | command m =>
      rw [step_command hq] at hs
      rw [step_command hq']
      cases hm : decode m with
      | ok i => exact exec_agree hrest (by simpa only [hm] using hs)
      | error e =>
        rw [hm] at hs
        cases e with
        | illegal =>
          cases hs
          exact ⟨_, rfl, hrest.respond _⟩
        | payloadLength => cases hs
    | reset =>
      rw [step_reset hq] at hs
      cases hs
      exact ⟨_, step_reset hq', hrest.resetEvent Config.block⟩
    | resetDuring m requests =>
      rw [step_resetDuring hq] at hs
      rw [step_resetDuring hq']
      cases hm : decode m with
      | ok i => exact abandon_agree hrest (by simpa only [hm] using hs)
      | error e =>
        rw [hm] at hs
        cases e with
        | illegal =>
          cases hs
          exact ⟨_, rfl, hrest.resetEvent Config.block⟩
        | payloadLength =>
          dsimp only at hs ⊢
          split at hs <;> cases hs
          exact ⟨_, if_pos ‹_›, hrest.resetEvent Config.block⟩

end Sys2Proof.Machine
end

section
/-! PROOFS. No command branches on data (spec 70_reset_and_hazards.md R136): commands of the same shape run from states
with the same control state give the same status, output length, requests and control state. -/

namespace Sys2Proof.Machine

/-! The entropy answers: only their success counts. -/

theorem EntAnswer.SameShape.isSome_forRequest {a b : EntAnswer} (h : a.SameShape b) (n : Nat) :
    (a.forRequest n).isSome = (b.forRequest n).isSome := by
  cases a with
  | fail =>
    cases b with
    | fail => rfl
    | ok _ => exact h.elim
  | ok x =>
    cases b with
    | fail => exact h.elim
    | ok y =>
      have hlen : x.length = y.length := h
      by_cases hn : y.length = n <;> simp [EntAnswer.forRequest, hlen, hn]

theorem getElem?_sameShape {as bs : List EntAnswer} (h : List.Forall₂ EntAnswer.SameShape as bs) (k : Nat) :
    (as[k]? = none ∧ bs[k]? = none) ∨ ∃ a b, as[k]? = some a ∧ bs[k]? = some b ∧ a.SameShape b := by
  induction h generalizing k with
  | nil => exact .inl ⟨rfl, rfl⟩
  | cons hab _ ih =>
    cases k with
    | zero => exact .inr ⟨_, _, rfl, rfl, hab⟩
    | succ k => simpa using ih k

/-! The relation `SameControl` by engine. -/

theorem SameControl.sponge {s t : State} (h : SameControl s t) : s.sponge.SameRegisters t.sponge := by
  obtain ⟨hp, hlo, hrate, hsf, -⟩ := h
  exact ⟨hp, fun _ => ⟨hrate, hlo, hsf⟩⟩

theorem SameControl.duplex {s t : State} (h : SameControl s t) : s.duplex.SameRegisters t.duplex := by
  obtain ⟨-, -, -, -, hp, hrate, hin, hout, -⟩ := h
  exact ⟨hp, hrate, hin, hout⟩

theorem SameControl.isSome_entAnswer {s t : State} (h : SameControl s t) (c : Config) (n k : Nat) :
    (entAnswer c s n k).isSome = (entAnswer c t n k).isSome := by
  obtain ⟨-, -, -, -, -, -, -, -, hscript, hdraws⟩ := h
  rw [entAnswer, entAnswer]
  rcases getElem?_sameShape hscript k with ⟨ha, hb⟩ | ⟨a, b, ha, hb, hab⟩
  · rw [ha, hb, hdraws, hscript.length_eq]
  · rw [ha, hb]
    exact hab.isSome_forRequest n

/-- A duplex command without entropy keeps the control state when it keeps the registers alike. -/
theorem SameControl.setDuplex {s t : State} (h : SameControl s t) {x y : DuplexCtx} (hxy : x.SameRegisters y) :
    SameControl (s.setDuplex x) (t.setDuplex y) := by
  obtain ⟨hsp, hlo, hsr, hsf, -, -, -, -, hent⟩ := h
  obtain ⟨hp, hrate, hin, hout⟩ := hxy
  exact ⟨hsp, hlo, hsr, hsf, hp, hrate, hin, hout, hent⟩

theorem SameControl.afterRequests {s t : State} (h : SameControl s t) {j k : Nat} (hjk : j = k) :
    SameControl (s.afterRequests j) (t.afterRequests k) := by
  subst hjk
  obtain ⟨hsp, hlo, hsr, hsf, hp, hrate, hin, hout, hscript, hdraws⟩ := h
  exact ⟨hsp, hlo, hsr, hsf, hp, hrate, hin, hout, List.forall₂_drop j hscript, by
    rw [State.afterRequests_entDraws, State.afterRequests_entDraws, hdraws, hscript.length_eq]⟩

/-! The registers each duplex command leaves. -/

theorem DuplexCtx.SameRegisters.fedCtx {x y : DuplexCtx} (h : x.SameRegisters y) (c : Config) {d e : List Byte}
    (hlen : d.length = e.length) (hl : x.legal = true) : (fedCtx c x d).SameRegisters (fedCtx c y e) := by
  have hl' : y.legal = true := h.legal_eq ▸ hl
  obtain ⟨hp, hrate, hin, hout⟩ := h
  obtain ⟨hxr, hxp⟩ := fedCtx_frame c x d
  obtain ⟨hyr, hyp⟩ := fedCtx_frame c y e
  refine ⟨by rw [hxp, hyp, hp], by rw [hxr, hyr, hrate], ?_⟩
  by_cases hd : d = []
  · have he : e = [] := List.length_eq_zero_iff.mp (by rw [← hlen, hd, List.length_nil])
    rw [Machine.fedCtx, if_pos hd, Machine.fedCtx, if_pos he]
    exact ⟨hin, hout⟩
  · have he : e ≠ [] := fun he => hd (List.length_eq_zero_iff.mp (by rw [hlen, he, List.length_nil]))
    obtain ⟨hxi, hxo⟩ := fedCtx_indices c hl hd
    obtain ⟨hyi, hyo⟩ := fedCtx_indices c hl' he
    exact ⟨by rw [hxi, hyi, hin, hlen, hrate], by rw [hxo, hyo, hrate]⟩

theorem DuplexCtx.SameRegisters.fetchBytes {x y : DuplexCtx} (h : x.SameRegisters y) (c : Config) (n : Nat)
    (hl : x.legal = true) :
    (fetchBytes c n x).2.SameRegisters (fetchBytes c n y).2 ∧
      (fetchBytes c n x).1.length = (fetchBytes c n y).1.length := by
  by_cases hn : n = 0
  · subst hn
    exact ⟨h, rfl⟩
  · obtain ⟨hxl, hxo, hxi, hxr, hxp⟩ := fetchBytes_registers c hl hn
    obtain ⟨hyl, hyo, hyi, hyr, hyp⟩ := fetchBytes_registers c (h.legal_eq ▸ hl : y.legal = true) hn
    have hperms := h.fetchPerms_eq n
    obtain ⟨hp, hrate, hin, hout⟩ := h
    exact ⟨⟨by rw [hxp, hyp, hp], by rw [hxr, hyr, hrate], by rw [hxi, hyi, hperms, hin],
      by rw [hxo, hyo, hout, hrate]⟩, by rw [hxl, hyl]⟩

/-- The control state after the requests that are met depends on their number alone. -/
theorem SameControl.seededState {s t : State} (h : SameControl s t) (c : Config) {es fs : List (List Byte)}
    (hlen : es.length = fs.length) : SameControl (seededState c s es) (seededState c t fs) := by
  obtain ⟨hp, hrate, hin, hout⟩ := h.duplex
  have hregisters : (Machine.seededState c s es).duplex.SameRegisters (Machine.seededState c t fs).duplex := by
    simp only [DuplexCtx.SameRegisters, Machine.seededState, ← List.length_eq_zero_iff, hlen, hp, hrate, hin, hout,
      and_self]
  exact (h.afterRequests hlen).setDuplex hregisters

theorem SameControl.failedState {s t : State} (h : SameControl s t) (c : Config) {es fs : List (List Byte)}
    (hlen : es.length = fs.length) : SameControl (failedState c s es) (failedState c t fs) := by
  obtain ⟨hp, hrate, -, -⟩ := (h.seededState c hlen).duplex
  exact (h.afterRequests (congrArg (· + 1) hlen)).setDuplex ⟨hp, hrate, rfl, rfl⟩

/-! The commands. -/

/-- Two responses with the same status and as many output bytes. -/
def SameForm (q r : Response) : Prop := q.word = r.word ∧ q.out.length = r.out.length

theorem exec_sameControl {i j : Instr} {s t : State} (hij : SameShape i j) (h : SameControl s t) :
    Lockstep SameControl SameForm s t (exec i s) (exec j t) := by
  have hst : ∀ q, SameControl (s.respond q) (t.respond q) := fun _ => h
  have hQ : ∀ q, SameForm q q := fun _ => ⟨rfl, rfl⟩
  obtain ⟨hsp, hlo, hrate, hsf, hduplex⟩ := id h
  obtain ⟨hdp, hdr, -, -⟩ := h.duplex
  cases i with
  | spongeInit rb sf =>
    cases j with
    | spongeInit rb' sf' =>
      obtain ⟨rfl, rfl⟩ := hij
      exact lockstep_spongeInit hst hQ fun _ _ => ⟨rfl, rfl, rfl, rfl, hduplex⟩
    | _ => exact hij.elim
  | spongeUpdate d =>
    cases j with
    | spongeUpdate e =>
      have hlen : d.length = e.length := hij
      exact lockstep_spongeUpdate hst hQ h.sponge hlen fun _ _ _ _ _ =>
        ⟨hsp, by simp [updatedCtx, hlo, hrate, hlen], hrate, hsf, hduplex⟩
    | _ => exact hij.elim
  | spongeFinish n =>
    cases j with
    | spongeFinish n' =>
      obtain rfl : n = n' := hij
      refine lockstep_spongeFinish hst hQ h.sponge (fun _ _ _ _ _ => ⟨rfl, hlo, hrate, hsf, hduplex⟩) fun _ hl => ?_
      obtain ⟨⟨hr8, -⟩, -⟩ := (SpongeCtx.legal_iff _).mp hl
      exact ⟨rfl, by rw [length_squeezed _ _ _ (by omega), length_squeezed _ _ _ (by omega)]⟩
    | _ => exact hij.elim
  | duplexInit rb =>
    cases j with
    | duplexInit rb' =>
      obtain rfl : rb = rb' := hij
      exact lockstep_duplexInit hst hQ fun _ _ => h.setDuplex ⟨rfl, rfl, rfl, rfl⟩
    | _ => exact hij.elim
  | duplexDuplex d n =>
    cases j with
    | duplexDuplex e n' =>
      obtain ⟨hlen, rfl⟩ := hij
      exact lockstep_duplexDuplex hst hQ h.duplex hlen (fun _ _ _ _ => h.setDuplex ⟨hdp, hdr, rfl, rfl⟩)
        ⟨rfl, by rw [length_readRun, length_readRun]⟩
    | _ => exact hij.elim
  | duplexFeed d =>
    cases j with
    | duplexFeed e =>
      have hlen : d.length = e.length := hij
      exact lockstep_duplexFeed hst hQ h.duplex hlen fun hl _ _ _ _ =>
        h.setDuplex (h.duplex.fedCtx Config.block hlen hl)
    | _ => exact hij.elim
  | duplexFetch n =>
    cases j with
    | duplexFetch n' =>
      obtain rfl : n = n' := hij
      exact lockstep_duplexFetch hst hQ h.duplex
        (fun hl _ _ _ _ _ => h.setDuplex (h.duplex.fetchBytes Config.block n.toNat hl).1)
        fun hl _ => ⟨rfl, (h.duplex.fetchBytes Config.block n.toNat hl).2⟩
    | _ => exact hij.elim
  | duplexForget =>
    cases j with
    | duplexForget => exact lockstep_duplexForget hst hQ h.duplex fun _ _ _ => h.setDuplex ⟨hdp, hdr, rfl, hdr⟩
    | _ => exact hij.elim
  | duplexReseed =>
    cases j with
    | duplexReseed =>
      exact lockstep_duplexReseed hst hQ h.duplex (h.isSome_entAnswer Config.block)
        (fun _ _ => h.seededState Config.block (by rw [length_seedsGiven, length_seedsGiven]))
        (fun _ _ => h.failedState Config.block (by rw [length_seedsGiven, length_seedsGiven]))
    | _ => exact hij.elim

/-- Settles O52: every check reads registers, operands and lengths, every loop ends by their closed forms, and a reseed
asks which answers are met, not what they are. -/
theorem controlFlowIgnoresData : Obligations.ControlFlowIgnoresData := by
  intro i j s t s' hij h hexec
  obtain ⟨t', q, r, ev, ht', hR, ⟨hword, hout⟩, hs, ht, hse, hte⟩ := exec_sameControl hij h s' hexec
  exact ⟨t', q, r, ev, ht', hR, hs, ht, hword, hout, hse, hte⟩

end Sys2Proof.Machine
end
